-- ==== Sys2Proof/Word.lean ====
section
/-! DEFINITION. The words of the block: every command word and every micro-operation word is 32 bits
(`30_encoding.md` R70, R76, R89), and every sensor register is one byte (`20_memory.md` R50). -/

namespace Sys2Proof

/-- A byte (u8), the unit of the sensor's register space (R50). -/
abbrev Byte := BitVec 8

/-- A command word or a micro-operation word, 32 bits (R70, R76, R89). -/
abbrev Word := BitVec 32

/-- A 3-bit register code of a Settings field (u3, R30, R83). -/
abbrev Code := BitVec 3

end Sys2Proof
end

