-- ==== Sys2Proof/Config.lean ====
section
/-! DEFINITION. The parameters of the block (`00_scope.md` R7) and the free values: what the spec leaves
OPEN (`BUS_ORACLE`, the real length of a wait) or calls a draw. A free value is an opaque constant without a
body, so nothing can be proved about its value. -/

namespace Sys2Proof.Config

/-- `CHIP_ID_EXPECTED` (R7). -/
def chipId : Byte := 0x60
/-- `SOFT_RESET_CMD` (R7). -/
def softResetCmd : Byte := 0xB6
/-- `ID_ATTEMPTS` (R7). -/
def idAttempts : Nat := 5
/-- `T_RESET_MS` (R7). -/
def tResetMs : Nat := 2
/-- `T_CALIB_MS` (R7). -/
def tCalibMs : Nat := 1
/-- `BUS_ADDR`, the sensor's 7-bit bus address, which the block never changes (R7, R50). -/
def busAddr : BitVec 7 := 0x77

/-- `REG_ID` (R7, R60). -/
def regId : Nat := 0xD0
/-- `REG_RESET` (R7, R60). -/
def regReset : Nat := 0xE0
/-- `REG_CALIB_TP` (R7, R60). -/
def regCalibTp : Nat := 0x88
/-- `REG_CALIB_H` (R7, R60). -/
def regCalibH : Nat := 0xE1
/-- `REG_CTRL_HUM` (R7, R60). -/
def regCtrlHum : Nat := 0xF2
/-- `REG_CTRL_MEAS` (R7, R60). -/
def regCtrlMeas : Nat := 0xF4
/-- `REG_CONFIG` (R7, R60). -/
def regConfig : Nat := 0xF5
/-- `REG_DATA` (R7, R60). -/
def regData : Nat := 0xF7
/-- `LEN_CALIB_TP` (R7, R55). -/
def lenCalibTp : Nat := 26
/-- `LEN_CALIB_H` (R7, R55). -/
def lenCalibH : Nat := 7
/-- `LEN_DATA` (R7, R55). -/
def lenData : Nat := 8

/-- `T_MIN`, in 0.01 °C (R7, R173). -/
def tMin : Int := -4000
/-- `T_MAX`, in 0.01 °C (R7, R173). -/
def tMax : Int := 8500
/-- `P_MIN`, in 0.01 Pa (R7, R176). -/
def pMin : Int := 3000000
/-- `P_MAX`, in 0.01 Pa (R7, R176). -/
def pMax : Int := 11000000
/-- `H_VAR_MAX` (R7, R178). -/
def hVarMax : Int := 419430400
/-- `H_MAX`, in 1/1024 %RH (R7, R178). -/
def hMax : Int := 102400

/-- Ticks of sensor time in a millisecond: the measurement time of R152 is exact in units of 1/40 ms. -/
def ticksPerMs : Nat := 40

/-- FREE VALUE `BUS_ORACLE`, first half: does the `n`-th transaction that no script answers fail
(`45_bus_port.md` R190)? Nothing is assumed of it. -/
opaque busFails : Nat → Bool

/-- FREE VALUE `BUS_ORACLE`, second half: the bytes of the `n`-th unscripted answer, as the base-256 digits of a
number (R190: any read may return any bytes). -/
opaque busData : Nat → Nat

/-- FREE VALUE: the `n`-th draw of everything else the spec leaves open (draws of R171, R198 to R205 and the
excess of `WAIT_ACTUAL`, R204). -/
opaque freeNat : Nat → Nat

end Sys2Proof.Config
end

