-- ==== Sys2Proof/Syntax.lean ====
section
/-! DEFINITION. The instructions: one constructor per row of spec/opcode_table.json. Ten rows are host
commands (`30_encoding.md` R71, SET_MODE split into its three legal operands, R73), twelve are bus
micro-operations (R77) and WAIT (R78). -/

namespace Sys2Proof

/-- The block's operating modes, `Mode = Sleep | Forced | Normal` (`10_state.md` R22). -/
inductive Mode where
  | sleep
  | forced
  | normal
deriving DecidableEq, Repr

/-- A Settings value: five 3-bit register codes, every code 0..7 allowed in every field (R30, R83). -/
structure Settings where
  tSb    : Code
  filter : Code
  osrsT  : Code
  osrsP  : Code
  osrsH  : Code
deriving DecidableEq, Repr

/-- The two ports a 32-bit word can arrive on. A decoder tells a command word from a micro-operation
word by the port it arrives on, never by its bits (R85). -/
inductive PortKind where
  | command
  | microOp
deriving DecidableEq, Repr

/-- One constructor per row of the opcode table, in the table's order. -/
inductive Instr where
  | init
  | setSettings (st : Settings)
  | setModeSleep
  | setModeForced
  | setModeNormal
  | sleep
  | getMode
  | getSettings
  | forceMeasurement
  | read
  | rdId
  | wrReset
  | rdCalibTp
  | rdCalibH
  | rdCtrlHum
  | wrCtrlHum
  | rdCtrlMeas
  | wrCtrlMeas
  | rdConfig
  | wrConfig
  | rdData
  | wait (ms : Nat)
deriving DecidableEq, Repr

/-- The port an instruction's word arrives on: a host command on the command port, a micro-operation on
the bus-master or delay port (R2, R76, R85). -/
def Instr.port : Instr → PortKind
  | .init => .command
  | .setSettings _ => .command
  | .setModeSleep => .command
  | .setModeForced => .command
  | .setModeNormal => .command
  | .sleep => .command
  | .getMode => .command
  | .getSettings => .command
  | .forceMeasurement => .command
  | .read => .command
  | .rdId => .microOp
  | .wrReset => .microOp
  | .rdCalibTp => .microOp
  | .rdCalibH => .microOp
  | .rdCtrlHum => .microOp
  | .wrCtrlHum => .microOp
  | .rdCtrlMeas => .microOp
  | .wrCtrlMeas => .microOp
  | .rdConfig => .microOp
  | .wrConfig => .microOp
  | .rdData => .microOp
  | .wait _ => .microOp

end Sys2Proof
end

