-- ==== Sys2Proof/Machine/State.lean ====
section
/-! DEFINITION. The state of the machine as plain data: the block's own record `ctl` (`10_state.md` R20 to
R27), its three ports (R29, R190, R255), the sensor behind the Bus Port (R31 to R39) and the choices of the
environment (`BUS_ORACLE`, `WAIT_ACTUAL` and the draws, `00_scope.md` R7, R13). -/

namespace Sys2Proof.Machine

/-! ## The block's own state -/

/-- The 18 coefficients, each at the width of R23; the signedness of R23 is applied where a coefficient is used
(`44_compensation.md`). -/
structure CalibrationData where
  t1 : BitVec 16
  t2 : BitVec 16
  t3 : BitVec 16
  p1 : BitVec 16
  p2 : BitVec 16
  p3 : BitVec 16
  p4 : BitVec 16
  p5 : BitVec 16
  p6 : BitVec 16
  p7 : BitVec 16
  p8 : BitVec 16
  p9 : BitVec 16
  h1 : BitVec 8
  h2 : BitVec 16
  h3 : BitVec 8
  h4 : BitVec 16
  h5 : BitVec 16
  h6 : BitVec 8
deriving DecidableEq, Repr

/-- The outcome of a bus transaction (R190): `Ok` with the bytes of a READ (none for a WRITE), or `BusError`. -/
inductive Reply where
  | ok (bytes : List Byte)
  | error
deriving DecidableEq, Repr

/-- A running command: the command, with the operand it carries. A command that fails its own precondition
(R228) never becomes a job; `read trigger c` says whether READ runs FORCE_BODY, and holds the coefficients it takes
from `ctl.calib` as a local (R155; no micro-operation of READ writes `ctl`). -/
inductive Job where
  | init
  | setSettings (st : Settings)
  | setMode (m : Mode)
  | sleep
  | getMode
  | getSettings
  | force
  | read (trigger : Bool) (c : CalibrationData)
deriving DecidableEq, Repr

/-- `ctl.seq` (R27): `Idle`, or `Busy(cmd, k, locals)`. The locals of R26 are functions of the answers the command
has received so far, so the answers are what is stored, oldest first; `k` is their number (`Seq.index`). -/
inductive Seq where
  | idle
  | busy (job : Job) (replies : List Reply)
deriving DecidableEq, Repr

/-- The block's architectural state (R20). -/
structure Ctl where
  initialized : Bool
  mode        : Mode
  calib       : Option CalibrationData
  seq         : Seq
deriving DecidableEq, Repr

/-! ## The ports -/

/-- The status of a command result (R220). -/
inductive Status where
  | ok
  | busError
  | identityMismatchError
  | uninitializedError
  | invalidStateError
  | refused
deriving DecidableEq, Repr

/-- The payload of a command result (R29, R75); a Measurement is `(T_out : s32, P_out : u32, H_out : u32)` (R185). -/
inductive Payload where
  | none
  | mode (m : Mode)
  | settings (st : Settings)
  | measurement (tOut pOut hOut : BitVec 32)
deriving DecidableEq, Repr

/-- What the result port carries for the command that just ended (R29); a `BusError` carries, for the reader of a
trace, the word of the failing micro-operation (R221). -/
structure Result where
  status  : Status
  payload : Payload
  failing : Option Word
deriving DecidableEq, Repr

/-- The host's side (R255): the command word presented now, the words the host goes on to present one by one while
the block is idle (R13, R61), and the result port, empty until a command has ended. -/
structure HostPort where
  cmd    : Option Word
  queue  : List Word
  result : Option Result
deriving DecidableEq, Repr

/-- The bus-master and delay port (R76, R190): the micro-operation word now on it, the data byte beside it (the block
writes single bytes only, R192), and the outcome of the last micro-operation. -/
structure BusPort where
  uop   : Option Word
  wdata : Byte
  reply : Option Reply
deriving DecidableEq, Repr

/-- One line of the micro-operation trace (R238, `95_test_vectors.md`): the word, the data bytes a WRITE carries, and
the answer. -/
structure TraceEntry where
  word  : Word
  wdata : List Byte
  reply : Reply
deriving DecidableEq, Repr

/-! ## The sensor and the environment -/

/-- A byte memory as a list of (address, byte) pairs in one canonical form (`Memory.wf` in Ops.lean). -/
abbrev Memory := List Host.Cell

/-- What the sensor is doing (R39 `busy`, R199, R200), times in 1/40 ms of sensor time:
* `idle`: no conversion is running;
* `forced bound deadline`: a forced conversion, `busy = true`; it has ended once the clock reaches `deadline`, and
  `bound` is its worst-case time;
* `normal converting firstBy`: continuous sampling; `busy = converting`, and while `firstBy = some d` the first sample
  is still to come, no later than `d`. -/
inductive Activity where
  | idle
  | forced (bound deadline : Nat)
  | normal (converting : Bool) (firstBy : Option Nat)
deriving DecidableEq, Repr

/-- The sensor (R31 to R39). `regs` is its register space; `humEff` and `activity` are the hidden state of R39;
`clock` is sensor time in 1/40 ms (R204), `settleAt` the time at which the last soft reset has settled (R194). `wild` holds
after a mode write in Normal, from which on the register and data contents are any (R198). `conforming` is the premise of
R40: when it is false nothing is assumed of the sensor. -/
structure Sensor where
  conforming : Bool
  regs       : Memory
  humEff     : Code
  activity   : Activity
  clock      : Nat
  settleAt   : Nat
  wild       : Bool
deriving DecidableEq, Repr

/-- The environment's choices, the model's own fields (log entry 4): scripts of the coming outcomes of bus transactions, of
the coming samples, of the coming excess times of waits (in 1/40 ms) and of the other draws. Where a script is empty the choice
is a free value of Config, and `nReplies` and `nDraws` count how many of those have been taken. -/
structure Env where
  replies  : List Reply
  samples  : List (List Byte)
  delays   : List Nat
  draws    : List Nat
  nReplies : Nat
  nDraws   : Nat
deriving DecidableEq, Repr

/-- Everything outside the block (R13): the sensor, and the environment's choices. -/
structure World where
  sen : Sensor
  env : Env
deriving DecidableEq, Repr

/-- The machine. -/
structure State where
  ctl   : Ctl
  host  : HostPort
  port  : BusPort
  trace : List TraceEntry
  world : World
deriving DecidableEq, Repr

/-! ## Stops -/

/-- Why the machine stops. The spec lets no command end in a fault (`93_implementation_defined.md`: "No behaviour of
the block is a `fault` or `stuck`"), so both are raised only in states that no run reaches. -/
inductive Fault where
  /-- Raised by READ when `ctl.calib` is none although `ctl.initialized` holds, which R24 rules out. Safe: the machine
  stops. -/
  | calibrationMissing
  /-- Raised by the step when `ctl.seq` is Busy and the port holds no micro-operation for it, or the answers recorded
  do not lead to a micro-operation of its command (R27 rules both out). Safe: the machine stops. -/
  | sequencerLost
deriving DecidableEq, Repr

/-- Why the machine has no meaning for a word. -/
inductive Refusal where
  /-- An instruction without a meaning; raised by no arm of this model. Safe. -/
  | notModelled (mnemonic : String)
  /-- Raised by the step for a reserved micro-operation word on the bus-master port: the block never issues one (R79),
  and a model of the sensor side may refuse them (`93_implementation_defined.md` U10). Safe. -/
  | reservedMicroOp (word : Word)
deriving DecidableEq, Repr

/-! ## Reset -/

/-- The block right after reset (R250): `initialized = false`, `mode = Sleep`, `calib = none`, `seq = Idle`; nothing
is on its ports. A block reset does not touch the sensor (R251); the sensor's fields stand at the power-on values of
R35 to R39 and assume no conforming sensor (R40) (DESIGN CHOICE, log entry 5). -/
def State.reset : State where
  ctl := ⟨false, .sleep, none, .idle⟩
  host := ⟨none, [], none⟩
  port := ⟨none, 0, none⟩
  trace := []
  world :=
    { sen := ⟨false, [], 0, .idle, 0, 0, false⟩
      env := ⟨[], [], [], [], 0, 0⟩ }

end Sys2Proof.Machine
end

