-- ==== Sys2Proof/Machine/Flags.lean ====
section
/-! DEFINITION. The block has no condition codes (`10_state.md` R28). What stands for them: the status codes of
`60_exceptions.md` R220, and the range test of `44_compensation.md` R171 on every intermediate of the compensation. -/

namespace Sys2Proof.Machine

/-- The u8 code of a status (R220). -/
def statusCode : Status → BitVec 8
  | .ok => 0
  | .busError => 1
  | .identityMismatchError => 2
  | .uninitializedError => 3
  | .invalidStateError => 4
  | .refused => 0xFF

/-- `fitsS(w, v)` of R9. -/
def fitsS (w : Nat) (v : Int) : Bool := decide (-(2 : Int) ^ (w - 1) ≤ v) && decide (v ≤ (2 : Int) ^ (w - 1) - 1)

/-- `fitsU(w, v)` of R9. -/
def fitsU (w : Nat) (v : Int) : Bool := decide (0 ≤ v) && decide (v ≤ (2 : Int) ^ w - 1)

/-- `clamp(v, lo, hi)` of R9. -/
def clamp (v lo hi : Int) : Int := min (max v lo) hi

/-- A value an operation of the pseudocode produces, none when it leaves the declared width (R171). -/
def inRange (w : Nat) (v : Int) : Option Int := if fitsS w v then some v else none

/-- `+` of the compensation pseudocode at width `w` (R171). -/
def addW (w : Nat) (a b : Int) : Option Int := inRange w (a + b)
/-- `-` of the compensation pseudocode at width `w` (R171). -/
def subW (w : Nat) (a b : Int) : Option Int := inRange w (a - b)
/-- `*` of the compensation pseudocode at width `w` (R171). -/
def mulW (w : Nat) (a b : Int) : Option Int := inRange w (a * b)
/-- `/` of the compensation pseudocode at width `w`: the quotient is rounded toward zero (R9, R171). -/
def divW (w : Nat) (a b : Int) : Option Int := inRange w (a.tdiv b)

end Sys2Proof.Machine
end

