-- ==== Sys2Proof/WellFormed.lean ====
section
/-! DEFINITION. Which instruction terms have an encoding. The Settings codes are 3 bits by their type, so
every one of them is encodable (`30_encoding.md` R72, R83); the only field that can be out of range is the
duration of WAIT, whose field `ms` is 16 bits wide (R76, R78). -/

namespace Sys2Proof

/-- The one check: the duration of a WAIT fits the 16-bit field `ms` (R76). -/
def Instr.wf : Instr → Bool
  | .init => true
  | .setSettings _ => true
  | .setModeSleep => true
  | .setModeForced => true
  | .setModeNormal => true
  | .sleep => true
  | .getMode => true
  | .getSettings => true
  | .forceMeasurement => true
  | .read => true
  | .rdId => true
  | .wrReset => true
  | .rdCalibTp => true
  | .rdCalibH => true
  | .rdCtrlHum => true
  | .wrCtrlHum => true
  | .rdCtrlMeas => true
  | .wrCtrlMeas => true
  | .rdConfig => true
  | .wrConfig => true
  | .rdData => true
  | .wait ms => decide (ms < 65536)

end Sys2Proof
end

