-- ==== Sys2Proof/Decode.lean ====
section
/-! DEFINITION. The decoder, total on every word of either port and rejecting by name (`30_encoding.md` R70 to
R79), and the encoder, written from the same tables. -/

namespace Sys2Proof

/-- Why a word is reserved: R74 (command words) and R79 (micro-operation words). -/
inductive Reject where
  /-- `op` is 0x0 or 0x9..0xF (R74). -/
  | reservedOpcode
  /-- a command word with `rsv ≠ 0` (R74). -/
  | reservedCommandBits
  /-- an opcode without an operand and `operand ≠ 0`, or SET_MODE with `operand[14:2] ≠ 0` (R74). -/
  | operandNotZero
  /-- SET_MODE with `operand[1:0] = 0b10` (R73, R74). -/
  | modeCodeTwo
  /-- `kind = 0b11` (R76, R79). -/
  | reservedKind
  /-- a micro-operation word with `rsv ≠ 0` (R79). -/
  | reservedMicroOpBits
  /-- an address or a length the block never issues (R77, R79). -/
  | notIssued
deriving DecidableEq, Repr

/-- Bits `[lo+len-1 : lo]` of a word, the `v[hi:lo]` of R8. -/
def bitField (w : Word) (lo len : Nat) : BitVec len := w.extractLsb' lo len

/-- The operand of SET_SETTINGS, R72: `t_sb [14:12]`, `filter [11:9]`, `osrs_t [8:6]`, `osrs_p [5:3]`,
`osrs_h [2:0]`. -/
def settingsOfOperand (w : Word) : Settings where
  tSb := bitField w 12 3
  filter := bitField w 9 3
  osrsT := bitField w 6 3
  osrsP := bitField w 3 3
  osrsH := bitField w 0 3

/-- The layout of R72 (also of the GET_SETTINGS payload, R75) as a 15-bit operand. -/
def operandOfSettings (st : Settings) : BitVec 15 :=
  st.tSb ++ st.filter ++ st.osrsT ++ st.osrsP ++ st.osrsH

/-- An opcode without an operand: its operand must be 0 (R70, R74). -/
def noOperand (w : Word) (i : Instr) : Except Reject Instr :=
  if bitField w 0 15 = 0 then .ok i else .error .operandNotZero

/-- SET_MODE, R73: bits [14:2] are 0 and bits [1:0] carry the mode. -/
def decodeSetMode (w : Word) : Except Reject Instr :=
  if bitField w 2 13 ≠ 0 then .error .operandNotZero
  else if bitField w 0 2 = 0b00 then .ok .setModeSleep
  else if bitField w 0 2 = 0b01 then .ok .setModeForced
  else if bitField w 0 2 = 0b11 then .ok .setModeNormal
  else .error .modeCodeTwo

/-- The command port's decoder, R70 to R74. -/
def decodeCommand (w : Word) : Except Reject Instr :=
  if bitField w 15 13 ≠ 0 then .error .reservedCommandBits
  else match (bitField w 28 4).toNat with
    | 1 => noOperand w .init
    | 2 => .ok (.setSettings (settingsOfOperand w))
    | 3 => decodeSetMode w
    | 4 => noOperand w .sleep
    | 5 => noOperand w .getMode
    | 6 => noOperand w .getSettings
    | 7 => noOperand w .forceMeasurement
    | 8 => noOperand w .read
    | _ => .error .reservedOpcode

/-- The READ micro-operations the block issues, by length and address (R77). -/
def decodeBusRead (len addr : Nat) : Except Reject Instr :=
  match len, addr with
  | 1, 0xD0 => .ok .rdId
  | 26, 0x88 => .ok .rdCalibTp
  | 7, 0xE1 => .ok .rdCalibH
  | 1, 0xF2 => .ok .rdCtrlHum
  | 1, 0xF4 => .ok .rdCtrlMeas
  | 1, 0xF5 => .ok .rdConfig
  | 8, 0xF7 => .ok .rdData
  | _, _ => .error .notIssued

/-- The WRITE micro-operations the block issues, by length and address (R77). -/
def decodeBusWrite (len addr : Nat) : Except Reject Instr :=
  match len, addr with
  | 1, 0xE0 => .ok .wrReset
  | 1, 0xF2 => .ok .wrCtrlHum
  | 1, 0xF4 => .ok .wrCtrlMeas
  | 1, 0xF5 => .ok .wrConfig
  | _, _ => .error .notIssued

/-- The bus-master and delay port's decoder, R76 to R79. -/
def decodeMicroOp (w : Word) : Except Reject Instr :=
  if bitField w 16 14 ≠ 0 then .error .reservedMicroOpBits
  else match (bitField w 30 2).toNat with
    | 0 => decodeBusWrite (bitField w 8 8).toNat (bitField w 0 8).toNat
    | 1 => decodeBusRead (bitField w 8 8).toNat (bitField w 0 8).toNat
    | 2 => .ok (.wait (bitField w 0 16).toNat)
    | _ => .error .reservedKind

/-- The decoder: the port says which of the two word formats is read (R85). -/
def decode (p : PortKind) (w : Word) : Except Reject Instr :=
  match p with
  | .command => decodeCommand w
  | .microOp => decodeMicroOp w

/-- A command word from its opcode and operand; `rsv` is 0 (R70). -/
def commandWord (op : BitVec 4) (operand : BitVec 15) : Word := op ++ (0 : BitVec 13) ++ operand

/-- A READ or WRITE micro-operation word; `rsv` is 0 (R76). -/
def busWord (kind : BitVec 2) (len addr : BitVec 8) : Word := kind ++ (0 : BitVec 14) ++ len ++ addr

/-- The word of an instruction (R71 to R73, R77, R78). -/
def encode : Instr → Word
  | .init => commandWord 1 0
  | .setSettings st => commandWord 2 (operandOfSettings st)
  | .setModeSleep => commandWord 3 0b00
  | .setModeForced => commandWord 3 0b01
  | .setModeNormal => commandWord 3 0b11
  | .sleep => commandWord 4 0
  | .getMode => commandWord 5 0
  | .getSettings => commandWord 6 0
  | .forceMeasurement => commandWord 7 0
  | .read => commandWord 8 0
  | .rdId => busWord 0b01 1 0xD0
  | .wrReset => busWord 0b00 1 0xE0
  | .rdCalibTp => busWord 0b01 26 0x88
  | .rdCalibH => busWord 0b01 7 0xE1
  | .rdCtrlHum => busWord 0b01 1 0xF2
  | .wrCtrlHum => busWord 0b00 1 0xF2
  | .rdCtrlMeas => busWord 0b01 1 0xF4
  | .wrCtrlMeas => busWord 0b00 1 0xF4
  | .rdConfig => busWord 0b01 1 0xF5
  | .wrConfig => busWord 0b00 1 0xF5
  | .rdData => busWord 0b01 8 0xF7
  | .wait ms => (0b10 : BitVec 2) ++ (0 : BitVec 14) ++ BitVec.ofNat 16 ms

/-- The instruction of an opcode-table word without a port. A word that is a legal command is read as the
command, any other as a micro-operation; the only word both ports accept is 0x80000000, which is READ on the
command port and WAIT 0 on the delay port (R85; log entry 3). -/
def decodeTableWord (nbits w : Nat) : Option Instr :=
  if nbits ≤ 32 ∧ w < 2 ^ 32 then
    match decode .command (BitVec.ofNat 32 w) with
    | .ok i => some i
    | .error _ =>
      match decode .microOp (BitVec.ofNat 32 w) with
      | .ok i => some i
      | .error _ => none
  else none

end Sys2Proof
end

