-- ==== Sys2Proof/Machine/Operands.lean ====
section
/-! DEFINITION. The fields and packings: register codes (`30_encoding.md` R80 to R84, `41_settings_codec.md` R110
to R121), the result encoding (R75), the timing table (`43_measurement_reader.md` R150 to R153), the data burst (R157) and
the calibration bytes (`40_calibration.md` R101 to R105). -/

namespace Sys2Proof.Machine

/-! ## Register codes -/

/-- `decodeOsrs` (R110): codes 5, 6 and 7 all mean 16x. -/
def decodeOsrs (c : Code) : Code := if c ≤ 4 then c else 5

/-- `decodeFilter` (R111): codes 5, 6 and 7 mean 16. -/
def decodeFilter (c : Code) : Code := if c ≤ 4 then c else 4

/-- `decodeStandby` (R112). -/
def decodeStandby (c : Code) : Code := c

/-- `decodeMode` (R113): 0b10 is a second code of Forced. -/
def decodeMode (c : BitVec 2) : Mode :=
  if c = 0b00 then .sleep else if c = 0b11 then .normal else .forced

/-- `encodeMode` (R114). -/
def encodeMode : Mode → BitVec 2
  | .sleep => 0b00
  | .forced => 0b01
  | .normal => 0b11

/-- The standby time of a code in units of 0.1 ms (R82); the block never uses it. -/
def standbyTenthsMs (c : Code) : Nat :=
  match c.toNat with
  | 0 => 5
  | 1 => 625
  | 2 => 1250
  | 3 => 2500
  | 4 => 5000
  | 5 => 10000
  | 6 => 100
  | _ => 200

/-- The filter coefficient of a code (R81), 0 for off; the block never uses it. -/
def filterCoefficient (c : Code) : Nat :=
  match (decodeFilter c).toNat with
  | 0 => 0
  | 1 => 2
  | 2 => 4
  | 3 => 8
  | _ => 16

/-- Bits `[lo+len-1 : lo]` of a register byte (R8). -/
def byteField (v : Byte) (lo len : Nat) : BitVec len := v.extractLsb' lo len

/-- The mode bits, `ctrl_meas[1:0]` (R35). -/
def modeBits (v : Byte) : BitVec 2 := byteField v 0 2

/-- The byte a read-modify-write writes back: bits outside `mask` as read, bits inside it from `v` (R115). -/
def rmwByte (x mask v : Byte) : Byte := (x &&& ~~~mask) ||| (v &&& mask)

/-- `osrs_h` in position, `ctrl_hum[2:0]` (R36, R116). -/
def humBits (st : Settings) : Byte := (0 : BitVec 5) ++ st.osrsH

/-- `(osrs_t << 5) | (osrs_p << 2)` (R35, R117). -/
def measBits (st : Settings) : Byte := st.osrsT ++ st.osrsP ++ (0 : BitVec 2)

/-- `(t_sb << 5) | (filter << 2)` (R37, R117). -/
def configBits (st : Settings) : Byte := st.tSb ++ st.filter ++ (0 : BitVec 2)

/-- `decodeSettings(xh, xm, xc)` (R118). -/
def decodeSettings (xh xm xc : Byte) : Settings where
  tSb := decodeStandby (byteField xc 5 3)
  filter := decodeFilter (byteField xc 2 3)
  osrsT := decodeOsrs (byteField xm 5 3)
  osrsP := decodeOsrs (byteField xm 2 3)
  osrsH := decodeOsrs (byteField xh 0 3)

/-- `ctrlMeasForced(s)`, the full byte FORCE_MEASUREMENT writes to 0xF4 (R121). -/
def ctrlMeasForced (st : Settings) : Byte := measBits st ||| ((0 : BitVec 6) ++ encodeMode .forced)

/-! ## Timing -/

/-- `coefT` (R150); 8x has 16, as the source gives it (`90_conflicts.md` C6). -/
def coefT (c : Code) : Nat :=
  match c.toNat with
  | 0 => 0
  | 1 => 1
  | 2 => 2
  | 3 => 4
  | _ => 16

/-- A channel's term of R152 for pressure and humidity: none when its code is 0. -/
def channelTicks (c : Code) : Nat := if c ≠ 0 then 92 * coefT c + 23 else 0

/-- The worst-case measurement time of three oversampling codes in units of 1/40 ms (R152). -/
def ticksOfCodes (osrsT osrsP osrsH : Code) : Nat :=
  50 + 92 * coefT osrsT + channelTicks osrsP + channelTicks osrsH

/-- `t40(s)` (R152). -/
def t40 (st : Settings) : Nat := ticksOfCodes st.osrsT st.osrsP st.osrsH

/-- `measWaitMs(s)` (R153). -/
def measWaitMs (st : Settings) : Nat := (t40 st + 39) / 40

/-! ## Bytes -/

/-- Byte `i` of a block of bytes. -/
def byteAt (b : List Byte) (i : Nat) : Byte := b.getD i 0

/-- `word(b, i) = {b[i+1], b[i]}`, little-endian (R51, R101). -/
def wordAt (b : List Byte) (i : Nat) : BitVec 16 := byteAt b (i + 1) ++ byteAt b i

/-- `H4 = (h[3] * 16) | (h[4] & 0x0F)`, `h[3]` read as unsigned (R104). -/
def h4Of (h : List Byte) : BitVec 16 :=
  ((byteAt h 3).zeroExtend 16 * 16) ||| ((byteAt h 4).zeroExtend 16 &&& 0x0F)

/-- `H5 = (b8s(h[5]) * 16) | (h[4] >> 4)`, at 16 bits (R105). -/
def h5Of (h : List Byte) : BitVec 16 :=
  ((byteAt h 5).signExtend 16 * 16) ||| ((byteAt h 4).zeroExtend 16 >>> 4)

/-- `parseCalib(tp, h)`, total (R101 to R106); `tp[24]` is not used and `H1 = tp[25]` (R102). -/
def parseCalib (tp h : List Byte) : CalibrationData where
  t1 := wordAt tp 0
  t2 := wordAt tp 2
  t3 := wordAt tp 4
  p1 := wordAt tp 6
  p2 := wordAt tp 8
  p3 := wordAt tp 10
  p4 := wordAt tp 12
  p5 := wordAt tp 14
  p6 := wordAt tp 16
  p7 := wordAt tp 18
  p8 := wordAt tp 20
  p9 := wordAt tp 22
  h1 := byteAt tp 25
  h2 := wordAt h 0
  h3 := byteAt h 2
  h4 := h4Of h
  h5 := h5Of h
  h6 := byteAt h 6

/-- The raw sample of a burst: `adc_P` and `adc_T` (u20) and `adc_H` (u16). -/
structure RawSample where
  adcP : Nat
  adcT : Nat
  adcH : Nat
deriving DecidableEq, Repr

/-- A 20-bit value, most significant byte first: `(x0 << 12) | (x1 << 4) | (x2 >> 4)` (R52). -/
def raw20 (x0 x1 x2 : Byte) : Nat := (x0.toNat <<< 12) ||| (x1.toNat <<< 4) ||| (x2.toNat >>> 4)

/-- A 16-bit value, most significant byte first: `(y0 << 8) | y1` (R52). -/
def raw16 (y0 y1 : Byte) : Nat := (y0.toNat <<< 8) ||| y1.toNat

/-- `unpackRaw(d)`: pressure, then temperature, then humidity (R157). -/
def unpackRaw (d : List Byte) : RawSample where
  adcP := raw20 (byteAt d 0) (byteAt d 1) (byteAt d 2)
  adcT := raw20 (byteAt d 3) (byteAt d 4) (byteAt d 5)
  adcH := raw16 (byteAt d 6) (byteAt d 7)

/-! ## Result encoding -/

/-- The payload words of a result (R75): a mode code, the Settings layout of R72, the three words of a Measurement, or
nothing. -/
def payloadWords : Payload → List Word
  | .none => []
  | .mode m => [(encodeMode m).zeroExtend 32]
  | .settings st => [(operandOfSettings st).zeroExtend 32]
  | .measurement tOut pOut hOut => [tOut, pOut, hOut]

end Sys2Proof.Machine
end

