-- ==== Sys2Proof/Machine/Ops.lean ====
section
/-! DEFINITION. The named operations: the sensor's register space as a memory (`20_memory.md` R50, R56), the
environment's answers and draws, the ports, and the ways a command ends, by success or by the one shared raise of an
error (`60_exceptions.md` R220 to R231). -/

namespace Sys2Proof.Machine

/-! ## Register memory -/

/-- What an unlisted address reads as: the reset contents of R32, R35 to R38, `0x60` at the identity register and
`80 00 00 80 00 00 80 00` in the data registers; `0x00` elsewhere (log entries 5 and 6). -/
def blankByte (a : Nat) : Byte :=
  if a = 0xD0 then 0x60
  else if a = 0xF7 ∨ a = 0xFA ∨ a = 0xFD then 0x80
  else 0x00

/-- One byte of a memory. -/
def Memory.read : Memory → Nat → Byte
  | [], a => blankByte a
  | (b, x) :: m, a => if a = b then x else Memory.read m a

/-- Writing one byte; the canonical form is kept, so writing what an unlisted address reads as removes the entry. -/
def Memory.write : Memory → Nat → Byte → Memory
  | [], a, v => if v = blankByte a then [] else [(a, v)]
  | (b, x) :: m, a, v =>
    if a < b then (if v = blankByte a then (b, x) :: m else (a, v) :: (b, x) :: m)
    else if a = b then (if v = blankByte a then m else (a, v) :: m)
    else (b, x) :: Memory.write m a v

/-- The canonical form: addresses strictly rising, all of them in the 8-bit register space (R50), and no entry equal to
what an unlisted address reads as. -/
def Memory.wf : Memory → Bool
  | [] => true
  | (a, v) :: m => decide (a < 256) && decide (v ≠ blankByte a) && m.all (fun c => decide (a < c.1)) && Memory.wf m

/-- The registers at `a, a+1, ..., a+n-1`, in that order (R56). -/
def Memory.burst (m : Memory) (a : Nat) : Nat → List Byte
  | 0 => []
  | n + 1 => m.read a :: Memory.burst m (a + 1) n

/-- Consecutive bytes written from `a` on. -/
def Memory.writeBytes (m : Memory) (a : Nat) : List Byte → Memory
  | [] => m
  | v :: vs => Memory.writeBytes (m.write a v) (a + 1) vs

/-- The memory whose bytes from `a` on are these, every other address unlisted. -/
def Memory.ofBytes (a : Nat) : List Byte → Memory
  | [] => []
  | v :: vs => if v = blankByte a then Memory.ofBytes (a + 1) vs else (a, v) :: Memory.ofBytes (a + 1) vs

/-! ## The environment -/

/-- `n` bytes from the base-256 digits of a number, lowest digit first: every list of `n` bytes is reached. -/
def bytesOf : Nat → Nat → List Byte
  | 0, _ => []
  | n + 1, v => BitVec.ofNat 8 v :: bytesOf n (v / 256)

/-- Exactly `n` bytes: a READ is answered with `n` bytes (R76, R190); a scripted answer of another length is cut or
filled with zeros. -/
def fitBytes : Nat → List Byte → List Byte
  | 0, _ => []
  | n + 1, [] => 0 :: fitBytes n []
  | n + 1, v :: vs => v :: fitBytes n vs

/-- An answer with exactly `n` bytes. -/
def fitReply (n : Nat) : Reply → Reply
  | .ok bytes => .ok (fitBytes n bytes)
  | .error => .error

/-- The next free value of Config; it is never used twice. -/
def World.free (w : World) : Nat × World :=
  (Config.freeNat w.env.nDraws, { w with env := { w.env with nDraws := w.env.nDraws + 1 } })

/-- The next draw: from the script, or the free value. -/
def World.draw (w : World) : Nat × World :=
  match w.env.draws with
  | d :: ds => (d, { w with env := { w.env with draws := ds } })
  | [] => w.free

/-- The excess of the next wait over what was asked for, in 1/40 ms: a draw (R204). -/
def World.delay (w : World) : Nat × World :=
  match w.env.delays with
  | d :: ds => (d, { w with env := { w.env with delays := ds } })
  | [] => w.free

/-- The eight bytes of the next sample: a draw (R203). -/
def World.sample (w : World) : List Byte × World :=
  match w.env.samples with
  | b :: bs => (fitBytes 8 b, { w with env := { w.env with samples := bs } })
  | [] => (bytesOf 8 w.free.1, w.free.2)

/-- A drawn truth value. -/
def World.drawBool (w : World) : Bool × World := (decide (w.draw.1 % 2 = 1), w.draw.2)

/-- A drawn integer in `[lo, hi]`. -/
def World.drawInt (lo hi : Int) (w : World) : Int × World :=
  (lo + (w.draw.1 : Int) % (hi - lo + 1), w.draw.2)

/-- `BUS_ORACLE`'s outcome of the next transaction, with `n` bytes when it is Ok (R190): from the script, or the free
value. -/
def World.outcome (n : Nat) (w : World) : Reply × World :=
  match w.env.replies with
  | r :: rs => (fitReply n r, { w with env := { w.env with replies := rs } })
  | [] =>
    (if Config.busFails w.env.nReplies then .error else .ok (bytesOf n (Config.busData w.env.nReplies)),
      { w with env := { w.env with nReplies := w.env.nReplies + 1 } })

/-! ## Ports -/

/-- `k` of R27: the index of the running command's next micro-operation. -/
def Seq.index : Seq → Nat
  | .idle => 0
  | .busy _ replies => replies.length

/-- The block puts a micro-operation word, and the byte beside it, on its port (R76), as step `replies.length` of a job
(R27). -/
def State.issue (s : State) (job : Job) (replies : List Reply) (word : Word) (wdata : Byte) : State :=
  { s with
    ctl := { s.ctl with seq := .busy job replies }
    port := { s.port with uop := some word, wdata := wdata } }

/-- The answer to the last micro-operation. -/
def State.lastReply (s : State) : Reply := s.port.reply.getD .error

/-! ## The end of a command -/

/-- A command ends: `seq` returns to Idle, no micro-operation is left on the bus port, and the result port carries the
result (R27, R29, R254). The result stays on the port until the next one or a block reset: R28 says that the block does not
keep it once the host has received it, and names no event for that (DESIGN CHOICE, log entry 26). The answer to the last
micro-operation stays in `port.reply` until the next micro-operation or a block reset, read by nothing: the spec names no
latch for it, and R26 keeps only a command's locals (DESIGN CHOICE, log entry 28). -/
def State.finish (s : State) (r : Result) : State :=
  { s with
    ctl := { s.ctl with seq := .idle }
    port := { s.port with uop := none }
    host := { s.host with result := some r } }

/-- `return v`: status OK and a payload (R10, R75). -/
def State.finishOk (s : State) (p : Payload) : State := s.finish ⟨.ok, p, none⟩

/-- `raise E`, the one way a command ends with an error: the status goes to the result port, `seq` becomes Idle and
nothing else happens (R10, R226, R227, R230). `failing` is the failing micro-operation's word (R221). -/
def State.raise (s : State) (e : Status) (failing : Option Word) : State := s.finish ⟨e, .none, failing⟩

/-- `Refused` (R225): no micro-operation is issued and no state changes; the port answers the status. -/
def State.refuse (s : State) : State :=
  { s with host := { s.host with result := some ⟨.refused, .none, none⟩ } }

/-! ## Block reset -/

/-- A block reset (R250, R251): the block's record and its ports are as after reset, a running command is dropped, no
transaction is made and the sensor is not touched. The host's words still to come stay its own (log entry 23). -/
def State.blockReset (s : State) : State :=
  { s with
    ctl := State.reset.ctl
    port := State.reset.port
    host := { s.host with result := State.reset.host.result } }

/-! ## Fetching -/

/-- What the next step works on. -/
inductive Fetched where
  /-- a word the host presents on the command port -/
  | command (w : Word) (s : State)
  /-- a micro-operation word on the bus-master or delay port -/
  | microOp (w : Word) (s : State)
  /-- nothing: the block waits for a command (R250) -/
  | nothing
  /-- the sequencer is Busy and no micro-operation is on the port (R27 rules it out) -/
  | lost

/-- The next word: one presented on the command port is answered first, whatever the block does (R225); then the
micro-operation on the bus port; and an idle block takes the host's next word (R13, R61). -/
def fetch (s : State) : Fetched :=
  match s.host.cmd with
  | some w => .command w { s with host := { s.host with cmd := none } }
  | none =>
    match s.port.uop with
    | some w => .microOp w s
    | none =>
      match s.ctl.seq with
      | .busy _ _ => .lost
      | .idle =>
        match s.host.queue with
        | w :: ws => .command w { s with host := { s.host with queue := ws } }
        | [] => .nothing

end Sys2Proof.Machine
end

