-- ==== Sys2Proof/Machine/Sensor.lean ====
section
/-! DEFINITION. The sensor's side of every micro-operation (`45_bus_port.md` R190 to R206): what a conforming sensor
answers and does, with a draw wherever the spec leaves the outcome open, and nothing assumed of any other sensor (R40). -/

namespace Sys2Proof.Machine

/-! ## Registers -/

/-- A register. The identity register of a conforming sensor always reads `0x60` and nothing changes it (R32); of any other
sensor nothing is assumed (R40). -/
def Sensor.reg (sen : Sensor) (a : Nat) : Byte :=
  if sen.conforming = true ∧ a = Config.regId then Config.chipId else sen.regs.read a

/-- The registers at `a, ..., a+n-1` (R56, R191). -/
def Sensor.burst (sen : Sensor) (a : Nat) : Nat → List Byte
  | 0 => []
  | n + 1 => sen.reg a :: Sensor.burst sen (a + 1) n

/-- `sen.ctrl_hum`, 0xF2 (R36). -/
def Sensor.ctrlHum (sen : Sensor) : Byte := sen.reg Config.regCtrlHum
/-- `sen.ctrl_meas`, 0xF4 (R35). -/
def Sensor.ctrlMeas (sen : Sensor) : Byte := sen.reg Config.regCtrlMeas
/-- `sen.config`, 0xF5 (R37). -/
def Sensor.config (sen : Sensor) : Byte := sen.reg Config.regConfig
/-- `sen.data[0..7]`, 0xF7..0xFE (R38). -/
def Sensor.data (sen : Sensor) : List Byte := sen.burst Config.regData Config.lenData

/-- `sen.busy` (R39): a forced or normal conversion is running. -/
def Sensor.busy (sen : Sensor) : Bool :=
  match sen.activity with
  | .idle => false
  | .forced _ _ => true
  | .normal converting _ => converting

/-- The sensor is in Sleep: the mode bits read 0b00 and no conversion runs (R198, R201). -/
def Sensor.asleep (sen : Sensor) : Bool := decide (modeBits sen.ctrlMeas = 0b00) && !sen.busy

/-- The last soft reset has settled (R194). -/
def Sensor.settled (sen : Sensor) : Bool := decide (sen.settleAt ≤ sen.clock)

/-- The transaction's answer is the conforming one: the sensor conforms (R40), and no access falls within 2 ms of a soft
reset, whose result R194 leaves unspecified. -/
def Sensor.answers (sen : Sensor) : Bool := sen.conforming && sen.settled

/-- One byte of the register space stored. -/
def World.store (w : World) (a : Nat) (v : Byte) : World :=
  { w with sen := { w.sen with regs := w.sen.regs.write a v } }

/-! ## Conversions -/

/-- A new sample in the data registers: the eight bytes are a draw (R203). -/
def World.newSample (w : World) : World :=
  let w1 := w.sample.2
  { w1 with sen := { w1.sen with regs := w1.sen.regs.writeBytes Config.regData w.sample.1 } }

/-- A forced conversion ends: `busy <- false`, `ctrl_meas[1:0] <- 0b00` with the other bits kept, and a new sample (R199). -/
def World.endForced (w : World) : World :=
  let w1 := w.newSample
  { w1 with
    sen := { w1.sen with
      activity := .idle
      regs := w1.sen.regs.write Config.regCtrlMeas (w1.sen.regs.read Config.regCtrlMeas &&& 0xFC) } }

/-- A forced conversion may end at any bus transaction, and has ended once its bound has elapsed (R199). -/
def World.advanceForced (deadline : Nat) (w : World) : World :=
  if deadline ≤ w.sen.clock then w.endForced
  else if w.drawBool.1 then w.drawBool.2.endForced else w.drawBool.2

/-- The time bound of the first sample after Normal was entered has elapsed (R200). -/
def firstSampleDue (firstBy : Option Nat) (clock : Nat) : Bool :=
  match firstBy with
  | some d => decide (d ≤ clock)
  | none => false

/-- Normal mode: samples appear at times the model draws, the first no later than its bound; between conversions the
sensor stands by for a time nothing fixes, so `busy` is a draw too (R200). -/
def World.advanceNormal (firstBy : Option Nat) (w : World) : World :=
  let d := w.draw.1
  let w1 := w.draw.2
  if firstSampleDue firstBy w.sen.clock || decide (d % 2 = 1) then
    { w1.newSample with sen := { w1.newSample.sen with activity := .normal (decide (d / 2 % 2 = 1)) none } }
  else
    { w1 with sen := { w1.sen with activity := .normal (firstBy.isSome || decide (d / 2 % 2 = 1)) firstBy } }

/-- What the conforming sensor's conversions may have done since the last transaction or wait (R199, R200). -/
def World.advance (w : World) : World :=
  match w.sen.activity with
  | .idle => w
  | .forced _ deadline => w.advanceForced deadline
  | .normal _ firstBy => w.advanceNormal firstBy

/-- The activity a number stands for: every activity is reached. -/
def activityOf (clock n : Nat) : Activity :=
  match n % 4 with
  | 0 => .idle
  | 1 => .forced (n / 4) (clock + n / 4)
  | 2 => .normal (decide (n / 4 % 2 = 1)) none
  | _ => .normal (decide (n / 4 % 2 = 1)) (some (clock + n / 8))

/-- Any byte in one register. -/
def World.drawRegister (a : Nat) (w : World) : World := w.draw.2.store a (BitVec.ofNat 8 w.draw.1)

/-- Any contents of the data registers and of `hum_eff`, and any conversion: what a mode write can change beside its own
register (R198, R199). -/
def World.drawConversion (w : World) : World :=
  let n := w.draw.1
  let w1 := w.draw.2
  { w1 with
    sen := { w1.sen with
      regs := w1.sen.regs.writeBytes Config.regData (bytesOf 8 n)
      humEff := BitVec.ofNat 3 (n / 256 ^ 8)
      activity := activityOf w1.sen.clock (n / 256 ^ 9) } }

/-- Any contents of the registers that can change, of `hum_eff` and of the conversion, as after a mode write in Normal until
the next soft reset (R198). The identity and the calibration bytes of a conforming sensor read the same at every read (R32,
R34, R195; log entry 9). -/
def World.scramble (w : World) : World :=
  (((w.drawRegister Config.regCtrlHum).drawRegister Config.regCtrlMeas).drawRegister Config.regConfig).drawConversion

/-- Any contents whatever of all 256 registers, of `hum_eff` and of the conversion: nothing is known of a sensor that is
not assumed to conform (R40). -/
def World.anyContents (w : World) : World :=
  let n := w.draw.1
  let rest := n / 256 ^ 256
  let w1 := w.draw.2
  { w1 with
    sen := { w1.sen with
      regs := Memory.ofBytes 0 (bytesOf 256 n)
      humEff := BitVec.ofNat 3 rest
      activity := activityOf w1.sen.clock (rest / 8) } }

/-- What the sensor does by itself up to the next transaction. -/
def World.evolve (w : World) : World :=
  if w.sen.conforming then (if w.sen.wild then w.scramble else w.advance) else w.anyContents

/-! ## Reads -/

/-- A READ of `n` bytes at `a` (R190, R191): the sensor evolves, the oracle gives the outcome, and a conforming, settled
sensor's bytes are its registers; of any other sensor they are the oracle's. -/
def World.readBurst (a n : Nat) (w : World) : Reply × World :=
  let w1 := w.evolve
  match w1.outcome n with
  | (.error, w2) => (.error, w2)
  | (.ok bytes, w2) => (.ok (if w2.sen.answers then w2.sen.burst a n else bytes), w2)

/-- Bytes taken from `new` where the bit of `mask` is 1 and from `old` where it is 0. -/
def mixBytes : Nat → List Byte → List Byte → List Byte
  | mask, o :: os, n :: ns => (if mask % 2 = 1 then n else o) :: mixBytes (mask / 2) os ns
  | _, _, _ => []

/-- RD_DATA's READ (R203). A conversion that is still running may end inside the burst, and whether one burst can mix
bytes of two conversions is not in the source (R57): which bytes are new is then a draw. -/
def World.readData (w : World) : Reply × World :=
  let w1 := w.evolve
  match w1.outcome Config.lenData with
  | (.error, w2) => (.error, w2)
  | (.ok bytes, w2) =>
    if w2.sen.answers then
      match w2.sen.activity with
      | .idle => (.ok w2.sen.data, w2)
      | .forced _ _ | .normal _ _ =>
        let w3 := w2.advance
        (.ok (mixBytes w3.draw.1 w2.sen.data w3.sen.data), w3.draw.2)
    else (.ok bytes, w2)

/-! ## Writes -/

/-- The soft reset of a conforming sensor (R194); another byte written to 0xE0 has no effect (R33). -/
def World.softReset (v : Byte) (w : World) : World :=
  if v = Config.softResetCmd then
    let regs1 := w.sen.regs.write Config.regCtrlHum 0
    let regs2 := regs1.write Config.regCtrlMeas 0
    let regs3 := regs2.write Config.regConfig 0
    let regs4 := regs3.writeBytes Config.regData [0x80, 0, 0, 0x80, 0, 0, 0x80, 0]
    { w with
      sen := { w.sen with
        regs := regs4
        humEff := 0
        activity := .idle
        settleAt := w.sen.clock + Config.tResetMs * Config.ticksPerMs
        wild := false } }
  else w

/-- The write of `ctrl_hum`: the byte is stored, `hum_eff` does not change (R197). -/
def World.storeCtrlHum (v : Byte) (w : World) : World := w.store Config.regCtrlHum v

/-- The write of `config`: stored in Sleep, stored or ignored (a draw) otherwise (R201). -/
def World.storeConfig (v : Byte) (w : World) : World :=
  if w.sen.asleep then w.store Config.regConfig v
  else if w.drawBool.1 then w.drawBool.2.store Config.regConfig v else w.drawBool.2

/-- The worst-case time of a conversion started with the mode write `v` and the humidity code in use (R152, R198). -/
def modeWriteTicks (v : Byte) (humEff : Code) : Nat := ticksOfCodes (byteField v 5 3) (byteField v 2 3) humEff

/-- The conversion an idle sensor starts on a mode write `v`, with time bound `bound` (R198). -/
def startedActivity (v : Byte) (bound clock : Nat) : Activity :=
  match decodeMode (modeBits v) with
  | .sleep => .idle
  | .forced => .forced bound (clock + bound)
  | .normal => .normal true (some (clock + bound))

/-- `sen.ctrl_meas <- v; sen.hum_eff <- sen.ctrl_hum[2:0]`, the part of the mode write common to every case (R198). -/
def World.latchModeWrite (v : Byte) (w : World) : World :=
  { w with
    sen := { w.sen with
      regs := w.sen.regs.write Config.regCtrlMeas v
      humEff := byteField w.sen.ctrlHum 0 3 } }

/-- The mode write (R198). On an idle sensor in Sleep it starts what `v` asks for. During a forced conversion a draw
decides whether that conversion goes on or is replaced, with the larger of the two bounds from now on (R199). In Normal,
register and data contents are any from then on. -/
def World.storeCtrlMeas (v : Byte) (w : World) : World :=
  let w1 := w.latchModeWrite v
  let clock := w.sen.clock
  let bound := modeWriteTicks v w1.sen.humEff
  if w.sen.asleep then { w1 with sen := { w1.sen with activity := startedActivity v bound clock } }
  else
    match w.sen.activity with
    | .forced bound0 _ =>
      let bound' := max bound0 bound
      if w1.drawBool.1 then
        { w1.drawBool.2 with sen := { w1.drawBool.2.sen with activity := startedActivity v bound' clock } }
      else
        { w1.drawBool.2 with sen := { w1.drawBool.2.sen with activity := .forced bound' (clock + bound') } }
    | .idle | .normal _ _ => { w1 with sen := { w1.sen with wild := true } }

/-- Whether a write to the register at `a` took effect. An Ok write to a settled sensor did. So did an Ok write to the
reset register of any sensor: the reset is accepted in every sensor mode (R194), and a command that resets brings the sensor
back to a known state whatever came before (R265), after a reset write too that failed and yet took effect, which no wait
follows (R130; DEDUCED, log entry 29). Whether a failed write did is a draw (R205), and so is whether any other write within
2 ms of a soft reset did (R194; log entry 10). -/
def World.tookEffect (a : Nat) (r : Reply) (w : World) : Bool × World :=
  match r with
  | .ok _ => if a = Config.regReset ∨ w.sen.settled = true then (true, w) else w.drawBool
  | .error => w.drawBool

/-- A WRITE of one byte to the register at `a` (R190, R192, R205): the sensor evolves, the oracle gives the outcome, and a
conforming sensor has the register effect if the write took effect. -/
def World.writeByte (a : Nat) (effect : World → World) (w : World) : Reply × World :=
  let w1 := w.evolve
  let o := w1.outcome 0
  if o.2.sen.conforming then
    let t := o.2.tookEffect a o.1
    (o.1, if t.1 then effect t.2 else t.2)
  else o

/-! ## Waits -/

/-- `Wait(ms)`: sensor time advances by `WAIT_ACTUAL(ms) >= ms`, the excess a draw, and the sensor goes on (R204). -/
def World.wait (ms : Nat) (w : World) : World :=
  let w1 := w.delay.2
  World.evolve { w1 with sen := { w1.sen with clock := w1.sen.clock + (ms * Config.ticksPerMs + w.delay.1) } }

end Sys2Proof.Machine
end

