-- ==== Sys2Proof/Machine/BusPort.lean ====
section
/-! DEFINITION. The micro-operations (`30_encoding.md` R76 to R79, `45_bus_port.md` R193 to R204): the transaction
each makes, and the meaning of each micro-operation word. -/

namespace Sys2Proof.Machine

/-- The micro-operations the block issues (R77, R78). -/
inductive MicroOp where
  | rdId
  | wrReset
  | rdCalibTp
  | rdCalibH
  | rdCtrlHum
  | wrCtrlHum
  | rdCtrlMeas
  | wrCtrlMeas
  | rdConfig
  | wrConfig
  | rdData
  | wait (ms : Nat)
deriving DecidableEq, Repr

/-- The instruction of a micro-operation. -/
def MicroOp.instr : MicroOp → Instr
  | .rdId => .rdId
  | .wrReset => .wrReset
  | .rdCalibTp => .rdCalibTp
  | .rdCalibH => .rdCalibH
  | .rdCtrlHum => .rdCtrlHum
  | .wrCtrlHum => .wrCtrlHum
  | .rdCtrlMeas => .rdCtrlMeas
  | .wrCtrlMeas => .wrCtrlMeas
  | .rdConfig => .rdConfig
  | .wrConfig => .wrConfig
  | .rdData => .rdData
  | .wait ms => .wait ms

/-- Its word (R77, R78). -/
def MicroOp.word (op : MicroOp) : Word := encode op.instr

/-- The data bytes a WRITE carries beside its word (R76). -/
def MicroOp.data (op : MicroOp) (wdata : Byte) : List Byte :=
  match op with
  | .wrReset | .wrCtrlHum | .wrCtrlMeas | .wrConfig => [wdata]
  | .rdId | .rdCalibTp | .rdCalibH | .rdCtrlHum | .rdCtrlMeas | .rdConfig | .rdData | .wait _ => []

/-- The transaction of each micro-operation: R193 to R204. -/
def transact (op : MicroOp) (wdata : Byte) (w : World) : Reply × World :=
  match op with
  | .rdId => w.readBurst Config.regId 1
  | .wrReset => w.writeByte Config.regReset (World.softReset wdata)
  | .rdCalibTp => w.readBurst Config.regCalibTp Config.lenCalibTp
  | .rdCalibH => w.readBurst Config.regCalibH Config.lenCalibH
  | .rdCtrlHum => w.readBurst Config.regCtrlHum 1
  | .wrCtrlHum => w.writeByte Config.regCtrlHum (World.storeCtrlHum wdata)
  | .rdCtrlMeas => w.readBurst Config.regCtrlMeas 1
  | .wrCtrlMeas => w.writeByte Config.regCtrlMeas (World.storeCtrlMeas wdata)
  | .rdConfig => w.readBurst Config.regConfig 1
  | .wrConfig => w.writeByte Config.regConfig (World.storeConfig wdata)
  | .rdData => w.readData
  | .wait ms => (.ok [], w.wait ms)

/-- What a command that has failed leaves open of the registers this micro-operation may have touched: whatever a WRITE of
it can change becomes a draw, and a READ or a WAIT touches nothing (R227 and R265, "indeterminate";
`93_implementation_defined.md` U1). The effect the WRITE had is among the values drawn (R205). -/
def MicroOp.unsettle (op : MicroOp) (w : World) : World :=
  match op with
  | .wrReset => w.scramble
  | .wrCtrlHum => w.drawRegister Config.regCtrlHum
  | .wrCtrlMeas => (w.drawRegister Config.regCtrlMeas).drawConversion
  | .wrConfig => w.drawRegister Config.regConfig
  | .rdId | .rdCalibTp | .rdCalibH | .rdCtrlHum | .rdCtrlMeas | .rdConfig | .rdData | .wait _ => w

/-- The sensor after a failed command that had issued these micro-operations (U1). -/
def World.unsettled (ops : List MicroOp) (w : World) : World := ops.foldl (fun w op => op.unsettle w) w

/-- The micro-operation on the port is performed: the word leaves the port, the outcome is latched, and the trace grows
by one line (R61, R190, R238). -/
def perform (op : MicroOp) (s : State) : State :=
  let t := transact op s.port.wdata s.world
  { s with
    port := { s.port with uop := none, reply := some t.1 }
    trace := s.trace ++ [⟨op.word, op.data s.port.wdata, t.1⟩]
    world := t.2 }

/-- RD_ID (R193). -/
def execRdId (s : State) : Host.Outcome State Fault Refusal := .next (perform .rdId s)
/-- WR_RESET (R194). -/
def execWrReset (s : State) : Host.Outcome State Fault Refusal := .next (perform .wrReset s)
/-- RD_CALIB_TP (R195). -/
def execRdCalibTp (s : State) : Host.Outcome State Fault Refusal := .next (perform .rdCalibTp s)
/-- RD_CALIB_H (R196). -/
def execRdCalibH (s : State) : Host.Outcome State Fault Refusal := .next (perform .rdCalibH s)
/-- RD_CTRL_HUM (R197). -/
def execRdCtrlHum (s : State) : Host.Outcome State Fault Refusal := .next (perform .rdCtrlHum s)
/-- WR_CTRL_HUM (R197). -/
def execWrCtrlHum (s : State) : Host.Outcome State Fault Refusal := .next (perform .wrCtrlHum s)
/-- RD_CTRL_MEAS (R202). -/
def execRdCtrlMeas (s : State) : Host.Outcome State Fault Refusal := .next (perform .rdCtrlMeas s)
/-- WR_CTRL_MEAS (R198). -/
def execWrCtrlMeas (s : State) : Host.Outcome State Fault Refusal := .next (perform .wrCtrlMeas s)
/-- RD_CONFIG (R202). -/
def execRdConfig (s : State) : Host.Outcome State Fault Refusal := .next (perform .rdConfig s)
/-- WR_CONFIG (R201). -/
def execWrConfig (s : State) : Host.Outcome State Fault Refusal := .next (perform .wrConfig s)
/-- RD_DATA (R203). -/
def execRdData (s : State) : Host.Outcome State Fault Refusal := .next (perform .rdData s)
/-- WAIT (R204): it cannot fail. -/
def execWait (ms : Nat) (s : State) : Host.Outcome State Fault Refusal := .next (perform (.wait ms) s)

end Sys2Proof.Machine
end

