-- ==== Sys2Proof/Machine/Compensation.lean ====
section
/-! DEFINITION. The fixed-point compensation pipeline (`44_compensation.md` R170 to R185): each stage is the spec's
pseudocode over integers, none as soon as an operation leaves the stage's width, and then the results are draws in the
clamp range (R171). -/

namespace Sys2Proof.Machine

/-- `compT` (R172, R173) at width 32: `(T_out, t_fine)`, none on an overflow (R171). -/
def compT (adcT : Int) (c : CalibrationData) : Option (Int × Int) := do
  let var1 ← subW 32 (← divW 32 adcT 8) (← mulW 32 c.t1.toNat 2)
  let var1 ← divW 32 (← mulW 32 var1 c.t2.toInt) 2048
  let var2 ← subW 32 (← divW 32 adcT 16) c.t1.toNat
  let var2 ← divW 32 (← mulW 32 (← divW 32 (← mulW 32 var2 var2) 4096) c.t3.toInt) 16384
  let tFine ← addW 32 var1 var2
  let t ← divW 32 (← addW 32 (← mulW 32 tFine 5) 128) 256
  some (clamp t Config.tMin Config.tMax, tFine)

/-- `clampP` (R176): a pressure outside u32 is an overflow. -/
def clampP (p : Int) : Option Int := if fitsU 32 p then some (clamp p Config.pMin Config.pMax) else none

/-- `compP` (R174 to R176) at width 64, none on an overflow (R171). A denominator of exactly 0 gives `P_MIN` (R175). -/
def compP (adcP tFine : Int) (c : CalibrationData) : Option Int := do
  let var1 ← subW 64 tFine 128000
  let var2 ← mulW 64 (← mulW 64 var1 var1) c.p6.toInt
  let var2 ← addW 64 var2 (← mulW 64 (← mulW 64 var1 c.p5.toInt) 131072)
  let var2 ← addW 64 var2 (← mulW 64 c.p4.toInt 34359738368)
  let var1 ← addW 64 (← divW 64 (← mulW 64 (← mulW 64 var1 var1) c.p3.toInt) 256)
    (← mulW 64 (← mulW 64 var1 c.p2.toInt) 4096)
  let var3 : Int := 140737488355328
  let var1 ← divW 64 (← mulW 64 (← addW 64 var3 var1) c.p1.toNat) 8589934592
  if var1 = 0 then some Config.pMin
  else do
    let var4 ← subW 64 1048576 adcP
    let var4 ← divW 64 (← mulW 64 (← subW 64 (← mulW 64 var4 2147483648) var2) 3125) var1
    let var1 ← divW 64 (← mulW 64 (← mulW 64 c.p9.toInt (← divW 64 var4 8192)) (← divW 64 var4 8192)) 33554432
    let var2 ← divW 64 (← mulW 64 c.p8.toInt var4) 524288
    let var4 ← addW 64 (← divW 64 (← addW 64 (← addW 64 var4 var1) var2) 256) (← mulW 64 c.p7.toInt 16)
    let p ← divW 64 (← mulW 64 (← divW 64 var4 2) 100) 128
    clampP p

/-- `compH` (R177, R178) at width 32, none on an overflow (R171). -/
def compH (adcH tFine : Int) (c : CalibrationData) : Option Int := do
  let var1 ← subW 32 tFine 76800
  let var2 ← mulW 32 adcH 16384
  let var3 ← mulW 32 c.h4.toInt 1048576
  let var4 ← mulW 32 c.h5.toInt var1
  let var5 ← divW 32 (← addW 32 (← subW 32 (← subW 32 var2 var3) var4) 16384) 32768
  let var2 ← divW 32 (← mulW 32 var1 c.h6.toInt) 1024
  let var3 ← divW 32 (← mulW 32 var1 c.h3.toNat) 2048
  let var4 ← addW 32 (← divW 32 (← mulW 32 var2 (← addW 32 var3 32768)) 1024) 2097152
  let var2 ← divW 32 (← addW 32 (← mulW 32 var4 c.h2.toInt) 8192) 16384
  let var3 ← mulW 32 var5 var2
  let var4 ← divW 32 (← mulW 32 (← divW 32 var3 32768) (← divW 32 var3 32768)) 128
  let var5 ← subW 32 var3 (← divW 32 (← mulW 32 var4 c.h1.toNat) 16)
  let h ← divW 32 (clamp var5 0 Config.hVarMax) 4096
  some (min h Config.hMax)

/-- The temperature stage: the computed pair, or two draws (R171). -/
def stageT (adcT : Nat) (c : CalibrationData) (w : World) : (Int × Int) × World :=
  match compT adcT c with
  | some r => (r, w)
  | none =>
    let t := w.drawInt Config.tMin Config.tMax
    let f := t.2.drawInt (-2147483648) 2147483647
    ((t.1, f.1), f.2)

/-- The pressure stage: the computed value, or a draw (R171). -/
def stageP (adcP : Nat) (tFine : Int) (c : CalibrationData) (w : World) : Int × World :=
  match compP adcP tFine c with
  | some p => (p, w)
  | none => w.drawInt Config.pMin Config.pMax

/-- The humidity stage: the computed value, or a draw (R171). -/
def stageH (adcH : Nat) (tFine : Int) (c : CalibrationData) (w : World) : Int × World :=
  match compH adcH tFine c with
  | some h => (h, w)
  | none => w.drawInt 0 Config.hMax

/-- The pipeline of R170: temperature first, then pressure and humidity with the `t_fine` of the same sample (R158,
R181). -/
def compensate (raw : RawSample) (c : CalibrationData) (w : World) : Payload × World :=
  let t := stageT raw.adcT c w
  let p := stageP raw.adcP t.1.2 c t.2
  let h := stageH raw.adcH t.1.2 c p.2
  (.measurement (BitVec.ofInt 32 t.1.1) (BitVec.ofInt 32 p.1) (BitVec.ofInt 32 h.1), h.2)

end Sys2Proof.Machine
end

