-- ==== Sys2Proof/Machine/Sequence.lean ====
section
/-! DEFINITION. The sequencer (`10_state.md` R27, `20_memory.md` R61): a command is a fixed sequence of
micro-operations written as pseudocode (`00_scope.md` R10), and running it issues them one at a time, each complete before
the next. `Prog.run` runs a command to its end; `resume` continues a running command by one answered micro-operation. -/

namespace Sys2Proof.Machine

/-- A write to `ctl` in a command's pseudocode. -/
inductive CtlWrite where
  | initialized (b : Bool)
  | mode (m : Mode)
  | calib (c : CalibrationData)
deriving DecidableEq, Repr

/-- How a command's pseudocode ends: `return v`, `raise E`, or READ's compensation of a data burst with the coefficients
held. -/
inductive Ending where
  | ok (p : Payload)
  | error (e : Status) (failing : Option Word)
  | compensate (c : CalibrationData) (d : List Byte)
deriving DecidableEq, Repr

/-- A command's pseudocode: writes to `ctl`, micro-operations whose answers it waits for, and an end. -/
inductive Prog where
  | done (e : Ending)
  | write (c : CtlWrite) (next : Prog)
  | uop (op : MicroOp) (wdata : Byte) (k : Reply → Prog)

/-- `ctl.f <- v` (R10). -/
def State.writeCtl (s : State) : CtlWrite → State
  | .initialized b => { s with ctl := { s.ctl with initialized := b } }
  | .mode m => { s with ctl := { s.ctl with mode := m } }
  | .calib c => { s with ctl := { s.ctl with calib := some c } }

/-- What is left of a pseudocode once its first micro-operations have been answered. -/
def Prog.after : Prog → List Reply → Prog
  | .write _ next, rs => Prog.after next rs
  | .uop _ _ k, r :: rs => Prog.after (k r) rs
  | .uop op wdata k, [] => .uop op wdata k
  | .done e, _ => .done e

/-- The micro-operations a pseudocode has issued once its first ones have been answered so. -/
def Prog.issued : Prog → List Reply → List MicroOp
  | .write _ next, rs => Prog.issued next rs
  | .uop op _ k, r :: rs => op :: Prog.issued (k r) rs
  | .uop _ _ _, [] => []
  | .done _, _ => []

/-! ## The primitives of R10 and the macros of R87 -/

/-- `b <- try MemRead(a, n)`: a failed read ends the command with `BusError` (R10, R226). R76 gives data bytes to a WRITE
only; the port's data byte beside a READ or a WAIT is 0x00 and stays until the next micro-operation (DESIGN CHOICE, log
entry 27). -/
def rd (op : MicroOp) (k : List Byte → Prog) : Prog :=
  .uop op 0 fun r =>
    match r with
    | .ok bytes => k bytes
    | .error => .done (.error .busError (some op.word))

/-- `[x] <- try MemRead(a, 1)`. -/
def rd1 (op : MicroOp) (k : Byte → Prog) : Prog := rd op fun b => k (byteAt b 0)

/-- `try MemWrite(a, 1, [v])` (R10, R226). -/
def wr (op : MicroOp) (v : Byte) (next : Prog) : Prog :=
  .uop op v fun r =>
    match r with
    | .ok _ => next
    | .error => .done (.error .busError (some op.word))

/-- `Wait(ms)`: it cannot fail (R10, R204). The byte beside its word is 0x00 (DESIGN CHOICE, log entry 27). -/
def waitMs (ms : Nat) (next : Prog) : Prog := .uop (.wait ms) 0 fun _ => next

/-- `try RMW(a, mask, v)` (R115): read, then write back with the bits of `mask` replaced. -/
def rmw (rdOp wrOp : MicroOp) (mask v : Byte) (next : Prog) : Prog :=
  rd1 rdOp fun x => wr wrOp (rmwByte x mask v) next

/-- `try WRITE_HUM(s)` (R116). -/
def writeHum (st : Settings) (next : Prog) : Prog := rmw .rdCtrlHum .wrCtrlHum 0x07 (humBits st) next

/-- `try WRITE_MEAS_CONFIG(s)` (R117). -/
def writeMeasConfig (st : Settings) (next : Prog) : Prog :=
  rmw .rdCtrlMeas .wrCtrlMeas 0xFC (measBits st)
    (rmw .rdConfig .wrConfig 0xFC (configBits st) next)

/-- `(s, xh, xm, xc) <- try READ_SETTINGS` (R119), of which the callers use `s` and `xh`. -/
def readSettings (k : Settings → Byte → Prog) : Prog :=
  rd1 .rdCtrlHum fun xh => rd1 .rdCtrlMeas fun xm => rd1 .rdConfig fun xc => k (decodeSettings xh xm xc) xh

/-- `try SOFT_RESET` (R130). -/
def softReset (next : Prog) : Prog := wr .wrReset Config.softResetCmd (waitMs Config.tResetMs next)

/-- `c <- try LOAD_CALIB` (R100). -/
def loadCalib (k : CalibrationData → Prog) : Prog :=
  rd .rdCalibTp fun tp => rd .rdCalibH fun h => k (parseCalib tp h)

/-- `try SLEEP_BODY` (R136), with `ctl.mode <- Sleep` at its end. -/
def sleepBody (next : Prog) : Prog :=
  readSettings fun st _ => softReset (writeHum st (writeMeasConfig st (.write (.mode .sleep) next)))

/-- `if decodeMode(xm[1:0]) != Sleep: try SLEEP_BODY` (R133, R134). -/
def sleepFirst (xm : Byte) (next : Prog) : Prog :=
  if decodeMode (modeBits xm) = .sleep then next else sleepBody next

/-- The identity poll with `n` attempts left (R131, R132): a match ends it; after the last attempt the last answer
decides the error. -/
def pollId : Nat → Prog → Prog
  | 0, _ => .done (.error .identityMismatchError none)
  | n + 1, next =>
    .uop .rdId 0 fun r =>
      if r = .ok [Config.chipId] then next
      else if n = 0 then
        match r with
        | .error => .done (.error .busError (some MicroOp.rdId.word))
        | .ok _ => .done (.error .identityMismatchError none)
      else pollId n next

/-- FORCE_BODY after its guard (R151). -/
def forceBody (next : Prog) : Prog :=
  readSettings fun st xh =>
    wr .wrCtrlHum ((xh &&& 0xF8) ||| humBits st)
      (wr .wrCtrlMeas (ctrlMeasForced st) (waitMs (measWaitMs st) next))

/-! ## The commands' pseudocode -/

/-- INIT (R131). -/
def initProg : Prog :=
  .write (.initialized false) <| pollId Config.idAttempts <| softReset <| loadCalib fun c =>
    .write (.calib c) <| waitMs Config.tCalibMs <| .write (.mode .sleep) <| .write (.initialized true) <|
      .done (.ok .none)

/-- SET_SETTINGS (R133). -/
def setSettingsProg (st : Settings) : Prog :=
  rd1 .rdCtrlMeas fun xm => sleepFirst xm <| writeHum st <| writeMeasConfig st <| .done (.ok .none)

/-- SET_MODE (R134, R135). -/
def setModeProg (m : Mode) : Prog :=
  rd1 .rdCtrlMeas fun xm => sleepFirst xm <|
    rmw .rdCtrlMeas .wrCtrlMeas 0x03 ((0 : BitVec 6) ++ encodeMode m) <|
      .write (.mode m) <| .done (.ok .none)

/-- SLEEP (R136). -/
def sleepProg : Prog := sleepBody (.done (.ok .none))

/-- GET_MODE (R137). -/
def getModeProg : Prog := rd1 .rdCtrlMeas fun xm => .done (.ok (.mode (decodeMode (modeBits xm))))

/-- GET_SETTINGS (R138). -/
def getSettingsProg : Prog := readSettings fun st _ => .done (.ok (.settings st))

/-- FORCE_MEASUREMENT once its guard has passed (R151). -/
def forceProg : Prog := forceBody (.done (.ok .none))

/-- READ once its precondition has passed; `trigger` says whether `ctl.mode = Forced`, and `c` are the coefficients of
`ctl.calib` (R155). -/
def readProg (trigger : Bool) (c : CalibrationData) : Prog :=
  if trigger then forceBody (rd .rdData fun d => .done (.compensate c d))
  else rd .rdData fun d => .done (.compensate c d)

/-- The pseudocode of a running command (R2, R27). -/
def Job.program : Job → Prog
  | .init => initProg
  | .setSettings st => setSettingsProg st
  | .setMode m => setModeProg m
  | .sleep => sleepProg
  | .getMode => getModeProg
  | .getSettings => getSettingsProg
  | .force => forceProg
  | .read trigger c => readProg trigger c

/-! ## Running -/

/-- The end of a command that has issued these micro-operations (R10, R155, R254). After an error the registers it may
have touched are a draw (R227, U1). -/
def finishWith (ops : List MicroOp) (e : Ending) (s : State) : State :=
  match e with
  | .ok p => s.finishOk p
  | .error st failing => { s with world := s.world.unsettled ops }.raise st failing
  | .compensate c d =>
    let r := compensate (unpackRaw d) c s.world
    { s with world := r.2 }.finishOk r.1

/-- A command run to its end: the blocking call of R61. Before each micro-operation `ctl.seq` is `Busy` with the answers
so far (R27). -/
def Prog.run (job : Job) : Prog → List Reply → State → State
  | .done e, rs, s => finishWith (job.program.issued rs) e s
  | .write c next, rs, s => Prog.run job next rs (s.writeCtl c)
  | .uop op wdata k, rs, s =>
    let s1 := perform op (s.issue job rs op.word wdata)
    Prog.run job (k s1.lastReply) (rs ++ [s1.lastReply]) s1

/-- The pseudocode up to its next micro-operation, which is put on the port, or to its end. -/
def Prog.enter (job : Job) : Prog → List Reply → State → State
  | .done e, rs, s => finishWith (job.program.issued rs) e s
  | .write c next, rs, s => Prog.enter job next rs (s.writeCtl c)
  | .uop op wdata _, rs, s => s.issue job rs op.word wdata

/-- A command presented on the command port: refused while another runs (R225), else run to its end (R61). -/
def runCommand (job : Job) (s : State) : Host.Outcome State Fault Refusal :=
  match s.ctl.seq with
  | .busy _ _ => .next s.refuse
  | .idle => .next (Prog.run job job.program [] s)

/-- A command that its own precondition ends before any micro-operation (R228): refused while another runs (R225). -/
def rejectCommand (e : Status) (s : State) : Host.Outcome State Fault Refusal :=
  match s.ctl.seq with
  | .busy _ _ => .next s.refuse
  | .idle => .next (s.raise e none)

/-- The sequencer takes the answer of the micro-operation just performed (R27, R61): an idle sequencer takes nothing, a
busy one goes on to its command's next micro-operation or to its end. -/
def resume (s : State) : Host.Outcome State Fault Refusal :=
  match s.ctl.seq with
  | .idle => .next s
  | .busy job rs =>
    match job.program.after rs with
    | .uop _ _ k => .next (Prog.enter job (k s.lastReply) (rs ++ [s.lastReply]) s)
    | .done _ | .write _ _ => .fault .sequencerLost

end Sys2Proof.Machine
end

