-- ==== Sys2Proof/Machine/ModeController.lean ====
section
/-! DEFINITION. The mode controller's commands INIT, SET_SETTINGS, SET_MODE, SLEEP, GET_MODE and GET_SETTINGS
(`42_mode_controller.md` R131 to R138). Only READ and FORCE_MEASUREMENT have a precondition (R228, R233). -/

namespace Sys2Proof.Machine

/-- INIT (R131, R132). -/
def execInit (s : State) : Host.Outcome State Fault Refusal := runCommand .init s
/-- SET_SETTINGS (R133). -/
def execSetSettings (st : Settings) (s : State) : Host.Outcome State Fault Refusal := runCommand (.setSettings st) s
/-- SET_MODE sleep (R134). -/
def execSetModeSleep (s : State) : Host.Outcome State Fault Refusal := runCommand (.setMode .sleep) s
/-- SET_MODE forced (R134). -/
def execSetModeForced (s : State) : Host.Outcome State Fault Refusal := runCommand (.setMode .forced) s
/-- SET_MODE normal (R134). -/
def execSetModeNormal (s : State) : Host.Outcome State Fault Refusal := runCommand (.setMode .normal) s
/-- SLEEP (R136). -/
def execSleep (s : State) : Host.Outcome State Fault Refusal := runCommand .sleep s
/-- GET_MODE (R137). -/
def execGetMode (s : State) : Host.Outcome State Fault Refusal := runCommand .getMode s
/-- GET_SETTINGS (R138). -/
def execGetSettings (s : State) : Host.Outcome State Fault Refusal := runCommand .getSettings s

end Sys2Proof.Machine
end

