-- ==== Sys2Proof/Machine/Reader.lean ====
section
/-! DEFINITION. The measurement reader's commands FORCE_MEASUREMENT and READ (`43_measurement_reader.md` R151 to
R156). -/

namespace Sys2Proof.Machine

/-- FORCE_MEASUREMENT (R151): in Normal it ends with `InvalidStateError` before any bus operation (R154, R224). -/
def execForceMeasurement (s : State) : Host.Outcome State Fault Refusal :=
  if s.ctl.mode = .normal then rejectCommand .invalidStateError s else runCommand .force s

/-- READ (R155): without a successful INIT it ends with `UninitializedError` before any bus operation (R223); it triggers a
measurement only in Forced (R156). The coefficients are those of `ctl.calib`, which R24 says are there; without them the
machine stops. -/
def execRead (s : State) : Host.Outcome State Fault Refusal :=
  if s.ctl.initialized then
    match s.ctl.calib with
    | some c => runCommand (.read (decide (s.ctl.mode = .forced)) c) s
    | none =>
      match s.ctl.seq with
      | .busy _ _ => .next s.refuse
      | .idle => .fault .calibrationMissing
  else rejectCommand .uninitializedError s

end Sys2Proof.Machine
end

