-- ==== Sys2Proof/Machine/Dispatch.lean ====
section
/-! DEFINITION. The meaning of every instruction, one arm per row of spec/opcode_table.json. -/

namespace Sys2Proof.Machine

def exec (i : Instr) (s : State) : Host.Outcome State Fault Refusal :=
  match i with
  | .init => Sys2Proof.Machine.execInit s
  | .setSettings st => Sys2Proof.Machine.execSetSettings st s
  | .setModeSleep => Sys2Proof.Machine.execSetModeSleep s
  | .setModeForced => Sys2Proof.Machine.execSetModeForced s
  | .setModeNormal => Sys2Proof.Machine.execSetModeNormal s
  | .sleep => Sys2Proof.Machine.execSleep s
  | .getMode => Sys2Proof.Machine.execGetMode s
  | .getSettings => Sys2Proof.Machine.execGetSettings s
  | .forceMeasurement => Sys2Proof.Machine.execForceMeasurement s
  | .read => Sys2Proof.Machine.execRead s
  | .rdId => Sys2Proof.Machine.execRdId s
  | .wrReset => Sys2Proof.Machine.execWrReset s
  | .rdCalibTp => Sys2Proof.Machine.execRdCalibTp s
  | .rdCalibH => Sys2Proof.Machine.execRdCalibH s
  | .rdCtrlHum => Sys2Proof.Machine.execRdCtrlHum s
  | .wrCtrlHum => Sys2Proof.Machine.execWrCtrlHum s
  | .rdCtrlMeas => Sys2Proof.Machine.execRdCtrlMeas s
  | .wrCtrlMeas => Sys2Proof.Machine.execWrCtrlMeas s
  | .rdConfig => Sys2Proof.Machine.execRdConfig s
  | .wrConfig => Sys2Proof.Machine.execWrConfig s
  | .rdData => Sys2Proof.Machine.execRdData s
  | .wait ms => Sys2Proof.Machine.execWait ms s

end Sys2Proof.Machine
end

