-- ==== Sys2Proof/Machine/Step.lean ====
section
/-! DEFINITION. One step of the machine. Between two commands a step is one whole command, the blocking call of
`20_memory.md` R61; a micro-operation on the bus port is one step, after which the sequencer goes on with its command
(`10_state.md` R27). `begin` is the finer start of a command: it only puts the first micro-operation on the port. -/

namespace Sys2Proof.Machine

/-- A word on the command port: a reserved word is refused (R74, R225), any other runs. -/
def stepCommand (w : Word) (s : State) : Host.Outcome State Fault Refusal :=
  match decode .command w with
  | .ok i => exec i s
  | .error _ => .next s.refuse

/-- A word on the bus-master or delay port is performed, and the sequencer takes its answer (R61). A reserved word, which
the block never issues, has no meaning (R79). -/
def stepMicroOp (w : Word) (s : State) : Host.Outcome State Fault Refusal :=
  match decode .microOp w with
  | .ok i =>
    match exec i s with
    | .next s1 => resume s1
    | .fault f => .fault f
    | .refused r => .refused r
  | .error _ => .refused (.reservedMicroOp w)

/-- One step. With nothing to do the block waits for its next command (R250). -/
def step (s : State) : Host.Outcome State Fault Refusal :=
  match fetch s with
  | .command w s1 => stepCommand w s1
  | .microOp w s1 => stepMicroOp w s1
  | .nothing => .next s
  | .lost => .fault .sequencerLost

/-- An idle block starts a command and stops at its first micro-operation, which is then on the port with `ctl.seq`
Busy (R27): the start of a command seen micro-operation by micro-operation. -/
def begin (job : Job) (s : State) : State := Prog.enter job job.program [] s

/-- `s` with an instruction word put where the next step takes it: a legal command word on the command port of an idle
block, a micro-operation word on its bus port, with the reset command beside WR_RESET (R194), and any other word on the
command port, where it is refused. The command port holds no other word and no micro-operation waits. -/
def State.withFetchWord (s : State) (nbits w : Nat) : State :=
  let word : Word := BitVec.ofNat 32 (w % 2 ^ nbits)
  let s0 : State :=
    { s with
      ctl := { s.ctl with seq := .idle }
      host := { s.host with cmd := none }
      port := { s.port with uop := none } }
  match decode .command word, decode .microOp word with
  | .error _, .ok i =>
    { s0 with
      port := { s0.port with
        uop := some word
        wdata := if i = .wrReset then Config.softResetCmd else s0.port.wdata } }
  | _, _ => { s0 with host := { s0.host with cmd := some word } }

end Sys2Proof.Machine
end

