-- ==== Sys2Proof/Safety.lean ====
section
/-! DEFINITION. The terms claims use: exchanges on the bus, the named premises about the sensor and the oracle
(`10_state.md` R40), and the invariant of a safe run. -/

namespace Sys2Proof.Machine

/-! ## What a command sends and what comes back -/

/-- One micro-operation with the byte beside it and the answer it gets. -/
structure Exchange where
  op    : MicroOp
  wdata : Byte
  reply : Reply
deriving DecidableEq, Repr

/-- Its line of the trace. -/
def Exchange.entry (e : Exchange) : TraceEntry := ⟨e.op.word, e.op.data e.wdata, e.reply⟩

/-- A READ micro-operation answered with these bytes. -/
def Exchange.rd (op : MicroOp) (bytes : List Byte) : Exchange := ⟨op, 0, .ok bytes⟩
/-- A WRITE micro-operation of one byte, answered Ok. -/
def Exchange.wr (op : MicroOp) (v : Byte) : Exchange := ⟨op, v, .ok []⟩
/-- A wait. -/
def Exchange.wait (ms : Nat) : Exchange := ⟨.wait ms, 0, .ok []⟩

/-- The world gives exactly these answers to these micro-operations, and is then the returned world. -/
def follow : List Exchange → World → Option World
  | [], w => some w
  | e :: l, w => if (transact e.op e.wdata w).1 = e.reply then follow l (transact e.op e.wdata w).2 else none

/-- The bus port after a list of exchanges: no word on it, and the last exchange's byte and answer. -/
def portAfter : BusPort → List Exchange → BusPort
  | p, [] => { p with uop := none }
  | _, e :: l => portAfter ⟨none, e.wdata, some e.reply⟩ l

/-- A state after a list of exchanges has been made and the world has become `w`: nothing but the bus port, the trace and
the world differs. -/
def State.observed (s : State) (l : List Exchange) (w : World) : State :=
  { s with port := portAfter s.port l, trace := s.trace ++ l.map Exchange.entry, world := w }

/-- The same when the command then fails: the registers the exchanges may have touched are a draw (R227, U1; log entry
13). -/
def State.failed (s : State) (l : List Exchange) (w : World) : State := s.observed l (w.unsettled (l.map Exchange.op))

/-- READ_SETTINGS (R119) answered with `xh`, `xm`, `xc`. -/
def settingsRead (xh xm xc : Byte) : List Exchange :=
  [.rd .rdCtrlHum [xh], .rd .rdCtrlMeas [xm], .rd .rdConfig [xc]]

/-- The read-modify-write pairs of WRITE_HUM and WRITE_MEAS_CONFIG (R116, R117), whose reads answer `xh`, `xm`, `xc`. -/
def settingsWritten (st : Settings) (xh xm xc : Byte) : List Exchange :=
  [.rd .rdCtrlHum [xh], .wr .wrCtrlHum (rmwByte xh 0x07 (humBits st)),
   .rd .rdCtrlMeas [xm], .wr .wrCtrlMeas (rmwByte xm 0xFC (measBits st)),
   .rd .rdConfig [xc], .wr .wrConfig (rmwByte xc 0xFC (configBits st))]

/-- SOFT_RESET (R130) answered Ok. -/
def softResetDone : List Exchange := [.wr .wrReset 0xB6, .wait 2]

/-- SLEEP_BODY (R136): the settings read before the reset (`xh`, `xm`, `xc`) are written back over the bytes read after
it (`yh`, `ym`, `yc`). -/
def slept (xh xm xc yh ym yc : Byte) : List Exchange :=
  settingsRead xh xm xc ++ softResetDone ++ settingsWritten (decodeSettings xh xm xc) yh ym yc

/-- Reads of the identity register answered so (R131). -/
def polled (rs : List Reply) : List Exchange := rs.map fun r => ⟨.rdId, 0, r⟩

/-- INIT from the match on (R131): the matching read, SOFT_RESET, LOAD_CALIB answered `tp` and `h`, and the last wait. -/
def identified (tp h : List Byte) : List Exchange :=
  [.rd .rdId [0x60]] ++ softResetDone ++ [.rd .rdCalibTp tp, .rd .rdCalibH h, .wait 1]

/-- FORCE_BODY (R151) with READ_SETTINGS answered `xh`, `xm`, `xc`. -/
def forced (xh xm xc : Byte) : List Exchange :=
  settingsRead xh xm xc ++
    [.wr .wrCtrlHum ((xh &&& 0xF8) ||| humBits (decodeSettings xh xm xc)),
     .wr .wrCtrlMeas (ctrlMeasForced (decodeSettings xh xm xc)),
     .wait (measWaitMs (decodeSettings xh xm xc))]

/-! ## Premises -/

/-- The conforming-sensor premise of R40 for a sensor at rest: it conforms, its last soft reset has settled (R194), its
contents are known (R198) and no conversion runs (R39). -/
def Sensor.quiet (sen : Sensor) : Bool :=
  sen.conforming && !sen.wild && sen.settled && decide (sen.activity = .idle)

/-- The oracle does not fail the `k`-th coming transaction (R190). -/
def Env.okAt (e : Env) (k : Nat) : Bool :=
  match e.replies[k]? with
  | some r => decide (r ≠ .error)
  | none => !Config.busFails (e.nReplies + (k - e.replies.length))

/-- No bus error in the next `n` transactions. -/
def Env.okFor (e : Env) (n : Nat) : Prop := ∀ k, k < n → e.okAt k = true

/-- `d` is the `k`-th coming sample, counted from 0: as scripted, or a free value (R203; log entry 4). -/
def Env.sampleIs (e : Env) (k : Nat) (d : List Byte) : Prop :=
  match e.samples[k]? with
  | some b => d = fitBytes 8 b
  | none => ∃ n, d = bytesOf 8 (Config.freeNat n)

/-- The registers a sensor's own activity or a write of the block can change: `ctrl_hum`, `ctrl_meas`, `config` and the
data registers; the identity and the calibration bytes are read-only (R32, R34). -/
def changeable (a : Nat) : Bool :=
  decide (a = Config.regCtrlHum) || decide (a = Config.regCtrlMeas) || decide (a = Config.regConfig) ||
    (decide (Config.regData ≤ a) && decide (a < Config.regData + Config.lenData))

/-- The words of the micro-operations the block issues: the eleven of R77, and WAIT 1, 2 and `w` for `2 <= w <= 113`
(R78). -/
def issuedWord (w : Word) : Prop :=
  w ∈ ([0x400001D0, 0x000001E0, 0x40001A88, 0x400007E1, 0x400001F2, 0x000001F2, 0x400001F4, 0x000001F4,
        0x400001F5, 0x000001F5, 0x400008F7] : List Word) ∨
    ∃ ms : Nat, 1 ≤ ms ∧ ms ≤ 113 ∧ w = (0x80000000 : Word) ||| BitVec.ofNat 32 ms

/-! ## Micro-steps -/

/-- `n` steps, stopping at a fault or a refusal. -/
def drive : Nat → State → Host.Outcome State Fault Refusal
  | 0, s => .next s
  | n + 1, s =>
    match step s with
    | .next t => drive n t
    | .fault f => .fault f
    | .refused r => .refused r

/-! ## The invariant -/

/-- A pseudocode that sets `initialized` only with coefficients held; `b` says whether `ctl.calib` holds them now
(R24). -/
def Prog.Calibrated : Bool → Prog → Prop
  | _, .done _ => True
  | _, .write (.calib _) next => Prog.Calibrated true next
  | b, .write (.initialized v) next => (v = true → b = true) ∧ Prog.Calibrated b next
  | b, .write (.mode _) next => Prog.Calibrated b next
  | b, .uop _ _ k => ∀ r, Prog.Calibrated b (k r)

/-- The sequencer, when Busy, stands at a micro-operation of its command, that micro-operation is on the port, and what is
left of the command respects R24 (R27). -/
def State.SeqOk (s : State) : Prop :=
  match s.ctl.seq with
  | .idle => True
  | .busy job rs =>
    ∃ op v k, job.program.after rs = .uop op v k ∧ s.port.uop = some op.word ∧
      Prog.Calibrated s.ctl.calib.isSome (.uop op v k)

/-- The invariant: R24, the sequencer of R27, and the register memory in its canonical form. -/
structure State.Inv (s : State) : Prop where
  calibrated : s.ctl.initialized = true → s.ctl.calib.isSome = true
  seq        : s.SeqOk
  regs       : s.world.sen.regs.wf = true

end Sys2Proof.Machine
end

