-- ==== Sys2Proof/Certificates/Slice0/Obligations.lean ====
section
/-! DEFINITION. The statements for the provers. Each docstring names the rule of spec/ it formalises. -/

open Sys2Proof Sys2Proof.Machine

/-! ## Encoding -/

/-- Words written out from the encodings of R70 to R73, R77 and R78 (and the vectors V-COD-7): each decodes, on its own port,
to the instruction it stands for. -/
def Obligations.TableWordsDecode : Prop :=
  decode .command 0x10000000 = .ok .init ∧ decode .command 0x2000516D = .ok (.setSettings ⟨5, 0, 5, 5, 5⟩) ∧
  decode .command 0x200008A9 = .ok (.setSettings ⟨0, 4, 2, 5, 1⟩) ∧
  decode .command 0x30000000 = .ok .setModeSleep ∧ decode .command 0x30000001 = .ok .setModeForced ∧
  decode .command 0x30000003 = .ok .setModeNormal ∧ decode .command 0x40000000 = .ok .sleep ∧
  decode .command 0x50000000 = .ok .getMode ∧ decode .command 0x60000000 = .ok .getSettings ∧
  decode .command 0x70000000 = .ok .forceMeasurement ∧ decode .command 0x80000000 = .ok .read ∧
  decode .microOp 0x400001D0 = .ok .rdId ∧ decode .microOp 0x000001E0 = .ok .wrReset ∧
  decode .microOp 0x40001A88 = .ok .rdCalibTp ∧ decode .microOp 0x400007E1 = .ok .rdCalibH ∧
  decode .microOp 0x400001F2 = .ok .rdCtrlHum ∧ decode .microOp 0x000001F2 = .ok .wrCtrlHum ∧
  decode .microOp 0x400001F4 = .ok .rdCtrlMeas ∧ decode .microOp 0x000001F4 = .ok .wrCtrlMeas ∧
  decode .microOp 0x400001F5 = .ok .rdConfig ∧ decode .microOp 0x000001F5 = .ok .wrConfig ∧
  decode .microOp 0x400008F7 = .ok .rdData ∧ decode .microOp 0x80000002 = .ok (.wait 2) ∧
  decode .microOp 0x80000071 = .ok (.wait 113)

/-- Decoding the word of a well-formed instruction on its own port gives it back, every operand included (R70 to R73,
R76 to R78). -/
def Obligations.DecodeOfEncode : Prop :=
  ∀ i : Instr, i.wf = true → decode i.port (encode i) = .ok i

/-- A word that decodes is the word of the instruction it decodes to, which is well formed and of that port: each word has
one meaning on its port (R85). -/
def Obligations.EncodeOfDecode : Prop :=
  ∀ (p : PortKind) (w : Word) (i : Instr), decode p w = .ok i → i.port = p ∧ i.wf = true ∧ encode i = w

/-- Which command words are reserved (R74): `op` 0x0 or 0x9..0xF; `rsv` not 0; an operand where the opcode has none; SET_MODE
with operand bits [14:2] not 0 or [1:0] = 0b10. -/
def Obligations.ReservedCommandWords : Prop :=
  ∀ w : Word, (∃ e, decode .command w = .error e) ↔
    (bitField w 28 4 = 0 ∨ 9 ≤ (bitField w 28 4).toNat) ∨ bitField w 15 13 ≠ 0 ∨
    (bitField w 28 4 ≠ 2 ∧ bitField w 28 4 ≠ 3 ∧ bitField w 0 15 ≠ 0) ∨
    (bitField w 28 4 = 3 ∧ (bitField w 2 13 ≠ 0 ∨ bitField w 0 2 = 0b10))

/-! ## Steps -/

/-- A step runs the decoded instruction: the word presented on the command port; else the micro-operation on the bus port,
whose answer the sequencer then takes; else, the block being idle, the host's next word; and with nothing to do the block
waits.
The order of the four cases and the grain of a step are the model's choice (log entries 1, 8 and 20). -/
def Obligations.StepRunsDecodedInstruction : Prop :=
  (∀ (s : State) (w : Word) (i : Instr), s.host.cmd = some w → decode .command w = .ok i →
    step s = exec i { s with host := { s.host with cmd := none } }) ∧
  (∀ (s t : State) (w : Word) (i : Instr), s.host.cmd = none → s.port.uop = some w → decode .microOp w = .ok i →
    exec i s = .next t → step s = resume t) ∧
  (∀ (s : State) (w : Word) (ws : List Word) (i : Instr), s.host.cmd = none → s.port.uop = none → s.ctl.seq = .idle →
    s.host.queue = w :: ws → decode .command w = .ok i →
    step s = exec i { s with host := { s.host with queue := ws } }) ∧
  (∀ s : State, s.host.cmd = none → s.port.uop = none → s.ctl.seq = .idle → s.host.queue = [] → step s = .next s)

/-- `Refused` (R74, R225, R61): a reserved word, presented on the command port or taken from the host by an idle block, or any
word while a command runs, is answered with the status Refused, and nothing but the result port changes; the running command
goes on.
That the refusal comes first and takes the result port is the model's choice (log entry 20). -/
def Obligations.PortRefusesReservedOrBusy : Prop :=
  (∀ (s : State) (w : Word), s.host.cmd = some w →
    ((∃ e, decode .command w = .error e) ∨ s.ctl.seq ≠ .idle) →
    step s = .next { s with host := { s.host with cmd := none, result := some ⟨.refused, .none, none⟩ } }) ∧
  (∀ (s : State) (w : Word) (ws : List Word), s.host.cmd = none → s.port.uop = none → s.ctl.seq = .idle →
    s.host.queue = w :: ws → (∃ e, decode .command w = .error e) →
    step s = .next { s with host := { s.host with queue := ws, result := some ⟨.refused, .none, none⟩ } }) ∧
  (∀ (i : Instr) (s : State), i.port = .command → s.ctl.seq ≠ .idle →
    exec i s = .next { s with host := { s.host with result := some ⟨.refused, .none, none⟩ } })

/-- The status codes (R220) and the result encoding (R75): a mode code; the layout of R72; `T_out`, `P_out`, `H_out` in that
order; else nothing. -/
def Obligations.ResultEncoding : Prop :=
  (statusCode .ok = 0 ∧ statusCode .busError = 1 ∧ statusCode .identityMismatchError = 2 ∧
    statusCode .uninitializedError = 3 ∧ statusCode .invalidStateError = 4 ∧ statusCode .refused = 0xFF) ∧
  payloadWords (.mode .sleep) = [0] ∧ payloadWords (.mode .forced) = [1] ∧ payloadWords (.mode .normal) = [3] ∧
  (∀ st : Settings, ∃ w, payloadWords (.settings st) = [w] ∧
    w.toNat = st.tSb.toNat * 4096 + st.filter.toNat * 512 + st.osrsT.toNat * 64 + st.osrsP.toNat * 8 + st.osrsH.toNat) ∧
  (∀ t p h, payloadWords (.measurement t p h) = [t, p, h]) ∧ payloadWords .none = []

/-! ## Reset and the invariant -/

/-- The block after reset (R250) and its first step: it waits for a command and makes no bus transaction (R251). A block reset
of any state leaves the same record, drops a running command and touches neither the sensor nor the trace.
That waiting changes nothing, and that a block reset is an input, is the model's reading (log entries 8 and 23). -/
def Obligations.ResetState : Prop :=
  State.reset.ctl = ⟨false, .sleep, none, .idle⟩ ∧ step State.reset = .next State.reset ∧
  (∀ s : State, s.blockReset.ctl = ⟨false, .sleep, none, .idle⟩ ∧ s.blockReset.world = s.world ∧
    s.blockReset.trace = s.trace ∧ s.blockReset.port.uop = none) ∧
  (∀ s : State, s.host.cmd = none → s.host.queue = [] → step s.blockReset = .next s.blockReset)

/-- The state after reset meets the invariant, and so does the state after a block reset of any state whose register
memory is in canonical form.
The invariant is the model's (log entries 2, 5 and 6). -/
def Obligations.ResetMeetsInvariant : Prop :=
  State.Inv State.reset ∧ ∀ s : State, s.world.sen.regs.wf = true → s.blockReset.Inv

/-- Every step keeps the invariant: R24, the sequencer of R27 standing at a micro-operation of its command that is on the
port, and the register memory in its canonical form.
How the sequencer and the memory are held is the model's choice (log entries 2 and 6). -/
def Obligations.StepKeepsInvariant : Prop :=
  ∀ s t : State, s.Inv → step s = .next t → t.Inv

/-- From a state of the invariant no step faults (R254).
The two faults are the model's own (log entry 19). -/
def Obligations.NoStepFaults : Prop :=
  ∀ (s : State) (f : Fault), s.Inv → step s ≠ .fault f

/-- A command run in one step is the command run micro-operation by micro-operation (R61, R27): starting it and then taking
one step per micro-operation, 18 at most (R264), ends in the same outcome.
The two grains are the model's choice (log entry 1). -/
def Obligations.CommandIsItsMicroOperations : Prop :=
  ∀ (job : Job) (s : State), s.ctl.seq = .idle → s.host.cmd = none →
    ∃ n, n ≤ 18 ∧ drive n (begin job s) = runCommand job s

/-! ## The mode controller -/

/-- GET_MODE (R137): one read of 0xF4; the payload is the mode of its low two bits, 0b10 reading as Forced; no state of the
block is mutated; a bus error ends it. -/
def Obligations.GetModeReturnsSensorMode : Prop :=
  encode .getMode = 0x50000000 ∧ decodeMode 0b10 = .forced ∧ decodeMode (modeBits 0xB5) = .forced ∧
  (∀ (s : State) (x : Byte) (w : World), s.ctl.seq = .idle → follow [.rd .rdCtrlMeas [x]] s.world = some w →
    exec .getMode s =
      .next ((s.observed [.rd .rdCtrlMeas [x]] w).finish ⟨.ok, .mode (decodeMode (modeBits x)), none⟩)) ∧
  (∀ (s : State) (w : World), s.ctl.seq = .idle → follow [⟨.rdCtrlMeas, 0, .error⟩] s.world = some w →
    exec .getMode s =
      .next ((s.observed [⟨.rdCtrlMeas, 0, .error⟩] w).finish ⟨.busError, .none, some 0x400001F4⟩))

/-- GET_SETTINGS (R138): READ_SETTINGS, and the payload is the decoded Settings; the first failing read ends it. -/
def Obligations.GetSettingsReturnsDecoded : Prop :=
  encode .getSettings = 0x60000000 ∧
  (∀ (s : State) (xh xm xc : Byte) (w : World), s.ctl.seq = .idle → follow (settingsRead xh xm xc) s.world = some w →
    exec .getSettings s =
      .next ((s.observed (settingsRead xh xm xc) w).finish ⟨.ok, .settings (decodeSettings xh xm xc), none⟩)) ∧
  (∀ (s : State) (w : World), s.ctl.seq = .idle → follow [⟨.rdCtrlHum, 0, .error⟩] s.world = some w →
    exec .getSettings s =
      .next ((s.observed [⟨.rdCtrlHum, 0, .error⟩] w).finish ⟨.busError, .none, some 0x400001F2⟩)) ∧
  (∀ (s : State) (xh : Byte) (w : World), s.ctl.seq = .idle →
    follow [.rd .rdCtrlHum [xh], ⟨.rdCtrlMeas, 0, .error⟩] s.world = some w →
    exec .getSettings s =
      .next ((s.observed [.rd .rdCtrlHum [xh], ⟨.rdCtrlMeas, 0, .error⟩] w).finish
        ⟨.busError, .none, some 0x400001F4⟩)) ∧
  (∀ (s : State) (xh xm : Byte) (w : World), s.ctl.seq = .idle →
    follow [.rd .rdCtrlHum [xh], .rd .rdCtrlMeas [xm], ⟨.rdConfig, 0, .error⟩] s.world = some w →
    exec .getSettings s =
      .next ((s.observed [.rd .rdCtrlHum [xh], .rd .rdCtrlMeas [xm], ⟨.rdConfig, 0, .error⟩] w).finish
        ⟨.busError, .none, some 0x400001F5⟩))

/-- SLEEP (R136): READ_SETTINGS, SOFT_RESET, then the decoded Settings written back; `ctl.mode <- Sleep`; nothing else of the
block changes. -/
def Obligations.SleepRestoresSettings : Prop :=
  ∀ (s : State) (xh xm xc yh ym yc : Byte) (w : World), s.ctl.seq = .idle →
    follow (slept xh xm xc yh ym yc) s.world = some w →
    exec .sleep s =
      .next (((s.observed (slept xh xm xc yh ym yc) w).writeCtl (.mode .sleep)).finish ⟨.ok, .none, none⟩)

/-- SET_SETTINGS (R133): on a sensor whose mode bits read Sleep it writes the humidity field, then 0xF4 and 0xF5, and leaves
`ctl` unchanged; on any other it runs SLEEP_BODY first, with `ctl.mode <- Sleep`. -/
def Obligations.SetSettingsWritesRegisters : Prop :=
  (∀ (s : State) (st : Settings) (x xh xm xc : Byte) (w : World), s.ctl.seq = .idle → decodeMode (modeBits x) = .sleep →
    follow (.rd .rdCtrlMeas [x] :: settingsWritten st xh xm xc) s.world = some w →
    exec (.setSettings st) s =
      .next ((s.observed (.rd .rdCtrlMeas [x] :: settingsWritten st xh xm xc) w).finish ⟨.ok, .none, none⟩)) ∧
  (∀ (s : State) (st : Settings) (x xh xm xc yh ym yc zh zm zc : Byte) (w : World), s.ctl.seq = .idle →
    decodeMode (modeBits x) ≠ .sleep →
    follow (.rd .rdCtrlMeas [x] :: (slept xh xm xc yh ym yc ++ settingsWritten st zh zm zc)) s.world = some w →
    exec (.setSettings st) s =
      .next (((s.observed (.rd .rdCtrlMeas [x] :: (slept xh xm xc yh ym yc ++ settingsWritten st zh zm zc)) w).writeCtl
        (.mode .sleep)).finish ⟨.ok, .none, none⟩))

/-- SET_MODE (R134), for each of its three modes: on a sensor whose mode bits read Sleep, one read-modify-write of the low two
bits of 0xF4; on any other, SLEEP_BODY first; then `ctl.mode <- m`. -/
def Obligations.SetModeWritesModeBits : Prop :=
  ∀ (i : Instr) (m : Mode), (i, m) ∈ [(Instr.setModeSleep, Mode.sleep), (.setModeForced, .forced), (.setModeNormal, .normal)] →
    (∀ (s : State) (x y : Byte) (w : World), s.ctl.seq = .idle → decodeMode (modeBits x) = .sleep →
      follow [.rd .rdCtrlMeas [x], .rd .rdCtrlMeas [y],
        .wr .wrCtrlMeas (rmwByte y 0x03 ((0 : BitVec 6) ++ encodeMode m))] s.world = some w →
      exec i s =
        .next (((s.observed [.rd .rdCtrlMeas [x], .rd .rdCtrlMeas [y],
          .wr .wrCtrlMeas (rmwByte y 0x03 ((0 : BitVec 6) ++ encodeMode m))] w).writeCtl (.mode m)).finish
            ⟨.ok, .none, none⟩)) ∧
    (∀ (s : State) (x xh xm xc yh ym yc z : Byte) (w : World), s.ctl.seq = .idle → decodeMode (modeBits x) ≠ .sleep →
      follow (.rd .rdCtrlMeas [x] :: (slept xh xm xc yh ym yc ++
        [.rd .rdCtrlMeas [z], .wr .wrCtrlMeas (rmwByte z 0x03 ((0 : BitVec 6) ++ encodeMode m))])) s.world = some w →
      exec i s =
        .next (((s.observed (.rd .rdCtrlMeas [x] :: (slept xh xm xc yh ym yc ++
          [.rd .rdCtrlMeas [z], .wr .wrCtrlMeas (rmwByte z 0x03 ((0 : BitVec 6) ++ encodeMode m))])) w).writeCtl
            (.mode m)).finish ⟨.ok, .none, none⟩))

/-- SET_MODE propagates the bus errors of its read-modify-write, and `ctl.mode` is then not set to `m` (R135): with a sensor
that reads Sleep, `ctl` keeps its value, and after SLEEP_BODY `ctl.mode` is Sleep. The registers that the failed command had
issued a WRITE to are a draw (R227, U1); which ones those are is the model's reading (log entry 13). -/
def Obligations.SetModePropagatesBusErrors : Prop :=
  ∀ (i : Instr) (m : Mode), (i, m) ∈ [(Instr.setModeSleep, Mode.sleep), (.setModeForced, .forced), (.setModeNormal, .normal)] →
    (∀ (s : State) (x : Byte) (w : World), s.ctl.seq = .idle → decodeMode (modeBits x) = .sleep →
      follow [.rd .rdCtrlMeas [x], ⟨.rdCtrlMeas, 0, .error⟩] s.world = some w →
      exec i s = .next ((s.observed [.rd .rdCtrlMeas [x], ⟨.rdCtrlMeas, 0, .error⟩] w).finish
        ⟨.busError, .none, some 0x400001F4⟩)) ∧
    (∀ (s : State) (x y : Byte) (w : World), s.ctl.seq = .idle → decodeMode (modeBits x) = .sleep →
      follow [.rd .rdCtrlMeas [x], .rd .rdCtrlMeas [y],
        ⟨.wrCtrlMeas, rmwByte y 0x03 ((0 : BitVec 6) ++ encodeMode m), .error⟩] s.world = some w →
      exec i s = .next ((s.failed [.rd .rdCtrlMeas [x], .rd .rdCtrlMeas [y],
        ⟨.wrCtrlMeas, rmwByte y 0x03 ((0 : BitVec 6) ++ encodeMode m), .error⟩] w).finish
          ⟨.busError, .none, some 0x000001F4⟩)) ∧
    (∀ (s : State) (x xh xm xc yh ym yc : Byte) (w : World), s.ctl.seq = .idle → decodeMode (modeBits x) ≠ .sleep →
      follow (.rd .rdCtrlMeas [x] :: (slept xh xm xc yh ym yc ++ [⟨.rdCtrlMeas, 0, .error⟩])) s.world = some w →
      exec i s = .next (((s.failed (.rd .rdCtrlMeas [x] :: (slept xh xm xc yh ym yc ++ [⟨.rdCtrlMeas, 0, .error⟩])) w).writeCtl
        (.mode .sleep)).finish ⟨.busError, .none, some 0x400001F4⟩)) ∧
    (∀ (s : State) (x xh xm xc yh ym yc z : Byte) (w : World), s.ctl.seq = .idle → decodeMode (modeBits x) ≠ .sleep →
      follow (.rd .rdCtrlMeas [x] :: (slept xh xm xc yh ym yc ++
        [.rd .rdCtrlMeas [z], ⟨.wrCtrlMeas, rmwByte z 0x03 ((0 : BitVec 6) ++ encodeMode m), .error⟩])) s.world = some w →
      exec i s = .next (((s.failed (.rd .rdCtrlMeas [x] :: (slept xh xm xc yh ym yc ++
        [.rd .rdCtrlMeas [z], ⟨.wrCtrlMeas, rmwByte z 0x03 ((0 : BitVec 6) ++ encodeMode m), .error⟩])) w).writeCtl
          (.mode .sleep)).finish ⟨.busError, .none, some 0x000001F4⟩))

/-- INIT (R131): after up to four answers that are not `Ok([0x60])` and one that is, the soft reset, the two calibration
reads and the waits; then `calib`, `mode = Sleep` and `initialized = true`.
The parse rests on the layout of log entry 16. -/
def Obligations.InitLoadsCalibration : Prop :=
  ∀ (s : State) (rs : List Reply) (tp h : List Byte) (w : World), s.ctl.seq = .idle → rs.length ≤ 4 →
    (∀ r ∈ rs, r ≠ .ok [0x60]) →
    follow (polled rs ++ identified tp h) s.world = some w →
    exec .init s =
      .next (({ s.observed (polled rs ++ identified tp h) w with
          ctl := { initialized := true, mode := .sleep, calib := some (parseCalib tp h), seq := .idle } }).finish
            ⟨.ok, .none, none⟩)

/-- The identity poll without a match (R132, R222): exactly five reads and nothing else; the fifth answer alone decides
between `BusError` and `IdentityMismatchError`; `initialized` is false.
The failing word of a failed poll is the model's choice (log entry 25). -/
def Obligations.IdentityPollFails : Prop :=
  ∀ (s : State) (r1 r2 r3 r4 r5 : Reply) (w : World), s.ctl.seq = .idle →
    (∀ r ∈ [r1, r2, r3, r4, r5], r ≠ .ok [0x60]) →
    follow (polled [r1, r2, r3, r4, r5]) s.world = some w →
    exec .init s =
      .next (((s.observed (polled [r1, r2, r3, r4, r5]) w).writeCtl (.initialized false)).finish
        (if r5 = .error then ⟨.busError, .none, some 0x400001D0⟩ else ⟨.identityMismatchError, .none, none⟩))

/-! ## The measurement reader -/

/-- FORCE_MEASUREMENT outside Normal (R151): READ_SETTINGS, 0xF2 with its upper bits kept, the full byte of 0xF4, and the
computed wait; `ctl` is unchanged. -/
def Obligations.ForceMeasurementTriggers : Prop :=
  ∀ (s : State) (xh xm xc : Byte) (w : World), s.ctl.seq = .idle → s.ctl.mode ≠ .normal →
    follow (forced xh xm xc) s.world = some w →
    exec .forceMeasurement s = .next ((s.observed (forced xh xm xc) w).finish ⟨.ok, .none, none⟩)

/-- The two preconditions (R223, R224, R154): FORCE_MEASUREMENT in Normal ends with `InvalidStateError`, and READ before a
successful INIT with `UninitializedError` whatever the mode and the oracle; no micro-operation is issued and no state changed. -/
def Obligations.PreconditionErrors : Prop :=
  (∀ s : State, s.ctl.seq = .idle → s.ctl.mode = .normal → s.port.uop = none →
    exec .forceMeasurement s =
      .next { s with host := { s.host with result := some ⟨.invalidStateError, .none, none⟩ } }) ∧
  (∀ s : State, s.ctl.seq = .idle → s.ctl.initialized = false → s.port.uop = none →
    exec .read s = .next { s with host := { s.host with result := some ⟨.uninitializedError, .none, none⟩ } })

/-- READ (R155, R156): in Sleep and Normal one data read, in Forced FORCE_BODY and then the data read; the burst is compensated
with the coefficients held, and `ctl` is unchanged. The compensation (R158, R170, R171, R181): each output is its stage's
result, the pressure and the humidity with the `t_fine` of the same sample; where no stage overflows no draw is taken; and the
outputs whose stages overflow, one, two or all three, can be any values of their ranges, with any `t_fine` beside a drawn
temperature.
The order in which the draws come is the model's (log entry 4). -/
def Obligations.ReadReturnsMeasurement : Prop :=
  (∀ (s : State) (c : CalibrationData) (d : List Byte) (w : World), s.ctl.seq = .idle → s.ctl.initialized = true →
    s.ctl.mode ≠ .forced → s.ctl.calib = some c → follow [.rd .rdData d] s.world = some w →
    exec .read s =
      .next ((s.observed [.rd .rdData d] (compensate (unpackRaw d) c w).2).finish
        ⟨.ok, (compensate (unpackRaw d) c w).1, none⟩)) ∧
  (∀ (s : State) (c : CalibrationData) (xh xm xc : Byte) (d : List Byte) (w : World), s.ctl.seq = .idle →
    s.ctl.initialized = true → s.ctl.mode = .forced → s.ctl.calib = some c →
    follow (forced xh xm xc ++ [.rd .rdData d]) s.world = some w →
    exec .read s =
      .next ((s.observed (forced xh xm xc ++ [.rd .rdData d]) (compensate (unpackRaw d) c w).2).finish
        ⟨.ok, (compensate (unpackRaw d) c w).1, none⟩)) ∧
  (∀ (raw : RawSample) (c : CalibrationData) (w : World),
    (∀ t f p h : Int, compT raw.adcT c = some (t, f) → compP raw.adcP f c = some p → compH raw.adcH f c = some h →
      compensate raw c w = (.measurement (BitVec.ofInt 32 t) (BitVec.ofInt 32 p) (BitVec.ofInt 32 h), w)) ∧
    (∃ t f p h : Int,
      (compensate raw c w).1 = .measurement (BitVec.ofInt 32 t) (BitVec.ofInt 32 p) (BitVec.ofInt 32 h) ∧
      (compT raw.adcT c = some (t, f) ∨
        compT raw.adcT c = none ∧ -4000 ≤ t ∧ t ≤ 8500 ∧ -2147483648 ≤ f ∧ f ≤ 2147483647) ∧
      (compP raw.adcP f c = some p ∨ compP raw.adcP f c = none ∧ 3000000 ≤ p ∧ p ≤ 11000000) ∧
      (compH raw.adcH f c = some h ∨ compH raw.adcH f c = none ∧ 0 ≤ h ∧ h ≤ 102400)) ∧
    (∀ (t f p h : Int) (ds : List Nat),
      (compT raw.adcT c = some (t, f) ∨
        compT raw.adcT c = none ∧ -4000 ≤ t ∧ t ≤ 8500 ∧ -2147483648 ≤ f ∧ f ≤ 2147483647) →
      (compP raw.adcP f c = some p ∨ compP raw.adcP f c = none ∧ 3000000 ≤ p ∧ p ≤ 11000000) →
      (compH raw.adcH f c = some h ∨ compH raw.adcH f c = none ∧ 0 ≤ h ∧ h ≤ 102400) →
      w.env.draws = (if compT raw.adcT c = none then [(t + 4000).toNat, (f + 2147483648).toNat] else []) ++
        (if compP raw.adcP f c = none then [(p - 3000000).toNat] else []) ++
        (if compH raw.adcH f c = none then [h.toNat] else []) ++ ds →
      (compensate raw c w).1 = .measurement (BitVec.ofInt 32 t) (BitVec.ofInt 32 p) (BitVec.ofInt 32 h) ∧
      (compensate raw c w).2.env.draws = ds))

/-! ## Whole-machine rules -/

/-- Every command ends (R254): from an idle state of the invariant it answers a next state that is idle, with a result on the
port and no micro-operation left, after at most 18 micro-operations (R264). -/
def Obligations.EveryCommandEnds : Prop :=
  ∀ (i : Instr) (s : State), i.port = .command → s.ctl.seq = .idle → s.Inv →
    ∃ t, exec i s = .next t ∧ t.ctl.seq = .idle ∧ t.host.result.isSome = true ∧ t.port.uop = none ∧
      t.host.cmd = s.host.cmd ∧ t.host.queue = s.host.queue ∧
      ∃ l, t.trace = s.trace ++ l ∧ l.length ≤ 18

/-- Short-circuit (R226, R221): a failing micro-operation is the last its command issues, the identity poll of INIT excepted;
it ends the command with `BusError` and its own word, and a result OK means that none failed but in that poll.
The word beside the `BusError` of a failed fifth read of the poll is the model's choice (log entry 25). -/
def Obligations.FirstFailureEndsCommand : Prop :=
  ∀ (i : Instr) (s t : State), i.port = .command → s.ctl.seq = .idle → exec i s = .next t →
    ∃ l, t.trace = s.trace ++ l ∧
      (∀ e ∈ l.dropLast, e.reply = .error → i = .init ∧ e.word = 0x400001D0) ∧
      (∀ e, l.getLast? = some e → e.reply = .error → t.host.result = some ⟨.busError, .none, some e.word⟩)

/-- The block issues only the eleven bus words of R77 and the waits of R78, and writes only the reset command to 0xE0 (R33,
R79). -/
def Obligations.OnlyTableWordsIssued : Prop :=
  ∀ (i : Instr) (s t : State), i.port = .command → exec i s = .next t →
    ∃ l, t.trace = s.trace ++ l ∧ ∀ e ∈ l, issuedWord e.word ∧ (e.word = 0x000001E0 → e.wdata = [0xB6])

/-- Only INIT writes `initialized` and `calib` (R21, R23, R107). -/
def Obligations.OnlyInitWritesCalibration : Prop :=
  ∀ (i : Instr) (s t : State), i ≠ .init → exec i s = .next t →
    t.ctl.initialized = s.ctl.initialized ∧ t.ctl.calib = s.ctl.calib

/-- The state after a failed INIT and after a successful one (R131, R227): `initialized` holds exactly after OK; after an error
`mode` and `calib` are unchanged, since every transaction that can fail precedes their writes; after OK `mode` is Sleep and
the coefficients are held. -/
def Obligations.InitOutcome : Prop :=
  ∀ s t : State, s.ctl.seq = .idle → exec .init s = .next t →
    ∃ r, t.host.result = some r ∧
      (r.status = .ok → t.ctl.initialized = true ∧ t.ctl.mode = .sleep ∧ t.ctl.calib.isSome = true) ∧
      (r.status ≠ .ok → t.ctl.initialized = false ∧ t.ctl.mode = s.ctl.mode ∧ t.ctl.calib = s.ctl.calib)

/-- Who writes `ctl.mode` (R22, R139, R227): SET_MODE `m` leaves `m` after OK and the old mode or Sleep after an error; SLEEP
leaves Sleep after OK and the old mode after an error; SET_SETTINGS the old mode or Sleep; INIT the old mode or Sleep; every other
instruction the old mode. -/
def Obligations.ModeWriters : Prop :=
  ∀ (i : Instr) (s t : State), s.ctl.seq = .idle → exec i s = .next t →
    match i with
    | .setModeSleep => (t.host.result.map Result.status = some .ok → t.ctl.mode = .sleep) ∧
        (t.host.result.map Result.status ≠ some .ok → t.ctl.mode = .sleep ∨ t.ctl.mode = s.ctl.mode)
    | .setModeForced => (t.host.result.map Result.status = some .ok → t.ctl.mode = .forced) ∧
        (t.host.result.map Result.status ≠ some .ok → t.ctl.mode = .sleep ∨ t.ctl.mode = s.ctl.mode)
    | .setModeNormal => (t.host.result.map Result.status = some .ok → t.ctl.mode = .normal) ∧
        (t.host.result.map Result.status ≠ some .ok → t.ctl.mode = .sleep ∨ t.ctl.mode = s.ctl.mode)
    | .sleep => (t.host.result.map Result.status = some .ok → t.ctl.mode = .sleep) ∧
        (t.host.result.map Result.status ≠ some .ok → t.ctl.mode = s.ctl.mode)
    | .setSettings _ | .init => t.ctl.mode = .sleep ∨ t.ctl.mode = s.ctl.mode
    | _ => t.ctl.mode = s.ctl.mode

/-- The identity and the calibration bytes of a conforming sensor (R40) are read-only (R32, R34): no instruction changes a
register other than `ctrl_hum`, `ctrl_meas`, `config` and the data registers, and the sensor goes on conforming.
That this holds after a mode write in Normal too, where R198 leaves the contents open, is the model's reading (log entry
9); that an unmapped address keeps its byte is the model's choice (log entry 6). -/
def Obligations.ReadOnlyRegistersNeverChange : Prop :=
  ∀ (i : Instr) (s t : State) (a : Nat), s.world.sen.conforming = true → exec i s = .next t → changeable a = false →
    t.world.sen.reg a = s.world.sen.reg a ∧ t.world.sen.conforming = true

/-- A micro-operation completes in every state and leaves the block's own record and the host's port alone (R20, R28): it
takes the word off the bus port, latches an answer and adds one line to the trace.
That the byte beside the word stays, that the answer is latched and that there is a trace are the model's choices (log
entries 27, 28 and 18). -/
def Obligations.MicroOperationFrame : Prop :=
  ∀ (i : Instr) (s : State), i.port = .microOp →
    ∃ t r, exec i s = .next t ∧ t.ctl = s.ctl ∧ t.host = s.host ∧
      t.port = { uop := none, wdata := s.port.wdata, reply := some r } ∧
      ∃ e, t.trace = s.trace ++ [e] ∧ e.word = encode i ∧ e.reply = r

/-! ## The compensation pipeline -/

/-- Temperature (R171 to R173): exactly when every value the pseudocode produces fits s32, the stage gives the pseudocode's
result over unbounded integers with truncating division, `T_out` clamped to [-4000, 8500] and `t_fine` not clamped.
The formula is the spec's from general knowledge (log entry 16). -/
def Obligations.TemperatureExactWhenInRange : Prop :=
  ∀ (adcT : Int) (c : CalibrationData) (r : Int × Int),
    let t1 : Int := c.t1.toNat
    let a := adcT.tdiv 8 - t1 * 2
    let var1 := (a * c.t2.toInt).tdiv 2048
    let b := adcT.tdiv 16 - t1
    let q := (b * b).tdiv 4096
    let var2 := (q * c.t3.toInt).tdiv 16384
    let tFine := var1 + var2
    let t := (tFine * 5 + 128).tdiv 256
    compT adcT c = some r ↔
      (∀ v ∈ [adcT.tdiv 8, t1 * 2, a, a * c.t2.toInt, var1, adcT.tdiv 16, b, b * b, q, q * c.t3.toInt, var2, tFine,
        tFine * 5, tFine * 5 + 128, t], -(2 : Int) ^ 31 ≤ v ∧ v ≤ (2 : Int) ^ 31 - 1) ∧
      r = (min (max t (-4000)) 8500, tFine)

/-- Pressure (R171, R174 to R176): exactly when every value the pseudocode produces fits s64 and the pressure fits u32, the stage
gives the pseudocode's result; a denominator of 0 gives 3000000 and no division; else the pressure is clamped to
[3000000, 11000000].
The formula is the spec's from general knowledge (log entry 16).
An overflow before a zero denominator is a draw (log entry 17). -/
def Obligations.PressureExactWhenInRange : Prop :=
  ∀ (adcP tFine : Int) (c : CalibrationData) (r : Int),
    let fits (v : Int) : Prop := -(2 : Int) ^ 63 ≤ v ∧ v ≤ (2 : Int) ^ 63 - 1
    let p1 : Int := c.p1.toNat
    let v := tFine - 128000
    let x1 := v * v * c.p6.toInt
    let x2 := x1 + v * c.p5.toInt * 131072
    let var2 := x2 + c.p4.toInt * 34359738368
    let y := (v * v * c.p3.toInt).tdiv 256 + v * c.p2.toInt * 4096
    let d := ((140737488355328 + y) * p1).tdiv 8589934592
    let m := (1048576 - adcP) * 2147483648 - var2
    let q := (m * 3125).tdiv d
    let e1 := (c.p9.toInt * q.tdiv 8192 * q.tdiv 8192).tdiv 33554432
    let e2 := (c.p8.toInt * q).tdiv 524288
    let f := (q + e1 + e2).tdiv 256 + c.p7.toInt * 16
    let p := (f.tdiv 2 * 100).tdiv 128
    compP adcP tFine c = some r ↔
      (∀ z ∈ [v, v * v, x1, v * c.p5.toInt, v * c.p5.toInt * 131072, x2, c.p4.toInt * 34359738368, var2, v * v * c.p3.toInt,
        (v * v * c.p3.toInt).tdiv 256, v * c.p2.toInt, v * c.p2.toInt * 4096, y, 140737488355328 + y,
        (140737488355328 + y) * p1, d], fits z) ∧
      ((d = 0 ∧ r = 3000000) ∨
       (d ≠ 0 ∧
        (∀ z ∈ [1048576 - adcP, (1048576 - adcP) * 2147483648, m, m * 3125, q, q.tdiv 8192, c.p9.toInt * q.tdiv 8192,
          c.p9.toInt * q.tdiv 8192 * q.tdiv 8192, e1, c.p8.toInt * q, e2, q + e1, q + e1 + e2, (q + e1 + e2).tdiv 256,
          c.p7.toInt * 16, f, f.tdiv 2, f.tdiv 2 * 100, p], fits z) ∧
        0 ≤ p ∧ p ≤ (2 : Int) ^ 32 - 1 ∧ r = min (max p 3000000) 11000000))

/-- Humidity (R171, R177, R178): exactly when every value the pseudocode produces fits s32, the stage gives the pseudocode's
result, the intermediate clamped to [0, 419430400] and the output to at most 102400.
The formula is the spec's from general knowledge (log entry 16). -/
def Obligations.HumidityExactWhenInRange : Prop :=
  ∀ (adcH tFine : Int) (c : CalibrationData) (r : Int),
    let h1 : Int := c.h1.toNat
    let h3 : Int := c.h3.toNat
    let var1 := tFine - 76800
    let x1 := adcH * 16384 - c.h4.toInt * 1048576
    let x2 := x1 - c.h5.toInt * var1
    let var5 := (x2 + 16384).tdiv 32768
    let a := (var1 * c.h6.toInt).tdiv 1024
    let b := (var1 * h3).tdiv 2048
    let d := (a * (b + 32768)).tdiv 1024 + 2097152
    let var2 := (d * c.h2.toInt + 8192).tdiv 16384
    let var3 := var5 * var2
    let q := var3.tdiv 32768
    let var4 := (q * q).tdiv 128
    let e := var3 - (var4 * h1).tdiv 16
    let h := (min (max e 0) 419430400).tdiv 4096
    compH adcH tFine c = some r ↔
      (∀ v ∈ [var1, adcH * 16384, c.h4.toInt * 1048576, c.h5.toInt * var1, x1, x2, x2 + 16384, var5, var1 * c.h6.toInt, a,
        var1 * h3, b, b + 32768, a * (b + 32768), (a * (b + 32768)).tdiv 1024, d, d * c.h2.toInt, d * c.h2.toInt + 8192,
        var2, var3, q, q * q, var4, var4 * h1, (var4 * h1).tdiv 16, e, h],
        -(2 : Int) ^ 31 ≤ v ∧ v ≤ (2 : Int) ^ 31 - 1) ∧
      r = min h 102400

/-- The zero denominator (R175): `P1 = 0` makes the pressure stage return exactly 3000000 for every raw count, with a fine
temperature for which no intermediate overflows.
Where an intermediate overflows the model draws (log entry 17). -/
def Obligations.ZeroPressureCoefficient : Prop :=
  ∀ (adcP tFine : Int) (c : CalibrationData), c.p1 = 0 → -1000000 ≤ tFine → tFine ≤ 1000000 →
    compP adcP tFine c = some 3000000

/-- The range law (R179): every Measurement READ returns, computed or drawn, has `-4000 <= T_out <= 8500`,
`3000000 <= P_out <= 11000000` and `0 <= H_out <= 102400`. -/
def Obligations.MeasurementInRange : Prop :=
  ∀ (s t : State) (tOut pOut hOut : BitVec 32) (f : Option Word), s.ctl.seq = .idle → exec .read s = .next t →
    t.host.result = some ⟨.ok, .measurement tOut pOut hOut, f⟩ →
    -4000 ≤ tOut.toInt ∧ tOut.toInt ≤ 8500 ∧ 3000000 ≤ pOut.toNat ∧ pOut.toNat ≤ 11000000 ∧ hOut.toNat ≤ 102400

/-! ## Codec, calibration, timing -/

/-- `decodeOsrs` (R110): codes up to 4 are themselves, 5, 6 and 7 are 5; `decodeStandby` (R112): all eight codes are distinct
levels. -/
def Obligations.OversamplingAndStandbyDecode : Prop :=
  ∀ c : Code, (decodeOsrs c).toNat = min c.toNat 5 ∧ decodeStandby c = c

/-- The filter codes and the mode codes (R111, R113, R114): codes 5 to 7 decode to 4; 0b10 reads as Forced and is never
written; decoding an encoded mode gives it back.
The codes are the spec's from general knowledge (log entry 16). -/
def Obligations.FilterAndModeDecode : Prop :=
  (∀ c : Code, (decodeFilter c).toNat = min c.toNat 4) ∧
  decodeMode 0b00 = .sleep ∧ decodeMode 0b01 = .forced ∧ decodeMode 0b10 = .forced ∧ decodeMode 0b11 = .normal ∧
  ∀ m : Mode, decodeMode (encodeMode m) = m ∧ encodeMode m ≠ 0b10

/-- `decodeSettings` (R118), field by field in numbers; the other bits are ignored. -/
def Obligations.SettingsDecodeFields : Prop :=
  ∀ xh xm xc : Byte,
    decodeSettings xh xm xc =
      { osrsH := decodeOsrs (BitVec.ofNat 3 (xh.toNat % 8))
        osrsT := decodeOsrs (BitVec.ofNat 3 (xm.toNat / 32))
        osrsP := decodeOsrs (BitVec.ofNat 3 (xm.toNat / 4 % 8))
        tSb := decodeStandby (BitVec.ofNat 3 (xc.toNat / 32))
        filter := decodeFilter (BitVec.ofNat 3 (xc.toNat / 4 % 8)) }

/-- The read-modify-write byte (R115): bits of the mask from `v`, all others as read. What the codec writes decodes to the decoded
codes, and the mode bits of 0xF4, bits [7:3] of 0xF2 and bits [1:0] of 0xF5 are kept as read (R116, R117, R120). -/
def Obligations.CodecRoundTrip : Prop :=
  (∀ (x mask v : Byte) (i : Nat), i < 8 →
    (rmwByte x mask v).getLsbD i = (if mask.getLsbD i then v.getLsbD i else x.getLsbD i)) ∧
  (∀ (st : Settings) (xh xm xc : Byte),
    decodeSettings (rmwByte xh 0x07 (humBits st)) (rmwByte xm 0xFC (measBits st)) (rmwByte xc 0xFC (configBits st)) =
      ⟨st.tSb, decodeFilter st.filter, decodeOsrs st.osrsT, decodeOsrs st.osrsP, decodeOsrs st.osrsH⟩ ∧
    modeBits (rmwByte xm 0xFC (measBits st)) = modeBits xm ∧
    (rmwByte xh 0x07 (humBits st)).toNat / 8 = xh.toNat / 8 ∧
    (rmwByte xc 0xFC (configBits st)).toNat % 4 = xc.toNat % 4)

/-- `ctrlMeasForced` (R121): `(osrs_t << 5) | (osrs_p << 2) | 0b01`, and it is the full byte FORCE_MEASUREMENT writes to 0xF4, with
no bit kept from the byte read there. -/
def Obligations.ForcedControlByte : Prop :=
  (∀ st : Settings, (ctrlMeasForced st).toNat = st.osrsT.toNat * 32 + st.osrsP.toNat * 4 + 1) ∧
  (∀ (s : State) (xh xm xc : Byte) (w : World), s.ctl.seq = .idle → s.ctl.mode ≠ .normal →
    follow (forced xh xm xc) s.world = some w →
    ∃ t, exec .forceMeasurement s = .next t ∧
      (⟨0x000001F4, [BitVec.ofNat 8 ((decodeSettings xh xm xc).osrsT.toNat * 32 +
        (decodeSettings xh xm xc).osrsP.toNat * 4 + 1)], .ok []⟩ : TraceEntry) ∈ t.trace)

/-- The timing coefficients (R150). -/
def Obligations.TimingCoefficients : Prop :=
  coefT 0 = 0 ∧ coefT 1 = 1 ∧ coefT 2 = 2 ∧ coefT 3 = 4 ∧ coefT 4 = 16 ∧ coefT 5 = 16 ∧ coefT 6 = 16 ∧ coefT 7 = 16

/-- The forced wait (R152, R153): the least whole number of milliseconds that is not below the worst-case time, and it lies
in 2..113. -/
def Obligations.ForcedWaitCoversMeasurement : Prop :=
  ∀ st : Settings,
    t40 st = 50 + 92 * coefT st.osrsT + (if st.osrsP ≠ 0 then 92 * coefT st.osrsP + 23 else 0) +
      (if st.osrsH ≠ 0 then 92 * coefT st.osrsH + 23 else 0) ∧
    t40 st ≤ 40 * measWaitMs st ∧ 40 * (measWaitMs st - 1) < t40 st ∧ 2 ≤ measWaitMs st ∧ measWaitMs st ≤ 113

/-- The little-endian coefficients (R51, R101 to R103): each word is its low byte plus 256 times the next one, at the offsets of
R101, with H1 at `tp[25]`.
The offsets are the spec's from general knowledge (log entry 16). -/
def Obligations.CalibrationWordsLittleEndian : Prop :=
  ∀ tp h : List Byte,
    let le (b : List Byte) (i : Nat) : Nat := (byteAt b i).toNat + 256 * (byteAt b (i + 1)).toNat
    let c := parseCalib tp h
    c.t1.toNat = le tp 0 ∧ c.t2.toNat = le tp 2 ∧ c.t3.toNat = le tp 4 ∧ c.p1.toNat = le tp 6 ∧ c.p2.toNat = le tp 8 ∧
    c.p3.toNat = le tp 10 ∧ c.p4.toNat = le tp 12 ∧ c.p5.toNat = le tp 14 ∧ c.p6.toNat = le tp 16 ∧ c.p7.toNat = le tp 18 ∧
    c.p8.toNat = le tp 20 ∧ c.p9.toNat = le tp 22 ∧ c.h1 = byteAt tp 25 ∧ c.h2.toNat = le h 0 ∧ c.h3 = byteAt h 2 ∧
    c.h6 = byteAt h 6

/-- The packed pair (R104, R105): `H4 = h[3]*16 + (h[4] & 0x0F)` in 0..4095, never negative, and
`H5 = b8s(h[5])*16 + (h[4] >> 4)` in -2048..2047. -/
def Obligations.PackedHumidityCoefficients : Prop :=
  ∀ tp h : List Byte,
    (parseCalib tp h).h4.toInt = (byteAt h 3).toNat * 16 + (byteAt h 4).toNat % 16 ∧
    0 ≤ (parseCalib tp h).h4.toInt ∧ (parseCalib tp h).h4.toInt ≤ 4095 ∧
    (parseCalib tp h).h5.toInt = (byteAt h 5).toInt * 16 + (byteAt h 4).toNat / 16 ∧
    -2048 ≤ (parseCalib tp h).h5.toInt ∧ (parseCalib tp h).h5.toInt ≤ 2047

/-- The data burst (R52, R157): pressure, then temperature, then humidity, most significant byte first; the low nibbles of
bytes 2 and 5 are ignored.
The order of the values is the spec's from general knowledge (log entry 16). -/
def Obligations.RawSampleUnpacked : Prop :=
  ∀ d : List Byte,
    (unpackRaw d).adcP = (byteAt d 0).toNat * 4096 + (byteAt d 1).toNat * 16 + (byteAt d 2).toNat / 16 ∧
    (unpackRaw d).adcT = (byteAt d 3).toNat * 4096 + (byteAt d 4).toNat * 16 + (byteAt d 5).toNat / 16 ∧
    (unpackRaw d).adcH = (byteAt d 6).toNat * 256 + (byteAt d 7).toNat ∧
    (unpackRaw d).adcP < 2 ^ 20 ∧ (unpackRaw d).adcT < 2 ^ 20 ∧ (unpackRaw d).adcH < 2 ^ 16

/-! ## The sensor's side -/

/-- The read micro-operations of a conforming sensor (R191, R193, R195 to R197, R202, R203). At rest each completes, is
answered with the registers at its address, in order, and changes nothing of the sensor; the identity byte is 0x60. In any
other known state each completes too. All but those of 0xF4 and of the data are answered so there; 0xF4 reads as written
in Normal (R200) and while a forced conversion runs, and with its mode bits cleared once that has ended (R199), which is so when
its bound has elapsed; and the data burst holds the data as they were, and where a conversion has ended in the meantime the
new sample, byte by byte the one or the other (R57, R203).
The premise is R40's; the scripts are the model's (log entry 4), and so is it that a burst mixes two samples at most (log
entry 11). -/
def Obligations.SensorAnswersItsRegisters : Prop :=
  (∀ (op : MicroOp) (a n : Nat) (s : State), s.world.sen.quiet = true → s.world.env.okFor 1 →
    (op, a, n) ∈ [(MicroOp.rdId, 0xD0, 1), (.rdCalibTp, 0x88, 26), (.rdCalibH, 0xE1, 7), (.rdCtrlHum, 0xF2, 1),
      (.rdCtrlMeas, 0xF4, 1), (.rdConfig, 0xF5, 1), (.rdData, 0xF7, 8)] →
    ∃ t b, exec op.instr s = .next t ∧ t.port = ⟨none, s.port.wdata, some (.ok b)⟩ ∧ b.length = n ∧
      (∀ j, j < n → b[j]? = some (s.world.sen.reg (a + j))) ∧
      (op = .rdId → b = [0x60]) ∧ t.world.sen = s.world.sen ∧ t.ctl = s.ctl ∧ t.host = s.host ∧
      t.trace = s.trace ++ [⟨op.word, [], .ok b⟩]) ∧
  (∀ (op : MicroOp) (a n : Nat) (s : State), s.world.sen.conforming = true → s.world.sen.wild = false →
    s.world.sen.settled = true → s.world.sen.regs.wf = true → s.world.env.okFor 1 →
    (op, a, n) ∈ [(MicroOp.rdId, 0xD0, 1), (.rdCalibTp, 0x88, 26), (.rdCalibH, 0xE1, 7), (.rdCtrlHum, 0xF2, 1),
      (.rdConfig, 0xF5, 1)] →
    ∃ t b, exec op.instr s = .next t ∧ t.port = ⟨none, s.port.wdata, some (.ok b)⟩ ∧ b.length = n ∧
      ∀ j, j < n → b[j]? = some (s.world.sen.reg (a + j))) ∧
  (∀ s : State, s.world.sen.conforming = true → s.world.sen.wild = false → s.world.sen.settled = true →
    s.world.sen.regs.wf = true → s.world.env.okFor 1 →
    ∃ t x, exec .rdCtrlMeas s = .next t ∧ t.port = ⟨none, s.port.wdata, some (.ok [x])⟩ ∧
      (∀ c f, s.world.sen.activity = .normal c f → x = s.world.sen.ctrlMeas) ∧
      (∀ bound deadline, s.world.sen.activity = .forced bound deadline →
        (s.world.sen.clock < deadline ∧ t.world.sen.activity = .forced bound deadline ∧ x = s.world.sen.ctrlMeas) ∨
        (t.world.sen.activity = .idle ∧ x = s.world.sen.ctrlMeas &&& 0xFC))) ∧
  (∀ s : State, s.world.sen.conforming = true → s.world.sen.wild = false → s.world.sen.settled = true →
    s.world.sen.regs.wf = true → s.world.env.okFor 1 →
    ∃ t b, exec .rdData s = .next t ∧ t.port = ⟨none, s.port.wdata, some (.ok b)⟩ ∧ b.length = 8 ∧
      (s.world.sen.activity = .idle → t.world.sen = s.world.sen ∧ b = s.world.sen.data) ∧
      (∀ bound deadline, s.world.sen.activity = .forced bound deadline →
        (s.world.sen.clock < deadline ∧ t.world.sen = s.world.sen ∧ b = s.world.sen.data) ∨
        (t.world.sen.activity = .idle ∧ s.world.env.sampleIs 0 t.world.sen.data ∧
          ∀ j, j < 8 → b[j]? = s.world.sen.data[j]? ∨ b[j]? = t.world.sen.data[j]?)) ∧
      (∀ c f, s.world.sen.activity = .normal c f →
        ∃ (k : Nat) (d : List Byte), (k = 0 ∧ d = s.world.sen.data ∨ k = 1 ∧ s.world.env.sampleIs 0 d) ∧
          (t.world.sen.data = d ∨ s.world.env.sampleIs k t.world.sen.data) ∧
          ∀ j, j < 8 → b[j]? = d[j]? ∨ b[j]? = t.world.sen.data[j]?))

/-- WR_CTRL_HUM (R197). At rest the byte is stored, `hum_eff` does not change, every other register reads as before. On any
conforming, settled sensor it is stored too; and where the contents are known `hum_eff` does not change, a forced conversion
goes on with its bound or has ended before the write (R199), Normal goes on, and every register but the data and the mode
bits, which a conversion that ends changes, reads as before.
The scripts, and sensor time in 1/40 ms, are the model's choice (log entries 4 and 14). -/
def Obligations.HumidityControlStored : Prop :=
  (∀ s : State, s.world.sen.quiet = true → s.world.sen.regs.wf = true → s.world.env.okFor 1 →
    ∃ t, exec .wrCtrlHum s = .next t ∧ t.port = ⟨none, s.port.wdata, some (.ok [])⟩ ∧
      t.world.sen.reg 0xF2 = s.port.wdata ∧ (∀ a, a ≠ 0xF2 → t.world.sen.reg a = s.world.sen.reg a) ∧
      t.world.sen.humEff = s.world.sen.humEff ∧ t.world.sen.activity = s.world.sen.activity ∧
      t.ctl = s.ctl ∧ t.host = s.host ∧ t.trace = s.trace ++ [⟨0x000001F2, [s.port.wdata], .ok []⟩]) ∧
  (∀ s : State, s.world.sen.conforming = true → s.world.sen.settled = true → s.world.sen.regs.wf = true →
    s.world.env.okFor 1 →
    ∃ t, exec .wrCtrlHum s = .next t ∧ t.port = ⟨none, s.port.wdata, some (.ok [])⟩ ∧
      t.world.sen.ctrlHum = s.port.wdata ∧ t.world.sen.clock = s.world.sen.clock ∧
      t.ctl = s.ctl ∧ t.host = s.host ∧ t.trace = s.trace ++ [⟨0x000001F2, [s.port.wdata], .ok []⟩] ∧
      (s.world.sen.wild = false →
        t.world.sen.humEff = s.world.sen.humEff ∧
        (∀ a, a ≠ 0xF2 → a ≠ 0xF4 → (a < 0xF7 ∨ 0xFF ≤ a) → t.world.sen.reg a = s.world.sen.reg a) ∧
        (∀ bound deadline, s.world.sen.activity = .forced bound deadline →
          (s.world.sen.clock < deadline ∧ t.world.sen.activity = .forced bound deadline ∧
            t.world.sen.ctrlMeas = s.world.sen.ctrlMeas ∧ t.world.sen.data = s.world.sen.data) ∨
          (t.world.sen.activity = .idle ∧ t.world.sen.ctrlMeas = s.world.sen.ctrlMeas &&& 0xFC ∧
            s.world.env.sampleIs 0 t.world.sen.data)) ∧
        (∀ c f, s.world.sen.activity = .normal c f →
          t.world.sen.ctrlMeas = s.world.sen.ctrlMeas ∧
          (t.world.sen.data = s.world.sen.data ∨ s.world.env.sampleIs 0 t.world.sen.data) ∧
          ∃ c' f', t.world.sen.activity = .normal c' f' ∧ (f' = f ∨ f' = none))))

/-- WR_CONFIG of a conforming sensor (R201): in Sleep the byte is stored and every other register reads as before; outside
Sleep it is stored or ignored. The third clause is the instruction outside Sleep, where the sensor's own conversion may
have gone on before it (R199, R200): that alone can change the data and the mode bits. -/
def Obligations.ConfigStoredInSleep : Prop :=
  (∀ s : State, s.world.sen.quiet = true → s.world.sen.regs.wf = true → modeBits s.world.sen.ctrlMeas = 0b00 →
    s.world.env.okFor 1 →
    ∃ t, exec .wrConfig s = .next t ∧ t.port = ⟨none, s.port.wdata, some (.ok [])⟩ ∧
      t.world.sen.reg 0xF5 = s.port.wdata ∧ (∀ a, a ≠ 0xF5 → t.world.sen.reg a = s.world.sen.reg a) ∧
      t.world.sen.humEff = s.world.sen.humEff ∧ t.world.sen.activity = s.world.sen.activity ∧
      t.ctl = s.ctl ∧ t.host = s.host ∧ t.trace = s.trace ++ [⟨0x000001F5, [s.port.wdata], .ok []⟩]) ∧
  (∀ (w : World) (v : Byte), w.sen.conforming = true → w.sen.regs.wf = true → w.sen.asleep = false →
    ((w.storeConfig v).sen.config = v ∨ (w.storeConfig v).sen.config = w.sen.config) ∧
      ∀ a, a ≠ 0xF5 → (w.storeConfig v).sen.reg a = w.sen.reg a) ∧
  (∀ s : State, s.world.sen.conforming = true → s.world.sen.wild = false → s.world.sen.settled = true →
    s.world.sen.regs.wf = true → s.world.sen.asleep = false → s.world.env.okFor 1 →
    ∃ t, exec .wrConfig s = .next t ∧ t.port = ⟨none, s.port.wdata, some (.ok [])⟩ ∧
      (t.world.sen.config = s.port.wdata ∨ t.world.sen.config = s.world.sen.config) ∧
      t.world.sen.ctrlMeas &&& 0xFC = s.world.sen.ctrlMeas &&& 0xFC ∧ t.world.sen.humEff = s.world.sen.humEff ∧
      (∀ a, a ≠ 0xF5 → a ≠ 0xF4 → (a < 0xF7 ∨ 0xFF ≤ a) → t.world.sen.reg a = s.world.sen.reg a) ∧
      t.ctl = s.ctl ∧ t.host = s.host ∧ t.trace = s.trace ++ [⟨0x000001F5, [s.port.wdata], .ok []⟩])

/-- WR_CTRL_MEAS to a sensor idle in Sleep (R198): the byte is stored, `hum_eff` is loaded from `ctrl_hum[2:0]`, every other
register reads as before; 0b00 starts nothing, 0b01 and 0b10 start one forced conversion with its worst-case time as bound, and
0b11 enters Normal.
Sensor time in 1/40 ms is the model's choice (log entry 14). -/
def Obligations.ModeWriteOnIdleSensor : Prop :=
  ∀ s : State, s.world.sen.quiet = true → s.world.sen.regs.wf = true → modeBits s.world.sen.ctrlMeas = 0b00 →
    s.world.env.okFor 1 →
    ∃ t, exec .wrCtrlMeas s = .next t ∧ t.port = ⟨none, s.port.wdata, some (.ok [])⟩ ∧
      t.world.sen.reg 0xF4 = s.port.wdata ∧ (∀ a, a ≠ 0xF4 → t.world.sen.reg a = s.world.sen.reg a) ∧
      t.world.sen.humEff = byteField s.world.sen.ctrlHum 0 3 ∧
      t.ctl = s.ctl ∧ t.host = s.host ∧ t.trace = s.trace ++ [⟨0x000001F4, [s.port.wdata], .ok []⟩] ∧
      (let bound := ticksOfCodes (byteField s.port.wdata 5 3) (byteField s.port.wdata 2 3) (byteField s.world.sen.ctrlHum 0 3)
       (modeBits s.port.wdata = 0b00 → t.world.sen.activity = .idle) ∧
       (modeBits s.port.wdata = 0b01 ∨ modeBits s.port.wdata = 0b10 →
         t.world.sen.activity = .forced bound (s.world.sen.clock + bound)) ∧
       (modeBits s.port.wdata = 0b11 → t.world.sen.activity = .normal true (some (s.world.sen.clock + bound))))

/-- WR_CTRL_MEAS during a forced conversion of a conforming sensor (R198, R199): the byte is stored, and either the
conversion goes on or the write takes effect as on an idle sensor, in both cases with the larger bound, from now on. The
second clause is the instruction: the conversion may have ended before it, and must have once its bound has elapsed, and it
then finds an idle sensor; else its effect is that of the first clause, and the data are as before.
The larger bound is the model's reading (log entry 12), sensor time in 1/40 ms its choice (log entry 14). -/
def Obligations.ModeWriteDuringForcedConversion : Prop :=
  (∀ (w : World) (v : Byte) (bound0 deadline : Nat), w.sen.conforming = true → w.sen.regs.wf = true →
    w.sen.activity = .forced bound0 deadline →
    (w.storeCtrlMeas v).sen.ctrlMeas = v ∧ (∀ a, a ≠ 0xF4 → (w.storeCtrlMeas v).sen.reg a = w.sen.reg a) ∧
    (let b := max bound0 (ticksOfCodes (byteField v 5 3) (byteField v 2 3) (byteField w.sen.ctrlHum 0 3))
     (w.storeCtrlMeas v).sen.activity = .forced b (w.sen.clock + b) ∨
     (w.storeCtrlMeas v).sen.activity =
       (match decodeMode (modeBits v) with
        | .sleep => .idle
        | .forced => .forced b (w.sen.clock + b)
        | .normal => .normal true (some (w.sen.clock + b))))) ∧
  (∀ (s : State) (bound0 deadline : Nat), s.world.sen.conforming = true → s.world.sen.wild = false →
    s.world.sen.settled = true → s.world.sen.regs.wf = true → s.world.sen.activity = .forced bound0 deadline →
    s.world.env.okFor 1 →
    ∃ t, exec .wrCtrlMeas s = .next t ∧ t.port = ⟨none, s.port.wdata, some (.ok [])⟩ ∧
      t.world.sen.ctrlMeas = s.port.wdata ∧ t.world.sen.humEff = byteField s.world.sen.ctrlHum 0 3 ∧
      (∀ a, a ≠ 0xF4 → (a < 0xF7 ∨ 0xFF ≤ a) → t.world.sen.reg a = s.world.sen.reg a) ∧
      t.ctl = s.ctl ∧ t.host = s.host ∧ t.trace = s.trace ++ [⟨0x000001F4, [s.port.wdata], .ok []⟩] ∧
      (let clock := s.world.sen.clock
       let started (b : Nat) : Activity :=
         match decodeMode (modeBits s.port.wdata) with
         | .sleep => .idle
         | .forced => .forced b (clock + b)
         | .normal => .normal true (some (clock + b))
       let bound := ticksOfCodes (byteField s.port.wdata 5 3) (byteField s.port.wdata 2 3) (byteField s.world.sen.ctrlHum 0 3)
       t.world.sen.activity = started bound ∨
       (clock < deadline ∧ t.world.sen.data = s.world.sen.data ∧
         (t.world.sen.activity = .forced (max bound0 bound) (clock + max bound0 bound) ∨
          t.world.sen.activity = started (max bound0 bound)))))

/-- WR_RESET (R194). With 0xB6, to a conforming sensor in any mode, in the middle of a conversion and within 2 ms of another reset too: the three
control registers read 0x00, the data registers hold their reset contents, no conversion runs, `hum_eff` is 0, the
contents are known again, and the identity and calibration bytes are unchanged. Another byte has no effect
(R33): the sensor is what its own conversions make it up to that write, at rest unchanged.
The reset values and the clause about another byte are the spec's from general knowledge (log entries 15 and 16), the
settling time and what follows a mode write in Normal the model's (log entries 9, 10 and 14); that a reset write answered Ok takes
effect within 2 ms of another reset is its reading (log entry 29). -/
def Obligations.SoftResetOfSensor : Prop :=
  (∀ s : State, s.world.sen.conforming = true → s.world.sen.regs.wf = true →
    s.world.env.okFor 1 → s.port.wdata = 0xB6 →
    ∃ t, exec .wrReset s = .next t ∧ t.port = ⟨none, s.port.wdata, some (.ok [])⟩ ∧
      t.ctl = s.ctl ∧ t.host = s.host ∧ t.trace = s.trace ++ [⟨0x000001E0, [0xB6], .ok []⟩] ∧
      t.world.sen.ctrlHum = 0 ∧ t.world.sen.ctrlMeas = 0 ∧ t.world.sen.config = 0 ∧
      t.world.sen.data = [0x80, 0, 0, 0x80, 0, 0, 0x80, 0] ∧ t.world.sen.humEff = 0 ∧ t.world.sen.activity = .idle ∧
      t.world.sen.wild = false ∧ t.world.sen.settleAt = s.world.sen.clock + 80 ∧
      ∀ a, changeable a = false → t.world.sen.reg a = s.world.sen.reg a) ∧
  (∀ s : State, s.world.sen.conforming = true → s.world.env.okFor 1 → s.port.wdata ≠ 0xB6 →
    ∃ t, exec .wrReset s = .next t ∧ t.port = ⟨none, s.port.wdata, some (.ok [])⟩ ∧
      t.ctl = s.ctl ∧ t.host = s.host ∧ t.trace = s.trace ++ [⟨0x000001E0, [s.port.wdata], .ok []⟩] ∧
      t.world.sen = s.world.evolve.sen ∧ (s.world.sen.quiet = true → t.world.sen = s.world.sen))

/-- Failed writes on a conforming sensor. R205, for each of the four WRITEs, in every state of the sensor, and whether the
failure is scripted or the oracle's: the answer is `BusError`, and the sensor is as if the write had not been made or as if it
had, each of the two by some draw; `w0` is the sensor when the transaction comes, at rest the sensor as it was. R227 and U1, for
every command run from an idle state: its trace is that of the micro-operations it made, and if it ends with an error the
sensor is then what `World.unsettled` leaves, if with OK what those left. Of `World.unsettled`: a register that no WRITE named
reads as before, one that a WRITE of it named can hold any byte, and reads alone change nothing.
The draws are the model's (log entry 4), and what a reset write and a mode write may have touched beside their own register is
its reading (log entry 13). -/
def Obligations.FailedWriteMayHaveTakenEffect : Prop :=
  (∀ (op : MicroOp) (effect : World → World) (s : State), s.world.sen.conforming = true →
    s.world.env.okAt 0 = false →
    (op, effect) ∈ [(MicroOp.wrReset, World.softReset s.port.wdata), (.wrCtrlHum, World.storeCtrlHum s.port.wdata),
      (.wrCtrlMeas, World.storeCtrlMeas s.port.wdata), (.wrConfig, World.storeConfig s.port.wdata)] →
    ∃ t, exec op.instr s = .next t ∧ t.port = ⟨none, s.port.wdata, some .error⟩ ∧ t.ctl = s.ctl ∧ t.host = s.host ∧
      t.trace = s.trace ++ [⟨op.word, [s.port.wdata], .error⟩] ∧
      (let w0 := s.world.evolve
       (s.world.sen.quiet = true → w0 = s.world) ∧
       (t.world.sen = w0.sen ∨ ∃ w, w.sen = w0.sen ∧ t.world.sen = (effect w).sen) ∧
       (∀ ds, w0.env.draws = 0 :: ds → t.world.sen = w0.sen) ∧
       (∀ ds, w0.env.draws = 1 :: ds → ∃ w, w.sen = w0.sen ∧ w.env.draws = ds ∧ t.world.sen = (effect w).sen))) ∧
  (∀ (i : Instr) (s t : State), i.port = .command → s.ctl.seq = .idle → exec i s = .next t →
    ∃ (l : List Exchange) (w : World) (r : Result), follow l s.world = some w ∧
      t.trace = s.trace ++ l.map Exchange.entry ∧ t.host.result = some r ∧
      (r.status ≠ .ok → t.world = w.unsettled (l.map Exchange.op)) ∧ (r.status = .ok → t.world.sen = w.sen)) ∧
  (∀ (ops : List MicroOp) (w : World), w.sen.conforming = true →
    ((∀ op ∈ ops, op.data 0 = []) → w.unsettled ops = w) ∧
    (MicroOp.wrReset ∉ ops →
      (MicroOp.wrCtrlHum ∉ ops → (w.unsettled ops).sen.ctrlHum = w.sen.ctrlHum) ∧
      (MicroOp.wrConfig ∉ ops → (w.unsettled ops).sen.config = w.sen.config) ∧
      (MicroOp.wrCtrlMeas ∉ ops → (w.unsettled ops).sen.ctrlMeas = w.sen.ctrlMeas ∧
        (w.unsettled ops).sen.data = w.sen.data ∧ (w.unsettled ops).sen.humEff = w.sen.humEff ∧
        (w.unsettled ops).sen.activity = w.sen.activity)) ∧
    (∀ a, changeable a = false → (w.unsettled ops).sen.reg a = w.sen.reg a)) ∧
  (∀ (w : World) (v : Byte) (ds : List Nat), w.sen.conforming = true → w.sen.regs.wf = true →
    w.env.draws = v.toNat :: ds →
    (w.unsettled [.wrCtrlHum]).sen.ctrlHum = v ∧ (w.unsettled [.wrConfig]).sen.config = v ∧
    (w.unsettled [.wrCtrlMeas]).sen.ctrlMeas = v)

/-- Without the conforming premise a read is answered with whatever the oracle gives (R190, R40): any outcome, any bytes.
The script, and its answers cut to length, are the model's (log entry 4). -/
def Obligations.OracleAnswersAnything : Prop :=
  ∀ (s : State) (r : Reply) (rs : List Reply), s.world.sen.conforming = false → s.world.env.replies = r :: rs →
    (∃ t, exec .rdId s = .next t ∧ t.port.reply = some (fitReply 1 r)) ∧
    (∃ t, exec .rdCalibTp s = .next t ∧ t.port.reply = some (fitReply 26 r)) ∧
    (∃ t, exec .rdCalibH s = .next t ∧ t.port.reply = some (fitReply 7 r)) ∧
    (∃ t, exec .rdCtrlHum s = .next t ∧ t.port.reply = some (fitReply 1 r)) ∧
    (∃ t, exec .rdCtrlMeas s = .next t ∧ t.port.reply = some (fitReply 1 r)) ∧
    (∃ t, exec .rdConfig s = .next t ∧ t.port.reply = some (fitReply 1 r)) ∧
    (∃ t, exec .rdData s = .next t ∧ t.port.reply = some (fitReply 8 r))

/-- WAIT (R204): it completes in every state, cannot fail, makes no transaction, and advances sensor time by at least `ms`
milliseconds; the registers of a sensor at rest read as before.
Sensor time in 1/40 ms is the model's choice (log entry 14). -/
def Obligations.WaitAdvancesTime : Prop :=
  ∀ (ms : Nat) (s : State),
    ∃ t, exec (.wait ms) s = .next t ∧ t.port = ⟨none, s.port.wdata, some (.ok [])⟩ ∧ t.ctl = s.ctl ∧ t.host = s.host ∧
      s.world.sen.clock + 40 * ms ≤ t.world.sen.clock ∧ t.trace = s.trace ++ [⟨encode (.wait ms), [], .ok []⟩] ∧
      t.world.env.replies = s.world.env.replies ∧ t.world.env.nReplies = s.world.env.nReplies ∧
      (s.world.sen.quiet = true → ∀ a, t.world.sen.reg a = s.world.sen.reg a)

/-- A forced conversion of a conforming sensor has ended after a wait of at least what remains of its bound (R199): it is
not busy, the mode bits read Sleep, the data registers hold a new sample, and the other bits of `ctrl_meas` and every other
register keep their values.
The script, and sensor time in 1/40 ms, are the model's choice (log entries 4 and 14). -/
def Obligations.ForcedConversionEndsInTime : Prop :=
  ∀ (s : State) (bound deadline ms : Nat), s.world.sen.conforming = true → s.world.sen.wild = false →
    s.world.sen.regs.wf = true → s.world.sen.activity = .forced bound deadline →
    deadline ≤ s.world.sen.clock + 40 * ms →
    ∃ t, exec (.wait ms) s = .next t ∧ t.world.sen.busy = false ∧
      t.world.sen.ctrlMeas = s.world.sen.ctrlMeas &&& 0xFC ∧ s.world.env.sampleIs 0 t.world.sen.data ∧
      ∀ a, a ≠ 0xF4 → (a < 0xF7 ∨ 0xFF ≤ a) → t.world.sen.reg a = s.world.sen.reg a

/-- Normal mode of a conforming sensor (R200). Every micro-operation but a reset write and a mode write, whose effect in
Normal R198 leaves open, keeps the sensor in Normal with `ctrl_meas` as it was: the mode bits read 0b11 until a soft reset. Once
the bound of the first sample has elapsed, that sample has come and the data registers hold it; no other register changes. A
mode write there completes, and from then on the contents are any until a soft reset (R198): every micro-operation but a
reset write leaves them so, and a read of 0xF2, 0xF4, 0xF5 or the data is answered with any bytes, by some draws.
The draws and samples, the schedule, sensor time in 1/40 ms and how any contents are held are the model's (log entries 4, 9, 14
and 24). -/
def Obligations.NormalModeOfSensor : Prop :=
  (∀ (op : MicroOp) (s : State) (converting : Bool) (firstBy : Option Nat), s.world.sen.conforming = true →
    s.world.sen.wild = false → s.world.sen.regs.wf = true → s.world.sen.activity = .normal converting firstBy →
    op ≠ .wrReset → op ≠ .wrCtrlMeas →
    ∃ t c f, exec op.instr s = .next t ∧ t.world.sen.activity = .normal c f ∧ (f = firstBy ∨ f = none) ∧
      t.world.sen.ctrlMeas = s.world.sen.ctrlMeas ∧ t.world.sen.wild = false) ∧
  (∀ (s : State) (converting : Bool) (deadline ms : Nat), s.world.sen.conforming = true → s.world.sen.wild = false →
    s.world.sen.regs.wf = true → s.world.sen.activity = .normal converting (some deadline) →
    deadline ≤ s.world.sen.clock + 40 * ms →
    ∃ t c, exec (.wait ms) s = .next t ∧ t.world.sen.activity = .normal c none ∧
      s.world.env.sampleIs 0 t.world.sen.data ∧
      ∀ a, a < 0xF7 ∨ 0xFF ≤ a → t.world.sen.reg a = s.world.sen.reg a) ∧
  (∀ (s : State) (converting : Bool) (firstBy : Option Nat), s.world.sen.conforming = true →
    s.world.sen.wild = false → s.world.sen.settled = true → s.world.sen.activity = .normal converting firstBy →
    modeBits s.world.sen.ctrlMeas = 0b11 → s.world.env.okFor 1 →
    ∃ t, exec .wrCtrlMeas s = .next t ∧ t.port = ⟨none, s.port.wdata, some (.ok [])⟩ ∧ t.world.sen.wild = true ∧
      t.ctl = s.ctl ∧ t.host = s.host ∧ t.trace = s.trace ++ [⟨0x000001F4, [s.port.wdata], .ok []⟩]) ∧
  (∀ (op : MicroOp) (s : State), s.world.sen.wild = true → op ≠ .wrReset →
    ∃ t, exec op.instr s = .next t ∧ t.world.sen.wild = true) ∧
  (∀ (s : State) (v : Byte) (n d1 d2 d3 : Nat) (ds : List Nat), s.world.sen.conforming = true → s.world.sen.wild = true →
    s.world.sen.settled = true → s.world.sen.regs.wf = true → s.world.env.okFor 1 → n < 256 ^ 8 →
    (s.world.env.draws = v.toNat :: ds →
      ∃ t, exec .rdCtrlHum s = .next t ∧ t.port = ⟨none, s.port.wdata, some (.ok [v])⟩) ∧
    (s.world.env.draws = d1 :: v.toNat :: ds →
      ∃ t, exec .rdCtrlMeas s = .next t ∧ t.port = ⟨none, s.port.wdata, some (.ok [v])⟩) ∧
    (s.world.env.draws = d1 :: d2 :: v.toNat :: ds →
      ∃ t, exec .rdConfig s = .next t ∧ t.port = ⟨none, s.port.wdata, some (.ok [v])⟩) ∧
    (s.world.env.draws = d1 :: d2 :: d3 :: n :: ds →
      ∃ t, exec .rdData s = .next t ∧ t.port = ⟨none, s.port.wdata, some (.ok (bytesOf 8 n))⟩))

/-- INIT recovers (R131, R265), on every conforming sensor, settled or not, in any mode, whatever its registers hold, and
whatever the block's state was: with no bus error it ends with OK where its first identity read is answered 0x60, as that of a
settled sensor is; and whenever it ends with OK, the coefficients are those of the sensor's calibration bytes, and the sensor is
back in Sleep with its reset contents, asleep and settled.
The reset contents are the spec's from general knowledge (log entry 16); that a soft reset ends what a mode write in Normal
left open, and that the calibration bytes outlast it, is the model's reading (log entry 9), and so is it that the reset write
has its effect on a sensor that a reset write just failed has left unsettled (log entry 29). -/
def Obligations.InitRecoversAnySensor : Prop :=
  (∀ s : State, s.ctl.seq = .idle → s.world.sen.conforming = true →
    (s.world.sen.settled = true ∨ ∃ rs, s.world.env.replies = .ok [0x60] :: rs) → s.world.env.okFor 4 →
    ∃ t, exec .init s = .next t ∧ t.host.result = some ⟨.ok, .none, none⟩) ∧
  (∀ s t : State, s.ctl.seq = .idle → s.world.sen.conforming = true → s.world.sen.regs.wf = true →
    exec .init s = .next t → t.host.result.map Result.status = some .ok →
    t.ctl = ⟨true, .sleep, some (parseCalib (s.world.sen.burst 0x88 26) (s.world.sen.burst 0xE1 7)), .idle⟩ ∧
      t.world.sen.ctrlHum = 0 ∧ t.world.sen.ctrlMeas = 0 ∧ t.world.sen.config = 0 ∧
      t.world.sen.data = [0x80, 0, 0, 0x80, 0, 0, 0x80, 0] ∧ t.world.sen.humEff = 0 ∧ t.world.sen.quiet = true ∧
      ∀ a, changeable a = false → t.world.sen.reg a = s.world.sen.reg a)

/-- The round trip on a conforming sensor in Sleep (R120): with no bus error, SET_SETTINGS then GET_SETTINGS returns the decoded
codes of what was set, whatever the registers held. -/
def Obligations.SettingsRoundTrip : Prop :=
  ∀ (s : State) (st : Settings), s.ctl.seq = .idle → s.world.sen.quiet = true → s.world.sen.regs.wf = true →
    modeBits s.world.sen.ctrlMeas = 0b00 → s.world.env.okFor 10 →
    ∃ t u, exec (.setSettings st) s = .next t ∧ exec .getSettings t = .next u ∧
      t.host.result = some ⟨.ok, .none, none⟩ ∧ t.ctl = s.ctl ∧
      u.host.result = some ⟨.ok, .settings ⟨st.tSb, decodeFilter st.filter, decodeOsrs st.osrsT, decodeOsrs st.osrsP,
        decodeOsrs st.osrsH⟩, none⟩

/-- SLEEP on a conforming sensor in any mode (R136, R139, R140): with no bus error it leaves a settled sensor whose contents
are known in Sleep with no conversion running, the decoded Settings it had in its registers, its mode bits 0b00, and `ctl.mode =
Sleep`. On every conforming sensor, whatever was done to it before, a SLEEP that ends with OK leaves the sensor in a known state
(R265): at rest in Sleep, with the decoded Settings of the three bytes the command's own first reads were answered with, and the
reset contents in its data registers (R194); `hum_eff` is the humidity code written, which the mode write loads (R198).
The reset contents are the spec's from general knowledge (log entry 16); that a soft reset ends what a mode write in Normal
left open, and that the identity and calibration bytes outlast it, is the model's reading (log entry 9), and so is it that the
reset write has its effect on a sensor that a reset write just failed has left unsettled (log entry 29). -/
def Obligations.SleepReachesSleep : Prop :=
  (∀ s : State, s.ctl.seq = .idle → s.world.sen.conforming = true → s.world.sen.wild = false → s.world.sen.settled = true →
    s.world.sen.regs.wf = true → s.world.env.okFor 10 →
    ∃ t, exec .sleep s = .next t ∧ t.ctl = { s.ctl with mode := .sleep } ∧ t.host.result = some ⟨.ok, .none, none⟩ ∧
      t.world.sen.asleep = true ∧
      (let st := decodeSettings s.world.sen.ctrlHum s.world.sen.ctrlMeas s.world.sen.config
       t.world.sen.ctrlHum = humBits st ∧ t.world.sen.ctrlMeas = measBits st ∧ t.world.sen.config = configBits st) ∧
      ∀ a, changeable a = false → t.world.sen.reg a = s.world.sen.reg a) ∧
  (∀ s t : State, s.ctl.seq = .idle → s.world.sen.conforming = true → s.world.sen.regs.wf = true →
    exec .sleep s = .next t → t.host.result.map Result.status = some .ok →
    t.ctl = { s.ctl with mode := .sleep } ∧ t.world.sen.quiet = true ∧ t.world.sen.asleep = true ∧
      t.world.sen.data = [0x80, 0, 0, 0x80, 0, 0, 0x80, 0] ∧
      (∀ a, changeable a = false → t.world.sen.reg a = s.world.sen.reg a) ∧
      ∃ (xh xm xc : Byte) (l : List TraceEntry),
        t.trace = s.trace ++ (settingsRead xh xm xc).map Exchange.entry ++ l ∧
        (let st := decodeSettings xh xm xc
         t.world.sen.ctrlHum = humBits st ∧ t.world.sen.ctrlMeas = measBits st ∧ t.world.sen.config = configBits st ∧
           t.world.sen.humEff = st.osrsH))
end

