-- ==== Sys2Proof/Laws/Decode.lean ====
section
/-! SUPPORT. The bit fields of the two word formats as numbers, and the decoding of what the block issues. -/

namespace Sys2Proof

/-- A bit field as a number (R8). -/
theorem bitField_toNat (w : Word) (lo len : Nat) : (bitField w lo len).toNat = w.toNat / 2 ^ lo % 2 ^ len := by
  simp [bitField, BitVec.extractLsb'_toNat, Nat.shiftRight_eq_div_pow]

/-- Concatenation as a number: the left part is the high part (R8). -/
theorem append_toNat {m n : Nat} (a : BitVec m) (b : BitVec n) : (a ++ b).toNat = a.toNat * 2 ^ n + b.toNat := by
  rw [BitVec.toNat_append, Nat.shiftLeft_eq, Nat.mul_comm, Nat.two_pow_add_eq_or_of_lt b.isLt]

theorem commandWord_toNat (op : BitVec 4) (x : BitVec 15) :
    (commandWord op x).toNat = op.toNat * 2 ^ 28 + x.toNat := by
  simp only [commandWord, append_toNat]
  simp
  omega

theorem busWord_toNat (k : BitVec 2) (l a : BitVec 8) :
    (busWord k l a).toNat = k.toNat * 2 ^ 30 + l.toNat * 2 ^ 8 + a.toNat := by
  simp only [busWord, append_toNat]
  simp
  omega

theorem operand_toNat (st : Settings) :
    (operandOfSettings st).toNat =
      st.tSb.toNat * 4096 + st.filter.toNat * 512 + st.osrsT.toNat * 64 + st.osrsP.toNat * 8 + st.osrsH.toNat := by
  simp only [operandOfSettings, append_toNat]
  omega

theorem waitWord_toNat (ms : Nat) (h : ms < 65536) : (encode (.wait ms)).toNat = 2 ^ 31 + ms := by
  simp only [encode, append_toNat]
  simp
  omega

end Sys2Proof

namespace Sys2Proof.Machine

/-- The words the block can issue decode, on the micro-operation port, to their instruction. -/
theorem decode_microOp_word (op : MicroOp) (h : op.instr.wf = true) : decode .microOp op.word = .ok op.instr := by
  cases op
  case wait ms =>
    simp only [MicroOp.instr, Instr.wf, decide_eq_true_eq] at h
    have hn := waitWord_toNat ms h
    have h1 : bitField (encode (.wait ms)) 16 14 = 0 := by
      apply BitVec.eq_of_toNat_eq; rw [bitField_toNat, hn]; simp; omega
    have h2 : (bitField (encode (.wait ms)) 30 2).toNat = 2 := by rw [bitField_toNat, hn]; omega
    have h3 : (bitField (encode (.wait ms)) 0 16).toNat = ms := by rw [bitField_toNat, hn]; omega
    simp only [decode, decodeMicroOp, MicroOp.word, MicroOp.instr, h1, h2, h3]
    rfl
  all_goals decide

/-- The meaning of a micro-operation word is its transaction. -/
theorem exec_microOp (op : MicroOp) (s : State) : exec op.instr s = .next (perform op s) := by cases op <;> rfl

/-- Every instruction of the micro-operation port is one of the block's micro-operations. -/
theorem exists_microOp {i : Instr} (h : i.port = .microOp) : ∃ op : MicroOp, op.instr = i := by
  cases i
  case rdId => exact ⟨.rdId, rfl⟩
  case wrReset => exact ⟨.wrReset, rfl⟩
  case rdCalibTp => exact ⟨.rdCalibTp, rfl⟩
  case rdCalibH => exact ⟨.rdCalibH, rfl⟩
  case rdCtrlHum => exact ⟨.rdCtrlHum, rfl⟩
  case wrCtrlHum => exact ⟨.wrCtrlHum, rfl⟩
  case rdCtrlMeas => exact ⟨.rdCtrlMeas, rfl⟩
  case wrCtrlMeas => exact ⟨.wrCtrlMeas, rfl⟩
  case rdConfig => exact ⟨.rdConfig, rfl⟩
  case wrConfig => exact ⟨.wrConfig, rfl⟩
  case rdData => exact ⟨.rdData, rfl⟩
  case wait ms => exact ⟨.wait ms, rfl⟩
  all_goals simp [Instr.port] at h

end Sys2Proof.Machine
end

