-- ==== Sys2Proof/Laws/Codec.lean ====
section
/-! SUPPORT. The register bytes as concatenations of their fields, and the calibration and timing values as numbers. -/

namespace Sys2Proof.Machine

/-- A field of a register byte as a number (R8). -/
theorem byteField_toNat (v : Byte) (lo len : Nat) : (byteField v lo len).toNat = v.toNat / 2 ^ lo % 2 ^ len := by
  simp [byteField, BitVec.extractLsb'_toNat, Nat.shiftRight_eq_div_pow]

/-! ## Fields of a byte made of fields -/

theorem byteField_high (a b : Code) (m : BitVec 2) : byteField (a ++ b ++ m : Byte) 5 3 = a := by
  apply BitVec.eq_of_toNat_eq
  rw [byteField_toNat, append_toNat, append_toNat]
  have := a.isLt; have := b.isLt; have := m.isLt
  omega

theorem byteField_middle (a b : Code) (m : BitVec 2) : byteField (a ++ b ++ m : Byte) 2 3 = b := by
  apply BitVec.eq_of_toNat_eq
  rw [byteField_toNat, append_toNat, append_toNat]
  have := a.isLt; have := b.isLt; have := m.isLt
  omega

theorem byteField_low (a b : Code) (m : BitVec 2) : byteField (a ++ b ++ m : Byte) 0 2 = m := by
  apply BitVec.eq_of_toNat_eq
  rw [byteField_toNat, append_toNat, append_toNat]
  have := a.isLt; have := b.isLt; have := m.isLt
  omega

theorem byteField_hum (a : BitVec 5) (b : Code) : byteField (a ++ b : Byte) 0 3 = b := by
  apply BitVec.eq_of_toNat_eq
  rw [byteField_toNat, append_toNat]
  have := a.isLt; have := b.isLt
  omega

/-! ## The bytes the codec writes -/

/-- A byte agrees with another on its eight bits. -/
theorem byte_ext {x y : Byte} (h : ∀ i, i = 0 ∨ i = 1 ∨ i = 2 ∨ i = 3 ∨ i = 4 ∨ i = 5 ∨ i = 6 ∨ i = 7 →
    x.getLsbD i = y.getLsbD i) : x = y :=
  BitVec.eq_of_getLsbD_eq fun i hi => h i (by omega)

/-- The write to 0xF4 or 0xF5 replaces the two 3-bit fields and keeps bits [1:0] as read (R117). -/
theorem rmwByte_upper (x : Byte) (a b : Code) :
    rmwByte x 0xFC (a ++ b ++ (0 : BitVec 2)) = a ++ b ++ byteField x 0 2 := by
  apply byte_ext
  rintro i (rfl | rfl | rfl | rfl | rfl | rfl | rfl | rfl) <;>
    (simp only [rmwByte, byteField, BitVec.getLsbD_append, BitVec.getLsbD_extractLsb', BitVec.getLsbD_or,
      BitVec.getLsbD_and, BitVec.getLsbD_not]; simp)

/-- The write to 0xF2 replaces the humidity code and keeps bits [7:3] as read (R116). -/
theorem rmwByte_hum (x : Byte) (a : Code) : rmwByte x 0x07 ((0 : BitVec 5) ++ a) = byteField x 3 5 ++ a := by
  apply byte_ext
  rintro i (rfl | rfl | rfl | rfl | rfl | rfl | rfl | rfl) <;>
    (simp only [rmwByte, byteField, BitVec.getLsbD_append, BitVec.getLsbD_extractLsb', BitVec.getLsbD_or,
      BitVec.getLsbD_and, BitVec.getLsbD_not]; simp)

/-- Clearing the mode bits of a control byte (R199). -/
theorem and_clears_mode (a b : Code) (m : BitVec 2) : (a ++ b ++ m) &&& (0xFC : Byte) = a ++ b ++ (0 : BitVec 2) := by
  apply byte_ext
  rintro i (rfl | rfl | rfl | rfl | rfl | rfl | rfl | rfl) <;>
    (simp only [BitVec.getLsbD_append, BitVec.getLsbD_and]; simp)

theorem modeBits_cleared (x : Byte) : modeBits (x &&& 0xFC) = 0 := by revert x; decide

/-- `decodeSettings` does not see the mode bits (R118). -/
theorem decodeSettings_ignores_mode {xh xm xm' xc : Byte} (h : xm &&& 0xFC = xm' &&& 0xFC) :
    decodeSettings xh xm xc = decodeSettings xh xm' xc := by
  have k : ∀ x : Byte, byteField x 5 3 = byteField (x &&& 0xFC) 5 3 ∧ byteField x 2 3 = byteField (x &&& 0xFC) 2 3 := by
    decide
  unfold decodeSettings
  rw [(k xm).1, (k xm).2, (k xm').1, (k xm').2, h]

/-! ## Calibration and timing -/

/-- A little-endian word as a number (R51). -/
theorem wordAt_toNat (b : List Byte) (i : Nat) :
    (wordAt b i).toNat = (byteAt b i).toNat + 256 * (byteAt b (i + 1)).toNat := by
  rw [wordAt, append_toNat]; omega

/-- `coefT` is at most 16 (R150). -/
theorem coefT_le (c : Code) : coefT c ≤ 16 := by revert c; decide

/-- The forced wait lies in 2..113 (R153). -/
theorem measWaitMs_range (st : Settings) : 2 ≤ measWaitMs st ∧ measWaitMs st ≤ 113 := by
  have h1 := coefT_le st.osrsT; have h2 := coefT_le st.osrsP; have h3 := coefT_le st.osrsH
  simp only [measWaitMs, t40, ticksOfCodes, channelTicks]
  split <;> split <;> omega

end Sys2Proof.Machine
end

