-- ==== Sys2Proof/Laws/State.lean ====
section
/-! SUPPORT. One lemma per field per update of State, true by rfl, so that no later proof unfolds a record update. -/

namespace Sys2Proof.Machine

/-! ## issue -/

@[simp] theorem issue_initialized (s : State) (j rs w v) : (s.issue j rs w v).ctl.initialized = s.ctl.initialized := rfl
@[simp] theorem issue_mode (s : State) (j rs w v) : (s.issue j rs w v).ctl.mode = s.ctl.mode := rfl
@[simp] theorem issue_calib (s : State) (j rs w v) : (s.issue j rs w v).ctl.calib = s.ctl.calib := rfl
@[simp] theorem issue_seq (s : State) (j rs w v) : (s.issue j rs w v).ctl.seq = .busy j rs := rfl
@[simp] theorem issue_host (s : State) (j rs w v) : (s.issue j rs w v).host = s.host := rfl
@[simp] theorem issue_uop (s : State) (j rs w v) : (s.issue j rs w v).port.uop = some w := rfl
@[simp] theorem issue_wdata (s : State) (j rs w v) : (s.issue j rs w v).port.wdata = v := rfl
@[simp] theorem issue_trace (s : State) (j rs w v) : (s.issue j rs w v).trace = s.trace := rfl
@[simp] theorem issue_world (s : State) (j rs w v) : (s.issue j rs w v).world = s.world := rfl

/-! ## perform -/

@[simp] theorem perform_ctl (op : MicroOp) (s : State) : (perform op s).ctl = s.ctl := rfl
@[simp] theorem perform_host (op : MicroOp) (s : State) : (perform op s).host = s.host := rfl
@[simp] theorem perform_uop (op : MicroOp) (s : State) : (perform op s).port.uop = none := rfl
@[simp] theorem perform_wdata (op : MicroOp) (s : State) : (perform op s).port.wdata = s.port.wdata := rfl
@[simp] theorem perform_trace (op : MicroOp) (s : State) :
    (perform op s).trace = s.trace ++ [⟨op.word, op.data s.port.wdata, (transact op s.port.wdata s.world).1⟩] := rfl
@[simp] theorem perform_world (op : MicroOp) (s : State) :
    (perform op s).world = (transact op s.port.wdata s.world).2 := rfl
@[simp] theorem perform_lastReply (op : MicroOp) (s : State) :
    (perform op s).lastReply = (transact op s.port.wdata s.world).1 := rfl

/-! ## writeCtl -/

@[simp] theorem writeCtl_seq (s : State) (c : CtlWrite) : (s.writeCtl c).ctl.seq = s.ctl.seq := by cases c <;> rfl
@[simp] theorem writeCtl_host (s : State) (c : CtlWrite) : (s.writeCtl c).host = s.host := by cases c <;> rfl
@[simp] theorem writeCtl_port (s : State) (c : CtlWrite) : (s.writeCtl c).port = s.port := by cases c <;> rfl
@[simp] theorem writeCtl_trace (s : State) (c : CtlWrite) : (s.writeCtl c).trace = s.trace := by cases c <;> rfl
@[simp] theorem writeCtl_world (s : State) (c : CtlWrite) : (s.writeCtl c).world = s.world := by cases c <;> rfl
@[simp] theorem writeCtl_initialized_initialized (s : State) (b) :
    (s.writeCtl (.initialized b)).ctl.initialized = b := rfl
@[simp] theorem writeCtl_initialized_mode (s : State) (b) : (s.writeCtl (.initialized b)).ctl.mode = s.ctl.mode := rfl
@[simp] theorem writeCtl_initialized_calib (s : State) (b) : (s.writeCtl (.initialized b)).ctl.calib = s.ctl.calib := rfl
@[simp] theorem writeCtl_mode_initialized (s : State) (m) : (s.writeCtl (.mode m)).ctl.initialized = s.ctl.initialized := rfl
@[simp] theorem writeCtl_mode_mode (s : State) (m) : (s.writeCtl (.mode m)).ctl.mode = m := rfl
@[simp] theorem writeCtl_mode_calib (s : State) (m) : (s.writeCtl (.mode m)).ctl.calib = s.ctl.calib := rfl
@[simp] theorem writeCtl_calib_initialized (s : State) (c) : (s.writeCtl (.calib c)).ctl.initialized = s.ctl.initialized := rfl
@[simp] theorem writeCtl_calib_mode (s : State) (c) : (s.writeCtl (.calib c)).ctl.mode = s.ctl.mode := rfl
@[simp] theorem writeCtl_calib_calib (s : State) (c) : (s.writeCtl (.calib c)).ctl.calib = some c := rfl

/-! ## finish, raise and refuse -/

@[simp] theorem finish_initialized (s : State) (r) : (s.finish r).ctl.initialized = s.ctl.initialized := rfl
@[simp] theorem finish_mode (s : State) (r) : (s.finish r).ctl.mode = s.ctl.mode := rfl
@[simp] theorem finish_calib (s : State) (r) : (s.finish r).ctl.calib = s.ctl.calib := rfl
@[simp] theorem finish_seq (s : State) (r) : (s.finish r).ctl.seq = .idle := rfl
@[simp] theorem finish_result (s : State) (r) : (s.finish r).host.result = some r := rfl
@[simp] theorem finish_cmd (s : State) (r) : (s.finish r).host.cmd = s.host.cmd := rfl
@[simp] theorem finish_queue (s : State) (r) : (s.finish r).host.queue = s.host.queue := rfl
@[simp] theorem finish_uop (s : State) (r) : (s.finish r).port.uop = none := rfl
@[simp] theorem finish_trace (s : State) (r) : (s.finish r).trace = s.trace := rfl
@[simp] theorem finish_world (s : State) (r) : (s.finish r).world = s.world := rfl

theorem finishOk_eq (s : State) (p) : s.finishOk p = s.finish ⟨.ok, p, none⟩ := rfl
theorem raise_eq (s : State) (e f) : s.raise e f = s.finish ⟨e, .none, f⟩ := rfl

@[simp] theorem refuse_ctl (s : State) : s.refuse.ctl = s.ctl := rfl
@[simp] theorem refuse_port (s : State) : s.refuse.port = s.port := rfl
@[simp] theorem refuse_trace (s : State) : s.refuse.trace = s.trace := rfl
@[simp] theorem refuse_world (s : State) : s.refuse.world = s.world := rfl
@[simp] theorem refuse_cmd (s : State) : s.refuse.host.cmd = s.host.cmd := rfl
@[simp] theorem refuse_queue (s : State) : s.refuse.host.queue = s.host.queue := rfl
@[simp] theorem refuse_result (s : State) : s.refuse.host.result = some ⟨.refused, .none, none⟩ := rfl

/-! ## blockReset -/

@[simp] theorem blockReset_ctl (s : State) : s.blockReset.ctl = ⟨false, .sleep, none, .idle⟩ := rfl
@[simp] theorem blockReset_port (s : State) : s.blockReset.port = ⟨none, 0, none⟩ := rfl
@[simp] theorem blockReset_cmd (s : State) : s.blockReset.host.cmd = s.host.cmd := rfl
@[simp] theorem blockReset_queue (s : State) : s.blockReset.host.queue = s.host.queue := rfl
@[simp] theorem blockReset_result (s : State) : s.blockReset.host.result = none := rfl
@[simp] theorem blockReset_trace (s : State) : s.blockReset.trace = s.trace := rfl
@[simp] theorem blockReset_world (s : State) : s.blockReset.world = s.world := rfl

end Sys2Proof.Machine
end

