-- ==== Sys2Proof/Laws/Memory.lean ====
section
/-! SUPPORT. The register memory: a read after a write, and the canonical form that every operation keeps. -/

namespace Sys2Proof.Machine

theorem Memory.wf_nil : Memory.wf [] = true := rfl

theorem Memory.wf_cons {a : Nat} {v : Byte} {m : Memory} :
    Memory.wf ((a, v) :: m) = true ↔
      a < 256 ∧ v ≠ blankByte a ∧ (∀ c ∈ m, a < c.1) ∧ Memory.wf m = true := by
  simp [Memory.wf, and_assoc]

/-- Below every listed address nothing is listed. -/
theorem Memory.read_blank {m : Memory} {a : Nat} (h : ∀ c ∈ m, a < c.1) : m.read a = blankByte a := by
  induction m with
  | nil => rfl
  | cons c m ih =>
    obtain ⟨b, x⟩ := c
    have hb : a < b := h (b, x) (by simp)
    simp [Memory.read, Nat.ne_of_lt hb, ih (fun c hc => h c (by simp [hc]))]

/-- Every entry after a write is an old one or the written address. -/
theorem Memory.mem_write {m : Memory} {a : Nat} {v : Byte} {c : Host.Cell} (h : c ∈ m.write a v) : c ∈ m ∨ c.1 = a := by
  induction m with
  | nil =>
    simp only [Memory.write] at h
    split at h <;> simp_all
  | cons d m ih =>
    obtain ⟨b, x⟩ := d
    simp only [Memory.write] at h
    split at h
    · split at h
      · exact .inl h
      · rcases List.mem_cons.1 h with rfl | h
        · exact .inr rfl
        · exact .inl h
    · split at h
      · split at h
        · exact .inl (by simp [h])
        · simp at h ⊢; rcases h with h | h <;> simp [h]
      · simp at h ⊢
        rcases h with h | h
        · simp [h]
        · rcases ih h with h | h <;> simp [h]

/-- A write keeps the canonical form. -/
theorem Memory.write_wf {m : Memory} {a : Nat} {v : Byte} (hm : m.wf = true) (ha : a < 256) : (m.write a v).wf = true := by
  induction m with
  | nil =>
    simp only [Memory.write]
    split
    · rfl
    · rename_i h; simp [Memory.wf_cons, ha, h, Memory.wf_nil]
  | cons d m ih =>
    obtain ⟨b, x⟩ := d
    obtain ⟨hb, hx, hall, hwf⟩ := Memory.wf_cons.1 hm
    simp only [Memory.write]
    split
    · rename_i hab
      split
      · exact hm
      · rename_i hv
        refine Memory.wf_cons.2 ⟨ha, hv, ?_, hm⟩
        intro c hc
        rcases List.mem_cons.1 hc with rfl | hc
        · exact hab
        · exact Nat.lt_trans hab (hall c hc)
    · split
      · rename_i hab
        subst hab
        split
        · exact hwf
        · rename_i hv; exact Memory.wf_cons.2 ⟨hb, hv, hall, hwf⟩
      · rename_i h1 h2
        refine Memory.wf_cons.2 ⟨hb, hx, ?_, ih hwf⟩
        intro c hc
        rcases Memory.mem_write hc with hc | hc
        · exact hall c hc
        · omega

/-- A read after a write to the same place gives the value written. -/
theorem Memory.read_write_same {m : Memory} {a : Nat} {v : Byte} (hm : m.wf = true) : (m.write a v).read a = v := by
  induction m with
  | nil =>
    simp only [Memory.write]
    split
    · rename_i h; simp [Memory.read, h]
    · simp [Memory.read]
  | cons d m ih =>
    obtain ⟨b, x⟩ := d
    obtain ⟨_, _, hall, hwf⟩ := Memory.wf_cons.1 hm
    simp only [Memory.write]
    split
    · rename_i hab
      split
      · rename_i hv
        rw [Memory.read_blank, hv]
        intro c hc
        rcases List.mem_cons.1 hc with rfl | hc
        · exact hab
        · exact Nat.lt_trans hab (hall c hc)
      · simp [Memory.read]
    · split
      · rename_i hab
        subst hab
        split
        · rename_i hv; rw [Memory.read_blank hall, hv]
        · simp [Memory.read]
      · rename_i h1 h2; simp [Memory.read, h2, ih hwf]

/-- A write leaves every other place alone. -/
theorem Memory.read_write_other {m : Memory} {a b : Nat} {v : Byte} (h : b ≠ a) : (m.write a v).read b = m.read b := by
  induction m with
  | nil =>
    simp only [Memory.write]
    split <;> simp [Memory.read, h]
  | cons d m ih =>
    obtain ⟨c, x⟩ := d
    simp only [Memory.write]
    split
    · split <;> simp [Memory.read, h]
    · split
      · rename_i hac
        subst hac
        split <;> simp [Memory.read, h]
      · simp [Memory.read, ih]

theorem Memory.read_write {m : Memory} {a b : Nat} {v : Byte} (hm : m.wf = true) :
    (m.write a v).read b = if b = a then v else m.read b := by
  split
  · rename_i h; subst h; exact Memory.read_write_same hm
  · rename_i h; exact Memory.read_write_other h

theorem Memory.writeBytes_wf {m : Memory} {a : Nat} {vs : List Byte} (hm : m.wf = true) (ha : a + vs.length ≤ 256) :
    (m.writeBytes a vs).wf = true := by
  induction vs generalizing m a with
  | nil => exact hm
  | cons v vs ih =>
    simp only [List.length_cons] at ha
    exact ih (Memory.write_wf hm (by omega)) (by omega)

theorem Memory.ofBytes_mem {a : Nat} {vs : List Byte} {c : Host.Cell} (h : c ∈ Memory.ofBytes a vs) : a ≤ c.1 := by
  induction vs generalizing a with
  | nil => simp [Memory.ofBytes] at h
  | cons v vs ih =>
    simp only [Memory.ofBytes] at h
    split at h
    · exact Nat.le_of_succ_le (ih h)
    · rcases List.mem_cons.1 h with rfl | h
      · exact Nat.le_refl _
      · exact Nat.le_of_succ_le (ih h)

/-- A memory made of bytes inside the register space has the canonical form. -/
theorem Memory.ofBytes_wf {a : Nat} {vs : List Byte} (h : a + vs.length ≤ 256) : (Memory.ofBytes a vs).wf = true := by
  induction vs generalizing a with
  | nil => rfl
  | cons v vs ih =>
    simp only [List.length_cons] at h
    simp only [Memory.ofBytes]
    split
    · exact ih (by omega)
    · rename_i hv
      exact Memory.wf_cons.2 ⟨by omega, hv, fun c hc => Memory.ofBytes_mem hc, ih (by omega)⟩

/-- Its byte at a place it was made of is that byte: every contents is reached. -/
theorem Memory.read_ofBytes {a i : Nat} {vs : List Byte} (hi : i < vs.length) :
    (Memory.ofBytes a vs).read (a + i) = vs[i] := by
  induction vs generalizing a i with
  | nil => simp at hi
  | cons v vs ih =>
    simp only [List.length_cons] at hi
    cases i with
    | zero =>
      simp only [Memory.ofBytes]
      split
      · rename_i hv
        rw [Memory.read_blank (a := a + 0) fun c hc => Memory.ofBytes_mem hc]
        simp [hv]
      · simp [Memory.read]
    | succ i =>
      have := ih (a := a + 1) (i := i) (by omega)
      rw [show a + 1 + i = a + (i + 1) by omega] at this
      simp only [Memory.ofBytes]
      split
      · simpa using this
      · simpa [Memory.read, show a + (i + 1) ≠ a by omega] using this

/-- Outside the written bytes nothing changes. -/
theorem Memory.read_writeBytes_other {m : Memory} {a b : Nat} {vs : List Byte} (h : b < a ∨ a + vs.length ≤ b) :
    (m.writeBytes a vs).read b = m.read b := by
  induction vs generalizing m a with
  | nil => rfl
  | cons v vs ih =>
    simp only [List.length_cons] at h
    rw [Memory.writeBytes, ih (by omega), Memory.read_write_other (by omega)]

/-- Inside the written bytes the new byte is read. -/
theorem Memory.read_writeBytes_mem {m : Memory} {a i : Nat} {vs : List Byte} (hm : m.wf = true)
    (ha : a + vs.length ≤ 256) (hi : i < vs.length) : (m.writeBytes a vs).read (a + i) = vs[i] := by
  induction vs generalizing m a i with
  | nil => simp at hi
  | cons v vs ih =>
    simp only [List.length_cons] at ha hi
    cases i with
    | zero =>
      rw [Memory.writeBytes, Memory.read_writeBytes_other (by omega)]
      simpa using Memory.read_write_same hm
    | succ i =>
      have := ih (m := m.write a v) (a := a + 1) (i := i) (Memory.write_wf hm (by omega)) (by omega) (by omega)
      rw [Memory.writeBytes, show a + (i + 1) = a + 1 + i by omega, this]
      simp

@[simp] theorem Memory.burst_length (m : Memory) (a n : Nat) : (m.burst a n).length = n := by
  induction n generalizing a with
  | zero => rfl
  | succ n ih => simp [Memory.burst, ih]

@[simp] theorem Sensor.burst_length (sen : Sensor) (a n : Nat) : (sen.burst a n).length = n := by
  induction n generalizing a with
  | zero => rfl
  | succ n ih => simp [Sensor.burst, ih]

/-- Byte `i` of a burst is the register at `a + i` (R56). -/
theorem Sensor.burst_get (sen : Sensor) (a n i : Nat) (h : i < n) : (sen.burst a n)[i]? = some (sen.reg (a + i)) := by
  induction n generalizing a i with
  | zero => omega
  | succ n ih =>
    cases i with
    | zero => simp [Sensor.burst]
    | succ i =>
      have := ih (a + 1) i (by omega)
      simp [Sensor.burst, this, Nat.add_assoc, Nat.add_comm 1 i]

@[simp] theorem fitBytes_length (n : Nat) (b : List Byte) : (fitBytes n b).length = n := by
  induction n generalizing b with
  | zero => rfl
  | succ n ih => cases b <;> simp [fitBytes, ih]

@[simp] theorem bytesOf_length (n v : Nat) : (bytesOf n v).length = n := by
  induction n generalizing v with
  | zero => rfl
  | succ n ih => simp [bytesOf, ih]

/-- Bytes of the right number are answered unchanged. -/
theorem fitBytes_self (b : List Byte) : fitBytes b.length b = b := by
  induction b with
  | nil => rfl
  | cons v b ih => simp [fitBytes, ih]

end Sys2Proof.Machine
end

