-- ==== Sys2Proof/Laws/World.lean ====
section
/-! SUPPORT. What the environment's choices and the sensor's own activity can do, said once. -/

namespace Sys2Proof.Machine

/-! ## Draws change nothing of the sensor and nothing of the answers to come -/

@[simp] theorem free_sen (w : World) : w.free.2.sen = w.sen := rfl
@[simp] theorem draw_sen (w : World) : w.draw.2.sen = w.sen := by unfold World.draw; split <;> rfl
@[simp] theorem delay_sen (w : World) : w.delay.2.sen = w.sen := by unfold World.delay; split <;> rfl
@[simp] theorem sample_sen (w : World) : w.sample.2.sen = w.sen := by unfold World.sample; split <;> rfl
@[simp] theorem drawBool_sen (w : World) : w.drawBool.2.sen = w.sen := draw_sen w
@[simp] theorem drawInt_sen (lo hi : Int) (w : World) : (w.drawInt lo hi).2.sen = w.sen := draw_sen w
@[simp] theorem outcome_sen (n : Nat) (w : World) : (w.outcome n).2.sen = w.sen := by unfold World.outcome; split <;> rfl
@[simp] theorem sample_length (w : World) : w.sample.1.length = 8 := by unfold World.sample; split <;> simp

/-! ## The coming samples (R203) -/

@[simp] theorem draw_samples (w : World) : w.draw.2.env.samples = w.env.samples := by unfold World.draw; split <;> rfl
@[simp] theorem drawBool_samples (w : World) : w.drawBool.2.env.samples = w.env.samples := draw_samples w
@[simp] theorem delay_samples (w : World) : w.delay.2.env.samples = w.env.samples := by unfold World.delay; split <;> rfl
@[simp] theorem outcome_samples (n : Nat) (w : World) : (w.outcome n).2.env.samples = w.env.samples := by
  unfold World.outcome; split <;> rfl

theorem sampleIs_congr {e e' : Env} (h : e'.samples = e.samples) {k : Nat} {d : List Byte} :
    e'.sampleIs k d ↔ e.sampleIs k d := by simp only [Env.sampleIs, h]

/-- The sample taken is the first of the coming ones. -/
theorem sample_first (w : World) : w.env.sampleIs 0 w.sample.1 := by
  unfold Env.sampleIs World.sample
  cases w.env.samples with
  | nil => exact ⟨_, rfl⟩
  | cons b bs => rfl

/-- The samples still to come after one has been taken. -/
theorem sample_rest {w : World} {k : Nat} {d : List Byte} (h : w.sample.2.env.sampleIs k d) :
    w.env.sampleIs (k + 1) d := by
  unfold Env.sampleIs World.sample at *
  cases hs : w.env.samples with
  | nil => simpa [hs, World.free] using h
  | cons b bs => simpa [hs] using h

/-- A drawn integer lies in its range (R171). -/
theorem drawInt_range (lo hi : Int) (w : World) (h : lo ≤ hi) :
    lo ≤ (w.drawInt lo hi).1 ∧ (w.drawInt lo hi).1 ≤ hi := by
  have h1 := Int.emod_nonneg (w.draw.1 : Int) (show hi - lo + 1 ≠ 0 by omega)
  have h2 := Int.emod_lt_of_pos (w.draw.1 : Int) (show 0 < hi - lo + 1 by omega)
  simp only [World.drawInt]
  omega

/-- The two environments stand at the same coming transaction. -/
def SameReplies (w w' : World) : Prop := w'.env.replies = w.env.replies ∧ w'.env.nReplies = w.env.nReplies

theorem SameReplies.refl (w : World) : SameReplies w w := ⟨rfl, rfl⟩
theorem SameReplies.trans {a b c : World} (h1 : SameReplies a b) (h2 : SameReplies b c) : SameReplies a c :=
  ⟨h2.1.trans h1.1, h2.2.trans h1.2⟩
theorem SameReplies.of_env {a b : World} (h : b.env = a.env) : SameReplies a b := by simp [SameReplies, h]

theorem free_sameReplies (w : World) : SameReplies w w.free.2 := ⟨rfl, rfl⟩
theorem draw_sameReplies (w : World) : SameReplies w w.draw.2 := by unfold World.draw; split <;> exact ⟨rfl, rfl⟩
theorem delay_sameReplies (w : World) : SameReplies w w.delay.2 := by unfold World.delay; split <;> exact ⟨rfl, rfl⟩
theorem sample_sameReplies (w : World) : SameReplies w w.sample.2 := by unfold World.sample; split <;> exact ⟨rfl, rfl⟩

theorem okFor_of_same {w w' : World} {n : Nat} (h : SameReplies w w') (ho : w.env.okFor n) : w'.env.okFor n := by
  intro k hk
  have := ho k hk
  simpa [Env.okAt, h.1, h.2] using this

theorem okFor_mono {e : Env} {n m : Nat} (h : e.okFor n) (hm : m ≤ n) : e.okFor m :=
  fun k hk => h k (Nat.lt_of_lt_of_le hk hm)

/-- A transaction the oracle does not fail is answered Ok with exactly the bytes asked for, and the next ones stand as
they stood. -/
theorem outcome_ok {w : World} {n k : Nat} (h : w.env.okFor (k + 1)) :
    (∃ b, (w.outcome n).1 = .ok b ∧ b.length = n) ∧ (w.outcome n).2.env.okFor k := by
  have h0 := h 0 (Nat.succ_pos k)
  unfold World.outcome
  cases hr : w.env.replies with
  | nil =>
    refine ⟨?_, ?_⟩
    · simp [Env.okAt, hr] at h0
      exact ⟨bytesOf n (Config.busData w.env.nReplies), by simp [h0]⟩
    · intro j hj
      have := h (j + 1) (by omega)
      simpa [Env.okAt, hr, Nat.add_assoc, Nat.add_comm 1 j] using this
  | cons r rs =>
    refine ⟨?_, ?_⟩
    · cases r with
      | ok b => exact ⟨fitBytes n b, rfl, by simp⟩
      | error => simp [Env.okAt, hr] at h0
    · intro j hj
      have := h (j + 1) (by omega)
      simpa [Env.okAt, hr] using this

/-! ## What no activity of the sensor changes -/

/-- From `w` to `w'` the sensor stays what it is, the read-only registers of a conforming sensor keep their bytes (R32, R34),
and its memory keeps the canonical form. -/
structure World.Keeps (w w' : World) : Prop where
  conforming : w'.sen.conforming = w.sen.conforming
  regs       : w.sen.conforming = true → ∀ a, changeable a = false → w'.sen.regs.read a = w.sen.regs.read a
  wf         : w.sen.regs.wf = true → w'.sen.regs.wf = true

theorem World.Keeps.refl (w : World) : World.Keeps w w := ⟨rfl, fun _ _ _ => rfl, id⟩
theorem World.Keeps.trans {a b c : World} (h1 : World.Keeps a b) (h2 : World.Keeps b c) : World.Keeps a c :=
  ⟨h2.1.trans h1.1, fun hc x hx => (h2.2 (h1.1.trans hc) x hx).trans (h1.2 hc x hx), fun h => h2.3 (h1.3 h)⟩

theorem changeable_false {a : Nat} :
    changeable a = false ↔ a ≠ Config.regCtrlHum ∧ a ≠ Config.regCtrlMeas ∧ a ≠ Config.regConfig ∧
      (a < Config.regData ∨ Config.regData + 8 ≤ a) := by
  simp only [changeable, Bool.or_eq_false_iff, Bool.and_eq_false_iff, decide_eq_false_iff_not, Nat.not_le, Nat.not_lt,
    and_assoc, ne_eq]
  rfl

/-- A change that leaves the sensor's identity and its registers alone. -/
theorem World.Keeps.of_eq {w w' : World} (h1 : w'.sen.conforming = w.sen.conforming) (h2 : w'.sen.regs = w.sen.regs) :
    World.Keeps w w' := ⟨h1, fun _ _ _ => by rw [h2], fun h => by rw [h2]; exact h⟩

theorem World.Keeps.of_sen {w w' : World} (h : w'.sen = w.sen) : World.Keeps w w' := .of_eq (by rw [h]) (by rw [h])

/-- A change that writes one changeable register. -/
theorem World.Keeps.of_write {w w' : World} {a : Nat} {v : Byte} (hc : changeable a = true) (ha : a < 256)
    (h1 : w'.sen.conforming = w.sen.conforming) (h2 : w'.sen.regs = w.sen.regs.write a v) : World.Keeps w w' := by
  refine ⟨h1, fun _ b hb => ?_, fun h => by rw [h2]; exact Memory.write_wf h ha⟩
  rw [h2, Memory.read_write_other]
  rintro rfl
  simp [hc] at hb

/-- A change that writes the eight data registers. -/
theorem World.Keeps.of_data {w w' : World} {vs : List Byte} (hl : vs.length = 8)
    (h1 : w'.sen.conforming = w.sen.conforming) (h2 : w'.sen.regs = w.sen.regs.writeBytes Config.regData vs) :
    World.Keeps w w' := by
  refine ⟨h1, fun _ b hb => ?_, fun h => by rw [h2]; exact Memory.writeBytes_wf h (by simp [hl, Config.regData])⟩
  rw [h2, Memory.read_writeBytes_other (by rw [hl]; exact (changeable_false.1 hb).2.2.2)]

theorem newSample_keeps (w : World) : World.Keeps w w.newSample :=
  .of_data (vs := w.sample.1) (by simp) (by simp [World.newSample]) (by simp [World.newSample])

theorem newSample_same (w : World) : SameReplies w w.newSample := by
  have := sample_sameReplies w; simpa [World.newSample, SameReplies] using this

@[simp] theorem newSample_clock (w : World) : w.newSample.sen.clock = w.sen.clock := by simp [World.newSample]
@[simp] theorem newSample_settleAt (w : World) : w.newSample.sen.settleAt = w.sen.settleAt := by simp [World.newSample]
@[simp] theorem newSample_wild (w : World) : w.newSample.sen.wild = w.sen.wild := by simp [World.newSample]
@[simp] theorem newSample_humEff (w : World) : w.newSample.sen.humEff = w.sen.humEff := by simp [World.newSample]

theorem endForced_keeps (w : World) : World.Keeps w w.endForced :=
  (newSample_keeps w).trans (.of_write (a := Config.regCtrlMeas) (by decide) (by decide) rfl rfl)

theorem endForced_same (w : World) : SameReplies w w.endForced := newSample_same w

@[simp] theorem endForced_activity (w : World) : w.endForced.sen.activity = .idle := rfl
@[simp] theorem endForced_clock (w : World) : w.endForced.sen.clock = w.sen.clock := newSample_clock w
@[simp] theorem endForced_settleAt (w : World) : w.endForced.sen.settleAt = w.sen.settleAt := newSample_settleAt w
@[simp] theorem endForced_wild (w : World) : w.endForced.sen.wild = w.sen.wild := newSample_wild w
@[simp] theorem endForced_humEff (w : World) : w.endForced.sen.humEff = w.sen.humEff := newSample_humEff w

/-- What the conforming sensor's own activity leaves alone. -/
theorem advance_keeps (w : World) : World.Keeps w w.advance := by
  unfold World.advance
  split
  · exact .refl w
  · unfold World.advanceForced
    split
    · exact endForced_keeps w
    · split
      · exact (World.Keeps.of_sen (drawBool_sen w)).trans (endForced_keeps _)
      · exact .of_sen (drawBool_sen w)
  · unfold World.advanceNormal
    dsimp only
    split
    · exact ((World.Keeps.of_sen (draw_sen w)).trans (newSample_keeps _)).trans (.of_eq rfl rfl)
    · exact .of_eq (by simp) (by simp)

theorem advance_same (w : World) : SameReplies w w.advance := by
  unfold World.advance
  split
  · exact .refl w
  · unfold World.advanceForced
    split
    · exact endForced_same w
    · split
      · exact (draw_sameReplies w).trans (endForced_same _)
      · exact draw_sameReplies w
  · unfold World.advanceNormal
    dsimp only
    split
    · have := (draw_sameReplies w).trans (newSample_same w.draw.2)
      simpa [SameReplies] using this
    · have := draw_sameReplies w
      simpa [SameReplies] using this

/-- The timing and the knowledge of the sensor do not change by its own activity. -/
theorem advance_times (w : World) :
    w.advance.sen.clock = w.sen.clock ∧ w.advance.sen.settleAt = w.sen.settleAt ∧
      w.advance.sen.wild = w.sen.wild ∧ w.advance.sen.humEff = w.sen.humEff := by
  unfold World.advance World.advanceForced World.advanceNormal
  dsimp only
  split
  · simp
  · split
    · simp
    · split <;> simp
  · split <;> simp

/-! ## Contents that are any -/

theorem drawRegister_keeps {a : Nat} (hc : changeable a = true) (ha : a < 256) (w : World) :
    World.Keeps w (w.drawRegister a) :=
  .of_write (v := BitVec.ofNat 8 w.draw.1) hc ha (by simp [World.drawRegister, World.store])
    (by simp [World.drawRegister, World.store])

theorem drawRegister_same (a : Nat) (w : World) : SameReplies w (w.drawRegister a) := draw_sameReplies w

theorem drawConversion_keeps (w : World) : World.Keeps w w.drawConversion :=
  .of_data (vs := bytesOf 8 w.draw.1) (by simp) (by simp [World.drawConversion]) (by simp [World.drawConversion])

theorem drawConversion_same (w : World) : SameReplies w w.drawConversion := draw_sameReplies w

theorem scramble_keeps (w : World) : World.Keeps w w.scramble :=
  (((drawRegister_keeps (by decide) (by decide) w).trans (drawRegister_keeps (by decide) (by decide) _)).trans
    (drawRegister_keeps (by decide) (by decide) _)).trans (drawConversion_keeps _)

theorem scramble_same (w : World) : SameReplies w w.scramble :=
  (((drawRegister_same _ w).trans (drawRegister_same _ _)).trans (drawRegister_same _ _)).trans (drawConversion_same _)

@[simp] theorem drawRegister_times (a : Nat) (w : World) :
    (w.drawRegister a).sen.clock = w.sen.clock ∧ (w.drawRegister a).sen.settleAt = w.sen.settleAt ∧
      (w.drawRegister a).sen.wild = w.sen.wild := by simp [World.drawRegister, World.store]

@[simp] theorem drawConversion_times (w : World) :
    w.drawConversion.sen.clock = w.sen.clock ∧ w.drawConversion.sen.settleAt = w.sen.settleAt ∧
      w.drawConversion.sen.wild = w.sen.wild := by simp [World.drawConversion]

theorem scramble_times (w : World) :
    w.scramble.sen.clock = w.sen.clock ∧ w.scramble.sen.settleAt = w.sen.settleAt ∧ w.scramble.sen.wild = w.sen.wild := by
  simp [World.scramble]

/-- Nothing is kept of a sensor that is not assumed to conform but what it is and the form of its memory (R40). -/
theorem anyContents_keeps {w : World} (h : w.sen.conforming = false) : World.Keeps w w.anyContents :=
  ⟨by simp [World.anyContents], fun hc => (by simp [h] at hc), fun _ => Memory.ofBytes_wf (by simp)⟩

theorem anyContents_same (w : World) : SameReplies w w.anyContents := draw_sameReplies w

theorem anyContents_times (w : World) :
    w.anyContents.sen.clock = w.sen.clock ∧ w.anyContents.sen.settleAt = w.sen.settleAt ∧
      w.anyContents.sen.wild = w.sen.wild := by simp [World.anyContents]

/-! ## The sensor up to its next transaction -/

/-- Everything a sensor can do by itself: go on with its conversions, or hold anything that can change, or anything at
all. -/
theorem evolve_cases (w : World) :
    (w.sen.conforming = true ∧ w.sen.wild = false ∧ w.evolve = w.advance) ∨
      (w.sen.conforming = true ∧ w.sen.wild = true ∧ w.evolve = w.scramble) ∨
      (w.sen.conforming = false ∧ w.evolve = w.anyContents) := by
  unfold World.evolve
  cases w.sen.conforming <;> cases w.sen.wild <;> simp

/-- A conforming sensor whose contents are known goes on with its conversions. -/
theorem evolve_advance {w : World} (hc : w.sen.conforming = true) (hw : w.sen.wild = false) : w.evolve = w.advance := by
  simp [World.evolve, hc, hw]

theorem evolve_keeps (w : World) : World.Keeps w w.evolve := by
  rcases evolve_cases w with ⟨_, _, e⟩ | ⟨_, _, e⟩ | ⟨h, e⟩ <;> rw [e]
  · exact advance_keeps w
  · exact scramble_keeps w
  · exact anyContents_keeps h

theorem evolve_same (w : World) : SameReplies w w.evolve := by
  rcases evolve_cases w with ⟨_, _, e⟩ | ⟨_, _, e⟩ | ⟨_, e⟩ <;> rw [e]
  · exact advance_same w
  · exact scramble_same w
  · exact anyContents_same w

theorem evolve_times (w : World) :
    w.evolve.sen.clock = w.sen.clock ∧ w.evolve.sen.settleAt = w.sen.settleAt ∧ w.evolve.sen.wild = w.sen.wild := by
  rcases evolve_cases w with ⟨_, _, e⟩ | ⟨_, _, e⟩ | ⟨_, e⟩ <;> rw [e]
  · exact ⟨(advance_times w).1, (advance_times w).2.1, (advance_times w).2.2.1⟩
  · exact scramble_times w
  · exact anyContents_times w

theorem quiet_iff {sen : Sensor} :
    sen.quiet = true ↔ sen.conforming = true ∧ sen.wild = false ∧ sen.settled = true ∧ sen.activity = .idle := by
  simp [Sensor.quiet, and_assoc]

/-- A sensor at rest does nothing by itself. -/
theorem evolve_quiet {w : World} (h : w.sen.quiet = true) : w.evolve = w := by
  obtain ⟨h1, h2, _, h4⟩ := quiet_iff.1 h
  rw [evolve_advance h1 h2, World.advance, h4]

end Sys2Proof.Machine
end

