-- ==== Sys2Proof/Laws/Sensor.lean ====
section
/-! SUPPORT. What each transaction can do: what it keeps of the sensor, how it is answered, and its exact effect on a
sensor at rest. -/

namespace Sys2Proof.Machine

/-! ## The register effects -/

theorem softReset_keeps (v : Byte) (w : World) : World.Keeps w (w.softReset v) := by
  unfold World.softReset
  split
  · refine ⟨rfl, fun _ a ha => ?_, fun h => ?_⟩
    · have h1 := changeable_false.1 ha
      dsimp only
      rw [Memory.read_writeBytes_other (by simpa using h1.2.2.2), Memory.read_write_other h1.2.2.1,
        Memory.read_write_other h1.2.1, Memory.read_write_other h1.1]
    · exact Memory.writeBytes_wf (Memory.write_wf (Memory.write_wf (Memory.write_wf h (by decide)) (by decide)) (by decide))
        (by simp [Config.regData])
  · exact .refl w

theorem storeCtrlHum_keeps (v : Byte) (w : World) : World.Keeps w (w.storeCtrlHum v) :=
  .of_write (a := Config.regCtrlHum) (by decide) (by decide) rfl rfl

theorem storeConfig_keeps (v : Byte) (w : World) : World.Keeps w (w.storeConfig v) := by
  have h (x : World) : World.Keeps x (x.store Config.regConfig v) :=
    .of_write (a := Config.regConfig) (by decide) (by decide) rfl rfl
  unfold World.storeConfig
  split
  · exact h w
  · split
    · exact (World.Keeps.of_sen (drawBool_sen w)).trans (h _)
    · exact .of_sen (drawBool_sen w)

theorem latchModeWrite_keeps (v : Byte) (w : World) : World.Keeps w (w.latchModeWrite v) :=
  .of_write (a := Config.regCtrlMeas) (by decide) (by decide) rfl rfl

theorem storeCtrlMeas_keeps (v : Byte) (w : World) : World.Keeps w (w.storeCtrlMeas v) := by
  unfold World.storeCtrlMeas
  dsimp only
  refine (latchModeWrite_keeps v w).trans ?_
  split
  · exact .of_eq rfl rfl
  · split
    · split <;> exact .of_eq (by simp) (by simp)
    · exact .of_eq rfl rfl
    · exact .of_eq rfl rfl

theorem softReset_env (v : Byte) (w : World) : (w.softReset v).env = w.env := by unfold World.softReset; split <;> rfl
theorem storeCtrlHum_env (v : Byte) (w : World) : (w.storeCtrlHum v).env = w.env := rfl

theorem storeConfig_same (v : Byte) (w : World) : SameReplies w (w.storeConfig v) := by
  unfold World.storeConfig
  split
  · exact .refl w
  · have := draw_sameReplies w
    split <;> exact this

theorem storeCtrlMeas_same (v : Byte) (w : World) : SameReplies w (w.storeCtrlMeas v) := by
  unfold World.storeCtrlMeas
  dsimp only
  split
  · exact .refl w
  · split
    · have := draw_sameReplies (w.latchModeWrite v)
      split <;> exact this
    · exact .refl w
    · exact .refl w

theorem tookEffect_sen (a : Nat) (r : Reply) (w : World) : (w.tookEffect a r).2.sen = w.sen := by
  unfold World.tookEffect; split
  · split <;> simp
  · simp

theorem tookEffect_same (a : Nat) (r : Reply) (w : World) : SameReplies w (w.tookEffect a r).2 := by
  unfold World.tookEffect; split
  · split
    · exact .refl w
    · exact draw_sameReplies w
  · exact draw_sameReplies w

/-! ## After a failed command -/

theorem unsettle_keeps (op : MicroOp) (w : World) : World.Keeps w (op.unsettle w) := by
  cases op
  case wrReset => exact scramble_keeps w
  case wrCtrlHum => exact drawRegister_keeps (by decide) (by decide) w
  case wrCtrlMeas => exact (drawRegister_keeps (by decide) (by decide) w).trans (drawConversion_keeps _)
  case wrConfig => exact drawRegister_keeps (by decide) (by decide) w
  all_goals exact .refl w

@[simp] theorem unsettled_nil (w : World) : w.unsettled [] = w := rfl
@[simp] theorem unsettled_cons (op : MicroOp) (ops : List MicroOp) (w : World) :
    w.unsettled (op :: ops) = (op.unsettle w).unsettled ops := rfl

theorem unsettled_keeps (ops : List MicroOp) (w : World) : World.Keeps w (w.unsettled ops) := by
  induction ops generalizing w with
  | nil => exact .refl w
  | cons op ops ih => exact (unsettle_keeps op w).trans (ih _)

/-- A command that has only read leaves the sensor as it is, whatever its end. -/
theorem unsettled_reads {ops : List MicroOp} (h : ∀ op ∈ ops, op.data 0 = []) (w : World) : w.unsettled ops = w := by
  induction ops with
  | nil => rfl
  | cons op ops ih =>
    have h0 := h op (by simp)
    have h1 : op.unsettle w = w := by cases op <;> first | rfl | simp [MicroOp.data] at h0
    rw [unsettled_cons, h1]
    exact ih fun o ho => h o (by simp [ho])

/-! ## The transactions -/

theorem outcome_keeps (n : Nat) (w : World) : World.Keeps w (w.outcome n).2 := .of_sen (outcome_sen n w)

theorem readBurst_world (a n : Nat) (w : World) : (w.readBurst a n).2 = (w.evolve.outcome n).2 := by
  simp only [World.readBurst]; split <;> simp_all

theorem readBurst_keeps (a n : Nat) (w : World) : World.Keeps w (w.readBurst a n).2 := by
  rw [readBurst_world]; exact (evolve_keeps w).trans (outcome_keeps n _)

theorem readData_keeps (w : World) : World.Keeps w w.readData.2 := by
  have h0 := (evolve_keeps w).trans (outcome_keeps Config.lenData _)
  have h1 (x : World) : World.Keeps x x.advance.draw.2 := (advance_keeps x).trans (.of_sen (draw_sen _))
  simp only [World.readData]
  split <;> rename_i w2 heq
  · rw [heq] at h0; exact h0
  · rw [heq] at h0
    split
    · split
      · exact h0
      · exact h0.trans (h1 _)
      · exact h0.trans (h1 _)
    · exact h0

theorem writeByte_keeps {a : Nat} {effect : World → World} (he : ∀ x, World.Keeps x (effect x)) (w : World) :
    World.Keeps w (w.writeByte a effect).2 := by
  have h0 := (evolve_keeps w).trans (outcome_keeps 0 _)
  unfold World.writeByte
  dsimp only
  split
  · have h1 := h0.trans (.of_sen (tookEffect_sen a (w.evolve.outcome 0).1 _))
    split
    · exact h1.trans (he _)
    · exact h1
  · exact h0

theorem wait_keeps (ms : Nat) (w : World) : World.Keeps w (w.wait ms) := by
  unfold World.wait
  dsimp only
  refine World.Keeps.trans ?_ (evolve_keeps _)
  exact .of_eq (by simp) (by simp)

/-- No transaction changes what the sensor is, a read-only register or the canonical form of its memory. -/
theorem transact_keeps (op : MicroOp) (v : Byte) (w : World) : World.Keeps w (transact op v w).2 := by
  cases op
  case wrReset => exact writeByte_keeps (softReset_keeps v) w
  case wrCtrlHum => exact writeByte_keeps (storeCtrlHum_keeps v) w
  case wrCtrlMeas => exact writeByte_keeps (storeCtrlMeas_keeps v) w
  case wrConfig => exact writeByte_keeps (storeConfig_keeps v) w
  case rdData => exact readData_keeps w
  case wait ms => exact wait_keeps ms w
  all_goals exact readBurst_keeps _ _ w

/-! ## Answers when the oracle fails nothing -/

theorem readBurst_ok {a n k : Nat} {w : World} (h : w.env.okFor (k + 1)) :
    (∃ b, (w.readBurst a n).1 = .ok b ∧ b.length = n) ∧ (w.readBurst a n).2.env.okFor k := by
  obtain ⟨⟨b, hb, hl⟩, hk⟩ := outcome_ok (n := n) (okFor_of_same (evolve_same w) h)
  refine ⟨?_, by rw [readBurst_world]; exact hk⟩
  simp only [World.readBurst]
  split <;> rename_i heq
  · simp [heq] at hb
  · rw [heq] at hb
    refine ⟨_, rfl, ?_⟩
    split
    · simp
    · simp at hb; rw [hb]; exact hl

theorem mixBytes_length (mask : Nat) {o n : List Byte} (h : o.length = n.length) : (mixBytes mask o n).length = o.length := by
  induction o generalizing mask n with
  | nil => simp [mixBytes]
  | cons x o ih =>
    cases n with
    | nil => simp at h
    | cons y n => simp [mixBytes, ih (mask / 2) (by simpa using h)]

theorem readData_ok {k : Nat} {w : World} (h : w.env.okFor (k + 1)) :
    (∃ b, w.readData.1 = .ok b ∧ b.length = 8) ∧ w.readData.2.env.okFor k := by
  obtain ⟨⟨b, hb, hl⟩, hk⟩ := outcome_ok (n := Config.lenData) (okFor_of_same (evolve_same w) h)
  have hmix (x : World) : (mixBytes x.advance.draw.1 x.sen.data x.advance.sen.data).length = 8 := by
    rw [mixBytes_length] <;> simp [Sensor.data, Config.lenData]
  have hd (x : World) : x.sen.data.length = 8 := by simp [Sensor.data, Config.lenData]
  have hs (x : World) (hx : x.env.okFor k) : x.advance.draw.2.env.okFor k :=
    okFor_of_same ((advance_same x).trans (draw_sameReplies _)) hx
  simp only [World.readData]
  split <;> rename_i heq
  · simp [heq] at hb
  · rw [heq] at hb hk
    simp only [Reply.ok.injEq] at hb
    split
    · split
      · exact ⟨⟨_, rfl, hd _⟩, hk⟩
      · exact ⟨⟨_, rfl, hmix _⟩, hs _ hk⟩
      · exact ⟨⟨_, rfl, hmix _⟩, hs _ hk⟩
    · exact ⟨⟨_, rfl, by rw [hb]; exact hl⟩, hk⟩

theorem writeByte_ok {a : Nat} {effect : World → World} (he : ∀ x, SameReplies x (effect x)) {k : Nat} {w : World}
    (h : w.env.okFor (k + 1)) : (w.writeByte a effect).1 = .ok [] ∧ (w.writeByte a effect).2.env.okFor k := by
  obtain ⟨⟨b, hb, hl⟩, hk⟩ := outcome_ok (n := 0) (okFor_of_same (evolve_same w) h)
  have hb' : (w.evolve.outcome 0).1 = .ok [] := by rw [hb, List.length_eq_zero_iff.1 hl]
  unfold World.writeByte
  dsimp only
  split
  · have ht := okFor_of_same (tookEffect_same a (w.evolve.outcome 0).1 _) hk
    refine ⟨hb', ?_⟩
    split
    · exact okFor_of_same (he _) ht
    · exact ht
  · exact ⟨hb', hk⟩

theorem wait_same (ms : Nat) (w : World) : SameReplies w (w.wait ms) := by
  unfold World.wait
  dsimp only
  exact SameReplies.trans (b := { w.delay.2 with sen := _ }) (delay_sameReplies w) (evolve_same _)

/-- The number of bytes a micro-operation is answered with. -/
def MicroOp.answerLength : MicroOp → Nat
  | .rdCalibTp => 26
  | .rdCalibH => 7
  | .rdData => 8
  | .rdId | .rdCtrlHum | .rdCtrlMeas | .rdConfig => 1
  | .wrReset | .wrCtrlHum | .wrCtrlMeas | .wrConfig | .wait _ => 0

/-- A micro-operation that makes a bus transaction. -/
def MicroOp.onBus : MicroOp → Bool
  | .wait _ => false
  | .rdId | .wrReset | .rdCalibTp | .rdCalibH | .rdCtrlHum | .wrCtrlHum | .rdCtrlMeas | .wrCtrlMeas | .rdConfig
  | .wrConfig | .rdData => true

/-- A transaction the oracle does not fail is answered Ok with the bytes of its length. -/
theorem transact_ok {op : MicroOp} (hop : op.onBus = true) (v : Byte) {k : Nat} {w : World} (h : w.env.okFor (k + 1)) :
    (∃ b, (transact op v w).1 = .ok b ∧ b.length = op.answerLength) ∧ (transact op v w).2.env.okFor k := by
  have hw {a : Nat} {effect : World → World} (he : ∀ x, SameReplies x (effect x)) :
      (∃ b, (w.writeByte a effect).1 = .ok b ∧ b.length = 0) ∧ (w.writeByte a effect).2.env.okFor k :=
    ⟨⟨[], (writeByte_ok he h).1, rfl⟩, (writeByte_ok he h).2⟩
  cases op
  case wrReset => exact hw fun x => .of_env (softReset_env v x)
  case wrCtrlHum => exact hw fun x => .of_env (storeCtrlHum_env v x)
  case wrCtrlMeas => exact hw fun x => storeCtrlMeas_same v x
  case wrConfig => exact hw fun x => storeConfig_same v x
  case rdData => exact readData_ok h
  case wait ms => simp [MicroOp.onBus] at hop
  all_goals exact readBurst_ok h

theorem transact_wait (ms : Nat) (v : Byte) {k : Nat} {w : World} (h : w.env.okFor k) :
    (transact (.wait ms) v w).1 = .ok [] ∧ (transact (.wait ms) v w).2.env.okFor k :=
  ⟨rfl, okFor_of_same (wait_same ms w) h⟩

/-! ## A sensor at rest -/

/-- A READ of a sensor at rest: its registers, or BusError; the sensor does not change. -/
theorem readBurst_quiet {w : World} (h : w.sen.quiet = true) (a n : Nat) :
    w.readBurst a n =
      (match (w.outcome n).1 with
        | .ok _ => .ok (w.sen.burst a n)
        | .error => .error, (w.outcome n).2) := by
  obtain ⟨h1, _, h3, _⟩ := quiet_iff.1 h
  have ha : w.sen.answers = true := by simp [Sensor.answers, h1, h3]
  simp only [World.readBurst, evolve_quiet h]
  split <;> rename_i heq
  · simp [heq]
  · have hs : (w.outcome n).2.sen = w.sen := outcome_sen n w
    rw [heq] at hs
    dsimp only at hs
    simp [heq, ha, hs]

theorem readData_quiet {w : World} (h : w.sen.quiet = true) :
    w.readData = w.readBurst Config.regData Config.lenData := by
  obtain ⟨h1, _, h3, h4⟩ := quiet_iff.1 h
  rw [readBurst_quiet h]
  have hs : (w.outcome Config.lenData).2.sen = w.sen := outcome_sen _ w
  simp only [World.readData, evolve_quiet h]
  split <;> rename_i heq
  · simp [heq]
  · rw [heq] at hs
    dsimp only at hs
    simp [heq, hs, h4, Sensor.answers, h1, h3, Sensor.data]

/-- An Ok write to a sensor at rest has its register effect, and a failed one may have it (R205). -/
theorem writeByte_quiet {w : World} (h : w.sen.quiet = true) (a : Nat) (effect : World → World) :
    w.writeByte a effect =
      match (w.outcome 0).1 with
      | .ok b => (.ok b, effect (w.outcome 0).2)
      | .error =>
        (.error, if (w.outcome 0).2.drawBool.1 then effect (w.outcome 0).2.drawBool.2 else (w.outcome 0).2.drawBool.2) := by
  obtain ⟨h1, _, h3, _⟩ := quiet_iff.1 h
  have hs : (w.outcome 0).2.sen = w.sen := outcome_sen 0 w
  simp only [World.writeByte, evolve_quiet h, hs, h1, h3, or_true, if_true, World.tookEffect]
  split <;> simp_all

end Sys2Proof.Machine
end

