-- ==== Sys2Proof/Laws/Sequence.lean ====
section
/-! SUPPORT. How a command runs: one lemma per primitive and macro of its pseudocode, each saying what one list of
exchanges does, and the induction over a pseudocode packaged once. -/

namespace Sys2Proof.Machine

/-! ## Exchanges -/

theorem follow_cons {e : Exchange} {l : List Exchange} {w w' : World} :
    follow (e :: l) w = some w' ↔
      (transact e.op e.wdata w).1 = e.reply ∧ follow l (transact e.op e.wdata w).2 = some w' := by
  simp [follow]

theorem follow_append {l l' : List Exchange} {w w' : World} :
    follow (l ++ l') w = some w' ↔ ∃ w1, follow l w = some w1 ∧ follow l' w1 = some w' := by
  induction l generalizing w with
  | nil => simp [follow]
  | cons e l ih =>
    simp only [List.cons_append, follow]
    split
    · exact ih
    · simp

theorem portAfter_append (p : BusPort) (l l' : List Exchange) :
    portAfter p (l ++ l') = portAfter (portAfter p l) l' := by
  induction l generalizing p with
  | nil =>
    cases l' with
    | nil => rfl
    | cons e l' => rfl
  | cons e l ih => simp [portAfter, ih]

theorem observed_append (s : State) (l l' : List Exchange) (w w' : World) :
    (s.observed l w).observed l' w' = s.observed (l ++ l') w' := by
  simp [State.observed, portAfter_append]

@[simp] theorem observed_world (s : State) (l w) : (s.observed l w).world = w := rfl
@[simp] theorem observed_ctl (s : State) (l w) : (s.observed l w).ctl = s.ctl := rfl
@[simp] theorem observed_host (s : State) (l w) : (s.observed l w).host = s.host := rfl
@[simp] theorem observed_trace (s : State) (l w) : (s.observed l w).trace = s.trace ++ l.map Exchange.entry := rfl

theorem observed_writeCtl (s : State) (l w c) : (s.writeCtl c).observed l w = (s.observed l w).writeCtl c := by
  cases c <;> rfl

/-! ## The sequencer's field, which the end of a command overwrites -/

/-- `ctl.seq <- q`. -/
def State.setSeq (s : State) (q : Seq) : State := { s with ctl := { s.ctl with seq := q } }

theorem setSeq_self (s : State) : s.setSeq s.ctl.seq = s := rfl
@[simp] theorem setSeq_world (s : State) (q) : (s.setSeq q).world = s.world := rfl
@[simp] theorem setSeq_setSeq (s : State) (q q') : (s.setSeq q).setSeq q' = s.setSeq q' := rfl
@[simp] theorem setSeq_finish (s : State) (q r) : (s.setSeq q).finish r = s.finish r := rfl
@[simp] theorem setSeq_finishOk (s : State) (q p) : (s.setSeq q).finishOk p = s.finishOk p := rfl
@[simp] theorem setSeq_raise (s : State) (q e f) : (s.setSeq q).raise e f = s.raise e f := rfl
theorem setSeq_writeCtl (s : State) (q c) : (s.setSeq q).writeCtl c = (s.writeCtl c).setSeq q := by cases c <;> rfl

theorem setSeq_finishWith (ops : List MicroOp) (s : State) (q : Seq) (e : Ending) :
    finishWith ops e (s.setSeq q) = finishWith ops e s := by
  cases e <;> rfl

/-- A micro-operation issued and performed is one exchange. -/
theorem perform_issue (s : State) (job rs) (op : MicroOp) (v : Byte) :
    perform op (s.issue job rs op.word v) =
      (s.observed [⟨op, v, (transact op v s.world).1⟩] (transact op v s.world).2).setSeq (.busy job rs) := rfl

/-! ## Running a pseudocode over exchanges -/

/-- From `s`, running `p` makes exactly these exchanges and comes down to running `p'` from `s'`, the sequencer's field
apart. -/
def Steps (job : Job) (p : Prog) (s : State) (l : List Exchange) (p' : Prog) (s' : State) : Prop :=
  (∀ rs q, ∃ q', Prog.run job p rs (s.setSeq q) = Prog.run job p' (rs ++ l.map Exchange.reply) (s'.setSeq q')) ∧
  ∀ rest, p.issued (l.map Exchange.reply ++ rest) = l.map Exchange.op ++ p'.issued rest

theorem Steps.refl {job : Job} {p : Prog} {s : State} : Steps job p s [] p s :=
  ⟨fun _ q => ⟨q, by simp⟩, fun _ => rfl⟩

theorem Steps.trans {job : Job} {p p' p'' : Prog} {s s' s'' : State} {l l' : List Exchange} (h1 : Steps job p s l p' s')
    (h2 : Steps job p' s' l' p'' s'') : Steps job p s (l ++ l') p'' s'' := by
  refine ⟨fun rs q => ?_, fun rest => ?_⟩
  · obtain ⟨q1, e1⟩ := h1.1 rs q
    obtain ⟨q2, e2⟩ := h2.1 (rs ++ l.map Exchange.reply) q1
    exact ⟨q2, by rw [e1, e2, List.map_append, List.append_assoc]⟩
  · rw [List.map_append, List.map_append, List.append_assoc, h1.2, h2.2, List.append_assoc]

/-- A run of a command that comes down to an end is that end, after the micro-operations of its exchanges. -/
theorem Steps.run_done {job : Job} {s s' : State} {l : List Exchange} {e : Ending}
    (h : Steps job job.program s l (.done e) s') :
    Prog.run job job.program [] s = finishWith (l.map Exchange.op) e s' := by
  obtain ⟨q', h1⟩ := h.1 [] s.ctl.seq
  have h2 := h.2 []
  simp only [List.append_nil, Prog.issued] at h2
  rw [setSeq_self] at h1
  rw [h1, Prog.run, List.nil_append, h2]
  exact setSeq_finishWith _ s' q' e

/-- A write to `ctl` at the end of some exchanges makes no exchange. -/
theorem Steps.write {job : Job} {p next : Prog} {c : CtlWrite} {s s' : State} {l : List Exchange}
    (h : Steps job p s l (.write c next) s') : Steps job p s l next (s'.writeCtl c) := by
  have hw : Steps job (.write c next) s' [] next (s'.writeCtl c) :=
    ⟨fun rs q => ⟨q, by rw [Prog.run, setSeq_writeCtl, List.map_nil, List.append_nil]⟩, fun _ => rfl⟩
  simpa using h.trans hw

/-- A write to `ctl` first. -/
theorem Steps.of_write {job : Job} {p next : Prog} {c : CtlWrite} {s s' : State} {l : List Exchange}
    (h : Steps job next (s.writeCtl c) l p s') : Steps job (.write c next) s l p s' :=
  (Steps.write (c := c) .refl).trans h

/-- One micro-operation and its answer. -/
theorem steps_uop {job : Job} {op : MicroOp} {v : Byte} {k : Reply → Prog} {s : State} {r : Reply} {w : World}
    (h : follow [⟨op, v, r⟩] s.world = some w) :
    Steps job (.uop op v k) s [⟨op, v, r⟩] (k r) (s.observed [⟨op, v, r⟩] w) := by
  obtain ⟨h1, h2⟩ := follow_cons.1 h
  simp only [follow, Option.some.injEq] at h1 h2
  refine ⟨fun rs q => ⟨.busy job rs, ?_⟩, fun _ => rfl⟩
  simp only [Prog.run, perform_lastReply, issue_wdata, issue_world, setSeq_world, h1]
  rw [perform_issue]
  simp only [setSeq_world, h1, h2]
  rfl

theorem steps_rd {job : Job} {op : MicroOp} {k : List Byte → Prog} {s : State} {b : List Byte} {w : World}
    (h : follow [.rd op b] s.world = some w) : Steps job (rd op k) s [.rd op b] (k b) (s.observed [.rd op b] w) :=
  steps_uop h

theorem steps_rd1 {job : Job} {op : MicroOp} {k : Byte → Prog} {s : State} {x : Byte} {w : World}
    (h : follow [.rd op [x]] s.world = some w) : Steps job (rd1 op k) s [.rd op [x]] (k x) (s.observed [.rd op [x]] w) :=
  steps_uop h

theorem steps_wr {job : Job} {op : MicroOp} {v : Byte} {next : Prog} {s : State} {w : World}
    (h : follow [.wr op v] s.world = some w) : Steps job (wr op v next) s [.wr op v] next (s.observed [.wr op v] w) :=
  steps_uop h

theorem steps_wait {job : Job} {ms : Nat} {next : Prog} {s : State} {w : World}
    (h : follow [.wait ms] s.world = some w) : Steps job (waitMs ms next) s [.wait ms] next (s.observed [.wait ms] w) :=
  steps_uop h

/-- A failed READ ends the command (R226). -/
theorem steps_rd_error {job : Job} {op : MicroOp} {k : List Byte → Prog} {s : State} {w : World}
    (h : follow [⟨op, 0, .error⟩] s.world = some w) :
    Steps job (rd op k) s [⟨op, 0, .error⟩] (.done (.error .busError (some op.word))) (s.observed [⟨op, 0, .error⟩] w) :=
  steps_uop h

/-- A failed WRITE ends the command (R226). -/
theorem steps_wr_error {job : Job} {op : MicroOp} {v : Byte} {next : Prog} {s : State} {w : World}
    (h : follow [⟨op, v, .error⟩] s.world = some w) :
    Steps job (wr op v next) s [⟨op, v, .error⟩] (.done (.error .busError (some op.word))) (s.observed [⟨op, v, .error⟩] w) :=
  steps_uop h

/-- Two lists of exchanges, one after the other. -/
theorem steps_append {job : Job} {p p' p'' : Prog} {s : State} {l l' : List Exchange} {w : World}
    (h : follow (l ++ l') s.world = some w)
    (h1 : ∀ w1, follow l s.world = some w1 → Steps job p s l p' (s.observed l w1))
    (h2 : ∀ s1 w2, follow l' s1.world = some w2 → Steps job p' s1 l' p'' (s1.observed l' w2)) :
    Steps job p s (l ++ l') p'' (s.observed (l ++ l') w) := by
  obtain ⟨w1, ha, hb⟩ := follow_append.1 h
  have := (h1 w1 ha).trans (h2 (s.observed l w1) w hb)
  rwa [observed_append] at this

/-- One exchange first. -/
theorem steps_cons {job : Job} {p p' p'' : Prog} {s : State} {e : Exchange} {l : List Exchange} {w : World}
    (h : follow (e :: l) s.world = some w)
    (h1 : ∀ w1, follow [e] s.world = some w1 → Steps job p s [e] p' (s.observed [e] w1))
    (h2 : ∀ s1 w2, follow l s1.world = some w2 → Steps job p' s1 l p'' (s1.observed l w2)) :
    Steps job p s (e :: l) p'' (s.observed (e :: l) w) :=
  steps_append (l := [e]) h h1 h2

theorem steps_rmw {job : Job} {r o : MicroOp} {mask v x : Byte} {next : Prog} {s : State} {w : World}
    (h : follow [.rd r [x], .wr o (rmwByte x mask v)] s.world = some w) :
    Steps job (rmw r o mask v next) s [.rd r [x], .wr o (rmwByte x mask v)] next
      (s.observed [.rd r [x], .wr o (rmwByte x mask v)] w) :=
  steps_cons h (fun _ => steps_rd1) (fun _ _ => steps_wr)

theorem steps_readSettings {job : Job} {k : Settings → Byte → Prog} {xh xm xc : Byte} {s : State} {w : World}
    (h : follow (settingsRead xh xm xc) s.world = some w) :
    Steps job (readSettings k) s (settingsRead xh xm xc) (k (decodeSettings xh xm xc) xh)
      (s.observed (settingsRead xh xm xc) w) :=
  steps_cons h (fun _ => steps_rd1) fun _ _ h => steps_cons h (fun _ => steps_rd1) fun _ _ => steps_rd1

/-- WRITE_HUM then WRITE_MEAS_CONFIG. -/
theorem steps_settingsWritten {job : Job} {st : Settings} {xh xm xc : Byte} {next : Prog} {s : State} {w : World}
    (h : follow (settingsWritten st xh xm xc) s.world = some w) :
    Steps job (writeHum st (writeMeasConfig st next)) s (settingsWritten st xh xm xc) next
      (s.observed (settingsWritten st xh xm xc) w) :=
  steps_append (l := [_, _]) h (fun _ => steps_rmw) fun _ _ h =>
    steps_append (l := [_, _]) h (fun _ => steps_rmw) fun _ _ => steps_rmw

theorem steps_softReset {job : Job} {next : Prog} {s : State} {w : World}
    (h : follow softResetDone s.world = some w) :
    Steps job (softReset next) s softResetDone next (s.observed softResetDone w) :=
  steps_cons h (fun _ => steps_wr) fun _ _ => steps_wait

/-- SLEEP_BODY: its exchanges, then `ctl.mode <- Sleep` (R136). -/
theorem steps_sleepBody {job : Job} {next : Prog} {xh xm xc yh ym yc : Byte} {s : State} {w : World}
    (h : follow (slept xh xm xc yh ym yc) s.world = some w) :
    Steps job (sleepBody next) s (slept xh xm xc yh ym yc) next
      ((s.observed (slept xh xm xc yh ym yc) w).writeCtl (.mode .sleep)) := by
  refine Steps.write ?_
  exact steps_append h
    (fun _ h => steps_append h (fun _ => steps_readSettings) fun _ _ => steps_softReset)
    (fun _ _ => steps_settingsWritten)

/-- FORCE_BODY (R151). -/
theorem steps_forceBody {job : Job} {next : Prog} {xh xm xc : Byte} {s : State} {w : World}
    (h : follow (forced xh xm xc) s.world = some w) :
    Steps job (forceBody next) s (forced xh xm xc) next (s.observed (forced xh xm xc) w) :=
  steps_append h (fun _ => steps_readSettings) fun _ _ h =>
    steps_cons h (fun _ => steps_wr) fun _ _ h => steps_cons h (fun _ => steps_wr) fun _ _ => steps_wait

theorem runCommand_idle {job : Job} {s : State} (h : s.ctl.seq = .idle) :
    runCommand job s = .next (Prog.run job job.program [] s) := by simp [runCommand, h]

theorem rejectCommand_idle {e : Status} {s : State} (h : s.ctl.seq = .idle) :
    rejectCommand e s = .next (s.raise e none) := by simp [rejectCommand, h]

/-! ## The induction over a pseudocode -/

/-- Every write to `ctl`, every micro-operation and every end of a pseudocode, whatever the answers. -/
def Prog.All (pw : CtlWrite → Prop) (pu : MicroOp → Byte → Prop) (pe : Ending → Prop) : Prog → Prop
  | .done e => pe e
  | .write c next => pw c ∧ Prog.All pw pu pe next
  | .uop op v k => pu op v ∧ ∀ r, Prog.All pw pu pe (k r)

/-- A property of states that every part of a pseudocode keeps is kept by running it. -/
theorem run_keeps {pw : CtlWrite → Prop} {pu : MicroOp → Byte → Prop} {pe : Ending → Prop} {P : State → Prop}
    (hw : ∀ c s, pw c → P s → P (s.writeCtl c))
    (hu : ∀ op v job rs s, pu op v → P s → P (perform op (s.issue job rs op.word v)))
    (he : ∀ ops e s, pe e → P s → P (finishWith ops e s))
    {job : Job} {p : Prog} (hp : p.All pw pu pe) {rs : List Reply} {s : State} (hs : P s) :
    P (Prog.run job p rs s) := by
  induction p generalizing rs s with
  | done e => exact he _ e s hp hs
  | write c next ih => exact ih hp.2 (hw c s hp.1 hs)
  | uop op v k ih => exact ih _ (hp.2 _) (hu op v job rs s hp.1 hs)

/-- Every run makes some list of exchanges, as the world answers them, and then comes to one of its pseudocode's ends: the
trace is that list's, and it is what the end counts as issued. -/
theorem run_exchanges {pw : CtlWrite → Prop} {pu : MicroOp → Byte → Prop} {pe : Ending → Prop} {job : Job} {p : Prog}
    (hp : p.All pw pu pe) (rs : List Reply) (s : State) :
    ∃ (l : List Exchange) (e : Ending) (s' : State),
      Prog.run job p rs s = finishWith (job.program.issued (rs ++ l.map Exchange.reply)) e s' ∧ pe e ∧
        follow l s.world = some s'.world ∧ s'.trace = s.trace ++ l.map Exchange.entry ∧
        p.issued (l.map Exchange.reply) = l.map Exchange.op := by
  induction p generalizing rs s with
  | done e => exact ⟨[], e, s, by simp [Prog.run], hp, rfl, by simp, rfl⟩
  | write c next ih =>
    obtain ⟨l, e, s', h1, h0, h2, h3, h4⟩ := ih hp.2 rs (s.writeCtl c)
    exact ⟨l, e, s', h1, h0, by simpa using h2, by simpa using h3, h4⟩
  | uop op v k ih =>
    obtain ⟨l, e, s', h1, h0, h2, h3, h4⟩ := ih _ (hp.2 (perform op (s.issue job rs op.word v)).lastReply)
      (rs ++ [(perform op (s.issue job rs op.word v)).lastReply]) (perform op (s.issue job rs op.word v))
    refine ⟨⟨op, v, (transact op v s.world).1⟩ :: l, e, s', ?_, h0, follow_cons.2 ⟨rfl, h2⟩, ?_, ?_⟩
    · rw [Prog.run, h1]
      simp
    · rw [h3]
      simp [Exchange.entry]
    · rw [List.map_cons, List.map_cons, ← h4]
      rfl

/-- The compensation draws and changes nothing of the sensor. -/
theorem compensate_sen (raw : RawSample) (c : CalibrationData) (w : World) : (compensate raw c w).2.sen = w.sen := by
  have hT : (stageT raw.adcT c w).2.sen = w.sen := by unfold stageT; split <;> simp
  have hP (a f) (x : World) : (stageP a f c x).2.sen = x.sen := by unfold stageP; split <;> simp
  have hH (a f) (x : World) : (stageH a f c x).2.sen = x.sen := by unfold stageH; split <;> simp
  simp only [compensate, hT, hP, hH]

/-- The three ways a command ends: what it leaves as it was, that it leaves a result, and what it keeps of the sensor. -/
theorem finishWith_frame (ops : List MicroOp) (e : Ending) (s : State) :
    (finishWith ops e s).ctl = { s.ctl with seq := .idle } ∧ (finishWith ops e s).port = { s.port with uop := none } ∧
      (finishWith ops e s).host.cmd = s.host.cmd ∧ (finishWith ops e s).host.queue = s.host.queue ∧
      (finishWith ops e s).host.result.isSome ∧ (finishWith ops e s).trace = s.trace ∧
      World.Keeps s.world (finishWith ops e s).world := by
  cases e with
  | ok p => exact ⟨rfl, rfl, rfl, rfl, rfl, rfl, .refl _⟩
  | error st f => exact ⟨rfl, rfl, rfl, rfl, rfl, rfl, unsettled_keeps ops s.world⟩
  | compensate c d => exact ⟨rfl, rfl, rfl, rfl, rfl, rfl, .of_sen (compensate_sen _ _ _)⟩

/-- Only an error leaves the sensor's registers open: any other end leaves the sensor as it is. -/
theorem finishWith_sen {ops : List MicroOp} {e : Ending} (h : ∀ st f, e ≠ .error st f) (s : State) :
    (finishWith ops e s).world.sen = s.world.sen := by
  cases e with
  | ok p => rfl
  | error st f => exact absurd rfl (h st f)
  | compensate c d => exact compensate_sen _ _ _

end Sys2Proof.Machine
end

