-- ==== Sys2Proof/Laws/Command.lean ====
section
/-! SUPPORT. The pseudocode of the commands as a whole: what each issues, how many micro-operations it makes at most, how
it leaves `ctl`, and how a command instruction runs on an idle or a busy block. -/

namespace Sys2Proof.Machine

/-! ## What a pseudocode issues -/

section
variable {pw : CtlWrite → Prop} {pu : MicroOp → Byte → Prop} {pe : Ending → Prop}

theorem all_rd {op : MicroOp} {k : List Byte → Prog} (hu : pu op 0) (he : pe (.error .busError (some op.word)))
    (h : ∀ x, Prog.All pw pu pe (k x)) : Prog.All pw pu pe (rd op k) := by
  refine ⟨hu, fun r => ?_⟩
  cases r
  · exact h _
  · exact he

theorem all_wr {op : MicroOp} {v : Byte} {k : Prog} (hu : pu op v) (he : pe (.error .busError (some op.word)))
    (h : Prog.All pw pu pe k) : Prog.All pw pu pe (wr op v k) := by
  refine ⟨hu, fun r => ?_⟩
  cases r
  · exact h
  · exact he

theorem all_wait {ms : Nat} {k : Prog} (hu : pu (.wait ms) 0) (h : Prog.All pw pu pe k) :
    Prog.All pw pu pe (waitMs ms k) := ⟨hu, fun _ => h⟩

theorem all_poll {n : Nat} {k : Prog} (hu : pu .rdId 0) (he : pe (.error .busError (some MicroOp.rdId.word)))
    (hi : pe (.error .identityMismatchError none)) (h : Prog.All pw pu pe k) : Prog.All pw pu pe (pollId n k) := by
  induction n with
  | zero => exact hi
  | succ n ih =>
    refine ⟨hu, fun r => ?_⟩
    dsimp only
    split
    · exact h
    · split
      · split
        · exact he
        · exact hi
      · exact ih

end

/-- What the block issues: only 0xB6 to 0xE0 (R33), and only the waits of R78. -/
def Issued (op : MicroOp) (v : Byte) : Prop :=
  (op = .wrReset → v = Config.softResetCmd) ∧ ∀ ms, op = .wait ms → 1 ≤ ms ∧ ms ≤ 113

theorem issued_access {op : MicroOp} {v : Byte} (h1 : op ≠ .wrReset) (h2 : ∀ ms, op ≠ .wait ms) : Issued op v :=
  ⟨fun h => absurd h h1, fun ms h => absurd h (h2 ms)⟩
theorem issued_reset : Issued .wrReset Config.softResetCmd := ⟨fun _ => rfl, fun _ h => (by cases h)⟩
theorem issued_wait {ms : Nat} {v : Byte} (h1 : 1 ≤ ms) (h2 : ms ≤ 113) : Issued (.wait ms) v :=
  ⟨fun h => (by cases h), fun _ h => (by cases h; exact ⟨h1, h2⟩)⟩

/-- The word and the data of what the block issues (R77, R78). -/
theorem issued_word {op : MicroOp} {v : Byte} (h : Issued op v) :
    issuedWord op.word ∧ (op.word = 0x000001E0 → op.data v = [0xB6]) := by
  obtain ⟨h1, h2⟩ := h
  cases op
  case wait ms =>
    obtain ⟨a, b⟩ := h2 ms rfl
    have hn : (MicroOp.wait ms).word.toNat = 2 ^ 31 + ms := waitWord_toNat ms (by omega)
    refine ⟨.inr ⟨ms, a, b, ?_⟩, fun e => ?_⟩
    · apply BitVec.eq_of_toNat_eq
      have := Nat.two_pow_add_eq_or_of_lt (i := 31) (b := ms) (by omega) 1
      rw [hn, BitVec.toNat_or, BitVec.toNat_ofNat, Nat.mod_eq_of_lt (show ms < 2 ^ 32 by omega)]
      simp at this ⊢
      omega
    · have := congrArg BitVec.toNat e
      rw [hn, show (0x000001E0 : Word).toNat = 480 from rfl] at this
      omega
  case wrReset => exact ⟨.inl (by decide), fun _ => by rw [h1 rfl]; rfl⟩
  all_goals exact ⟨.inl (by decide), fun e => absurd e (by decide)⟩

section
variable {pw : CtlWrite → Prop}

/-- An error ends a command with a status that is not OK (R226). -/
def Ending.Proper : Ending → Prop
  | .error st _ => st ≠ .ok
  | .ok _ | .compensate _ _ => True

theorem proper_busError {f : Option Word} : (Ending.error .busError f).Proper := fun h => nomatch h

/-- `Prog.All` for what the block issues. -/
abbrev Prog.Issues (pw : CtlWrite → Prop) (p : Prog) : Prop := Prog.All pw Issued Ending.Proper p

theorem issues_rd1 {op : MicroOp} {k : Byte → Prog} (h1 : op ≠ .wrReset) (h2 : ∀ ms, op ≠ .wait ms)
    (h : ∀ x, (k x).Issues pw) : (rd1 op k).Issues pw := all_rd (issued_access h1 h2) proper_busError fun _ => h _
theorem issues_rmw {r o : MicroOp} {m v : Byte} {k : Prog} (h1 : r ≠ .wrReset) (h2 : ∀ ms, r ≠ .wait ms)
    (h3 : o ≠ .wrReset) (h4 : ∀ ms, o ≠ .wait ms) (h : k.Issues pw) : (rmw r o m v k).Issues pw :=
  issues_rd1 h1 h2 fun _ => all_wr (issued_access h3 h4) proper_busError h
theorem issues_settings {st : Settings} {k : Prog} (h : k.Issues pw) :
    (writeHum st (writeMeasConfig st k)).Issues pw :=
  issues_rmw (by simp) (by simp) (by simp) (by simp)
    (issues_rmw (by simp) (by simp) (by simp) (by simp) (issues_rmw (by simp) (by simp) (by simp) (by simp) h))
theorem issues_readSettings {k : Settings → Byte → Prog} (h : ∀ st x, (k st x).Issues pw) :
    (readSettings k).Issues pw :=
  issues_rd1 (by simp) (by simp) fun _ => issues_rd1 (by simp) (by simp) fun _ =>
    issues_rd1 (by simp) (by simp) fun _ => h _ _
theorem issues_forceBody {k : Prog} (h : k.Issues pw) : (forceBody k).Issues pw :=
  issues_readSettings fun st _ =>
    all_wr (issued_access (by simp) (by simp)) proper_busError
      (all_wr (issued_access (by simp) (by simp)) proper_busError
        (all_wait (issued_wait (by have := measWaitMs_range st; omega) (measWaitMs_range st).2) h))
theorem issues_softReset {k : Prog} (h : k.Issues pw) : (softReset k).Issues pw :=
  all_wr issued_reset proper_busError (all_wait (issued_wait (by decide) (by decide)) h)
theorem issues_sleepBody {k : Prog} (hm : pw (.mode .sleep)) (h : k.Issues pw) : (sleepBody k).Issues pw :=
  issues_readSettings fun _ _ => issues_softReset (issues_settings ⟨hm, h⟩)
theorem issues_sleepFirst {x : Byte} {k : Prog} (hm : pw (.mode .sleep)) (h : k.Issues pw) :
    (sleepFirst x k).Issues pw := by
  unfold sleepFirst
  split
  · exact h
  · exact issues_sleepBody hm h

end

/-- Every command issues only what R33, R77 and R78 list, and only INIT writes anything but the mode (R41). -/
theorem job_issues (j : Job) : j.program.Issues (fun c => j = .init ∨ ∃ m, c = .mode m) := by
  cases j with
  | init =>
    simp only [Job.program, initProg]
    refine ⟨.inl trivial, all_poll (issued_access (by simp) (by simp)) proper_busError (fun h => nomatch h) (issues_softReset ?_)⟩
    exact all_rd (issued_access (by simp) (by simp)) proper_busError fun _ =>
      all_rd (issued_access (by simp) (by simp)) proper_busError fun _ =>
        ⟨.inl trivial, all_wait (issued_wait (by decide) (by decide)) ⟨.inl trivial, .inl trivial, trivial⟩⟩
  | setSettings st =>
    simp only [Job.program, setSettingsProg]
    exact issues_rd1 (by simp) (by simp) fun _ => issues_sleepFirst (.inr ⟨_, rfl⟩) (issues_settings trivial)
  | setMode m =>
    simp only [Job.program, setModeProg]
    exact issues_rd1 (by simp) (by simp) fun _ => issues_sleepFirst (.inr ⟨_, rfl⟩)
      (issues_rmw (by simp) (by simp) (by simp) (by simp) ⟨.inr ⟨m, rfl⟩, trivial⟩)
  | sleep => exact issues_sleepBody (.inr ⟨_, rfl⟩) trivial
  | getMode =>
    simp only [Job.program, getModeProg]
    exact issues_rd1 (by simp) (by simp) fun _ => trivial
  | getSettings =>
    simp only [Job.program, getSettingsProg]
    exact issues_readSettings fun _ _ => trivial
  | force => exact issues_forceBody trivial
  | read t c =>
    have h {pw} : (rd .rdData fun d => .done (.compensate c d)).Issues pw :=
      all_rd (issued_access (by simp) (by simp)) proper_busError fun _ => trivial
    simp only [Job.program, readProg]
    split
    · exact issues_forceBody h
    · exact h

/-! ## How many micro-operations a pseudocode makes at most -/

/-- At most `n` micro-operations. -/
def Prog.Depth : Nat → Prog → Prop
  | _, .done _ => True
  | n, .write _ next => Prog.Depth n next
  | 0, .uop _ _ _ => False
  | n + 1, .uop _ _ k => ∀ r, Prog.Depth n (k r)

theorem depth_mono {n m : Nat} {p : Prog} (h : p.Depth n) (hm : n ≤ m) : p.Depth m := by
  induction p generalizing n m with
  | done e => cases m <;> trivial
  | write c next ih => cases n <;> cases m <;> exact ih h hm
  | uop op v k ih =>
    cases n with
    | zero => exact h.elim
    | succ n =>
      cases m with
      | zero => omega
      | succ m => intro r; exact ih r (h r) (by omega)

section
variable {n : Nat}

theorem depth_done {e : Ending} : (Prog.done e).Depth n := by cases n <;> trivial
theorem depth_write {c : CtlWrite} {k : Prog} (h : k.Depth n) : (Prog.write c k).Depth n := by cases n <;> exact h
theorem depth_rd {op : MicroOp} {k : List Byte → Prog} (h : ∀ x, (k x).Depth n) : (rd op k).Depth (n + 1) := by
  intro r
  cases r
  · exact h _
  · exact depth_done
theorem depth_rd1 {op : MicroOp} {k : Byte → Prog} (h : ∀ x, (k x).Depth n) : (rd1 op k).Depth (n + 1) :=
  depth_rd fun _ => h _
theorem depth_wr {op : MicroOp} {v : Byte} {k : Prog} (h : k.Depth n) : (wr op v k).Depth (n + 1) := by
  intro r
  cases r
  · exact h
  · exact depth_done
theorem depth_wait {ms : Nat} {k : Prog} (h : k.Depth n) : (waitMs ms k).Depth (n + 1) := fun _ => h
theorem depth_rmw {r o : MicroOp} {m v : Byte} {k : Prog} (h : k.Depth n) : (rmw r o m v k).Depth (n + 2) :=
  depth_rd1 fun _ => depth_wr h
theorem depth_settings {st : Settings} {k : Prog} (h : k.Depth n) :
    (writeHum st (writeMeasConfig st k)).Depth (n + 6) := depth_rmw (depth_rmw (depth_rmw h))
theorem depth_readSettings {k : Settings → Byte → Prog} (h : ∀ st x, (k st x).Depth n) :
    (readSettings k).Depth (n + 3) := depth_rd1 fun _ => depth_rd1 fun _ => depth_rd1 fun _ => h _ _
theorem depth_softReset {k : Prog} (h : k.Depth n) : (softReset k).Depth (n + 2) := depth_wr (depth_wait h)
theorem depth_sleepBody {k : Prog} (h : k.Depth n) : (sleepBody k).Depth (n + 11) :=
  depth_readSettings fun _ _ => depth_softReset (depth_settings (depth_write h))
theorem depth_sleepFirst {x : Byte} {k : Prog} (h : k.Depth n) : (sleepFirst x k).Depth (n + 11) := by
  unfold sleepFirst
  split
  · exact depth_mono h (by omega)
  · exact depth_sleepBody h
theorem depth_forceBody {k : Prog} (h : k.Depth n) : (forceBody k).Depth (n + 6) :=
  depth_readSettings fun _ _ => depth_wr (depth_wr (depth_wait h))
theorem depth_poll {m : Nat} {k : Prog} (h : k.Depth n) : (pollId m k).Depth (n + m) := by
  induction m with
  | zero => exact depth_done
  | succ m ih =>
    intro r
    dsimp only
    split
    · exact depth_mono h (Nat.le_add_right n m)
    · split
      · cases r <;> exact depth_done
      · exact ih

end

/-- No command makes more than 18 micro-operations (R264). -/
theorem job_depth (j : Job) : j.program.Depth 18 := by
  cases j with
  | init =>
    simp only [Job.program, initProg]
    exact depth_write (depth_mono (depth_poll (m := 5) (n := 5) (depth_softReset (depth_rd fun _ => depth_rd fun _ =>
      depth_write (depth_wait (n := 0) (depth_write (depth_write depth_done)))))) (by decide))
  | setSettings st =>
    simp only [Job.program, setSettingsProg]
    exact depth_rd1 fun _ => depth_sleepFirst (depth_settings (n := 0) depth_done)
  | setMode m =>
    simp only [Job.program, setModeProg]
    exact depth_mono (n := 14) (depth_rd1 fun _ => depth_sleepFirst (depth_rmw (n := 0) (depth_write depth_done)))
      (by decide)
  | sleep => exact depth_mono (depth_sleepBody (n := 0) depth_done) (by decide)
  | getMode =>
    simp only [Job.program, getModeProg]
    exact depth_mono (depth_rd1 (n := 0) fun _ => depth_done) (by decide)
  | getSettings =>
    simp only [Job.program, getSettingsProg]
    exact depth_mono (depth_readSettings (n := 0) fun _ _ => depth_done) (by decide)
  | force => exact depth_mono (depth_forceBody (n := 0) depth_done) (by decide)
  | read t c =>
    simp only [Job.program, readProg]
    split
    · exact depth_mono (depth_forceBody (n := 1) (depth_rd fun _ => depth_done)) (by decide)
    · exact depth_mono (depth_rd (n := 0) fun _ => depth_done) (by decide)

/-- What every run leaves: an idle sequencer, a result, an empty bus port, and at most so many new lines of the trace. -/
theorem run_frame {job : Job} {p : Prog} {n : Nat} (hp : p.Depth n) (rs : List Reply) (s : State) :
    (Prog.run job p rs s).ctl.seq = .idle ∧ (Prog.run job p rs s).host.result.isSome = true ∧
      (Prog.run job p rs s).port.uop = none ∧ (Prog.run job p rs s).host.cmd = s.host.cmd ∧
      (Prog.run job p rs s).host.queue = s.host.queue ∧
      ∃ l, (Prog.run job p rs s).trace = s.trace ++ l ∧ l.length ≤ n := by
  induction p generalizing n rs s with
  | done e =>
    obtain ⟨h1, h2, h3, h4, h5, h6, _⟩ := finishWith_frame (job.program.issued rs) e s
    simp only [Prog.run, h1, h2, h3, h4, h5, h6]
    exact ⟨trivial, trivial, trivial, trivial, trivial, [], by simp⟩
  | write c next ih =>
    have := ih (n := n) (by cases n <;> exact hp) rs (s.writeCtl c)
    simp only [Prog.run]
    simpa using this
  | uop op v k ih =>
    cases n with
    | zero => exact hp.elim
    | succ n =>
      obtain ⟨h1, h2, h3, h4, h5, l, h6, h7⟩ :=
        ih _ (hp _) (rs ++ [(perform op (s.issue job rs op.word v)).lastReply]) (perform op (s.issue job rs op.word v))
      exact ⟨h1, h2, h3, h4, h5, ⟨op.word, op.data v, (transact op v s.world).1⟩ :: l,
        by rw [Prog.run, h6, perform_trace, List.append_assoc]; rfl, by simpa using h7⟩

/-! ## Where a pseudocode stands -/

/-- One more answer takes what is left of a pseudocode past its next micro-operation. -/
theorem after_snoc {p : Prog} {rs : List Reply} {op : MicroOp} {v : Byte} {k : Reply → Prog}
    (h : p.after rs = .uop op v k) (r : Reply) : p.after (rs ++ [r]) = (k r).after [] := by
  induction p generalizing rs with
  | done e => simp [Prog.after] at h
  | write c next ih => exact ih h
  | uop op' v' k' ih =>
    cases rs with
    | nil =>
      simp only [Prog.after, Prog.uop.injEq] at h
      obtain ⟨rfl, rfl, rfl⟩ := h
      rfl
    | cons r' rs => exact ih r' h

/-! ## INIT's identity poll -/

section
variable {job : Job} {next : Prog} {n : Nat} {s : State} {w : World}

/-- What one read of the identity register comes down to. -/
theorem steps_poll_read (r : Reply) : follow [⟨.rdId, 0, r⟩] s.world = some w →
    Steps job (pollId (n + 1) next) s [⟨.rdId, 0, r⟩]
      (if r = .ok [Config.chipId] then next
        else if n = 0 then
          match r with
          | .error => .done (.error .busError (some MicroOp.rdId.word))
          | .ok _ => .done (.error .identityMismatchError none)
        else pollId n next)
      (s.observed [⟨.rdId, 0, r⟩] w) := steps_uop

/-- An answer that does not match, with attempts left (R132). -/
theorem steps_poll_miss {r : Reply} (hn : n ≠ 0) (h0 : r ≠ .ok [0x60]) (h : follow [⟨.rdId, 0, r⟩] s.world = some w) :
    Steps job (pollId (n + 1) next) s [⟨.rdId, 0, r⟩] (pollId n next) (s.observed [⟨.rdId, 0, r⟩] w) := by
  have h1 := steps_poll_read (job := job) (next := next) (n := n) r h
  rwa [if_neg (show r ≠ .ok [Config.chipId] from h0), if_neg hn] at h1

/-- The match ends the poll (R132). -/
theorem steps_poll_hit (h : follow [.rd .rdId [0x60]] s.world = some w) :
    Steps job (pollId (n + 1) next) s [.rd .rdId [0x60]] next (s.observed [.rd .rdId [0x60]] w) := steps_uop h

/-- The last answer alone decides the error (R132). -/
theorem steps_poll_last {r : Reply} (h0 : r ≠ .ok [0x60]) (h : follow [⟨.rdId, 0, r⟩] s.world = some w) :
    Steps job (pollId 1 next) s [⟨.rdId, 0, r⟩]
      (.done (if r = .error then .error .busError (some MicroOp.rdId.word) else .error .identityMismatchError none))
      (s.observed [⟨.rdId, 0, r⟩] w) := by
  have h1 := steps_poll_read (job := job) (next := next) (n := 0) r h
  rw [if_neg (show r ≠ .ok [Config.chipId] from h0), if_pos rfl] at h1
  cases r <;> exact h1

/-- LOAD_CALIB (R100). -/
theorem steps_loadCalib {k : CalibrationData → Prog} {tp h : List Byte}
    (hf : follow [.rd .rdCalibTp tp, .rd .rdCalibH h] s.world = some w) :
    Steps job (loadCalib k) s [.rd .rdCalibTp tp, .rd .rdCalibH h] (k (parseCalib tp h))
      (s.observed [.rd .rdCalibTp tp, .rd .rdCalibH h] w) :=
  steps_cons hf (fun _ => steps_rd) fun _ _ h => steps_rd h

/-- A sensor whose mode bits read Sleep needs no SLEEP_BODY (R133, R134). -/
theorem steps_sleepFirst_asleep {x : Byte} (h : decodeMode (modeBits x) = .sleep) :
    Steps job (sleepFirst x next) s [] next s := by
  unfold sleepFirst
  rw [if_pos h]
  exact .refl

/-- Any other runs SLEEP_BODY first (R133, R134). -/
theorem steps_sleepFirst_awake {x xh xm xc yh ym yc : Byte} (hm : decodeMode (modeBits x) ≠ .sleep)
    (h : follow (slept xh xm xc yh ym yc) s.world = some w) :
    Steps job (sleepFirst x next) s (slept xh xm xc yh ym yc) next
      ((s.observed (slept xh xm xc yh ym yc) w).writeCtl (.mode .sleep)) := by
  unfold sleepFirst
  rw [if_neg hm]
  exact steps_sleepBody h

end

/-! ## How a command instruction runs -/

/-- A busy block refuses every command (R225). -/
theorem busy_refuses {i : Instr} {s : State} (hi : i.port = .command) (hb : s.ctl.seq ≠ .idle) :
    exec i s = .next s.refuse := by
  have hr (j : Job) : runCommand j s = .next s.refuse := by
    unfold runCommand
    split
    · rfl
    · rename_i h; exact absurd h hb
  have hj (e : Status) : rejectCommand e s = .next s.refuse := by
    unfold rejectCommand
    split
    · rfl
    · rename_i h; exact absurd h hb
  cases i <;> simp [Instr.port] at hi
  case read =>
    simp only [exec, execRead]
    split
    · split
      · exact hr _
      · split
        · rfl
        · rename_i h; exact absurd h hb
    · exact hj _
  case forceMeasurement =>
    simp only [exec, execForceMeasurement]
    split
    · exact hj _
    · exact hr _
  all_goals exact hr _

theorem execRead_next {s t : State} (hi : s.ctl.seq = .idle) (h : exec .read s = .next t) :
    t = s.raise .uninitializedError none ∨
      ∃ c, t = Prog.run (.read (decide (s.ctl.mode = .forced)) c)
        (Job.program (.read (decide (s.ctl.mode = .forced)) c)) [] s := by
  simp only [exec, execRead] at h
  split at h
  · split at h
    · rename_i c _
      rw [runCommand_idle hi] at h
      cases h
      exact .inr ⟨c, rfl⟩
    · simp [hi] at h
  · rw [rejectCommand_idle hi] at h
    cases h
    exact .inl rfl

/-- The job a command instruction runs. -/
def runsJob (i : Instr) (j : Job) : Prop :=
  match i with
  | .init => j = .init
  | .setSettings st => j = .setSettings st
  | .setModeSleep => j = .setMode .sleep
  | .setModeForced => j = .setMode .forced
  | .setModeNormal => j = .setMode .normal
  | .sleep => j = .sleep
  | .getMode => j = .getMode
  | .getSettings => j = .getSettings
  | .forceMeasurement => j = .force
  | .read => ∃ b c, j = .read b c
  | .rdId | .wrReset | .rdCalibTp | .rdCalibH | .rdCtrlHum | .wrCtrlHum | .rdCtrlMeas | .wrCtrlMeas | .rdConfig
  | .wrConfig | .rdData | .wait _ => False

/-- Everything a command instruction can do: a busy block refuses it (R225); an idle one ends it by its precondition
(R223, R224) or runs its job. -/
theorem exec_command_cases {i : Instr} {s t : State} (hp : i.port = .command) (h : exec i s = .next t) :
    (s.ctl.seq ≠ .idle ∧ t = s.refuse) ∨
      (s.ctl.seq = .idle ∧
        ((∃ e, t = s.raise e none ∧ (e = .uninitializedError ∨ e = .invalidStateError)) ∨
          ∃ j : Job, t = Prog.run j j.program [] s ∧ runsJob i j)) := by
  by_cases hi : s.ctl.seq = .idle
  swap
  · left
    rw [busy_refuses hp hi] at h
    cases h
    exact ⟨hi, rfl⟩
  right
  refine ⟨hi, ?_⟩
  cases i <;> simp [Instr.port] at hp
  case read =>
    rcases execRead_next hi h with rfl | ⟨c, rfl⟩
    · exact .inl ⟨_, rfl, .inl rfl⟩
    · exact .inr ⟨_, rfl, _, _, rfl⟩
  case forceMeasurement =>
    simp only [exec, execForceMeasurement] at h
    split at h
    · rw [rejectCommand_idle hi] at h
      cases h
      exact .inl ⟨_, rfl, .inr rfl⟩
    · rw [runCommand_idle hi] at h
      cases h
      exact .inr ⟨_, rfl, rfl⟩
  all_goals
    right
    refine ⟨_, ?_, rfl⟩
    replace h : runCommand _ s = .next t := h
    rw [runCommand_idle hi] at h
    cases h
    rfl

end Sys2Proof.Machine
end

