-- ==== Sys2Proof/Laws/Compensation.lean ====
section
/-! SUPPORT. The checked arithmetic of the compensation: an operation gives a value exactly when that value fits its
width (R171), one lemma per operation; and the ranges of the clamps. -/

namespace Sys2Proof.Machine

/-- `fitsS(w, v)` as a proposition (R9). -/
def Fits (w : Nat) (v : Int) : Prop := -(2 : Int) ^ (w - 1) ≤ v ∧ v ≤ 2 ^ (w - 1) - 1

theorem inRange_iff {w : Nat} {v r : Int} : inRange w v = some r ↔ Fits w v ∧ v = r := by
  have hf : fitsS w v = true ↔ Fits w v := by
    unfold fitsS Fits
    rw [Bool.and_eq_true, decide_eq_true_iff, decide_eq_true_iff]
  unfold inRange
  by_cases h : fitsS w v = true
  · rw [if_pos h, Option.some_inj]; exact ⟨fun e => ⟨hf.1 h, e⟩, fun e => e.2⟩
  · rw [if_neg h]; exact Iff.intro (fun e => nomatch e) (fun e => absurd (hf.2 e.1) h)

section
variable {w : Nat} {a b v r : Int} {α : Type} {k : Int → Option α} {x : α}

theorem inRange_bind : (inRange w v >>= k) = some x ↔ Fits w v ∧ k v = some x := by
  constructor
  · intro h
    obtain ⟨y, h1, h2⟩ := Option.bind_eq_some_iff.1 h
    obtain ⟨h3, rfl⟩ := inRange_iff.1 h1
    exact ⟨h3, h2⟩
  · rintro ⟨h1, h2⟩
    exact Option.bind_eq_some_iff.2 ⟨v, inRange_iff.2 ⟨h1, rfl⟩, h2⟩

theorem addW_bind : (addW w a b >>= k) = some x ↔ Fits w (a + b) ∧ k (a + b) = some x := inRange_bind
theorem subW_bind : (subW w a b >>= k) = some x ↔ Fits w (a - b) ∧ k (a - b) = some x := inRange_bind
theorem mulW_bind : (mulW w a b >>= k) = some x ↔ Fits w (a * b) ∧ k (a * b) = some x := inRange_bind
theorem divW_bind : (divW w a b >>= k) = some x ↔ Fits w (a.tdiv b) ∧ k (a.tdiv b) = some x := inRange_bind

end

/-- A clamped value lies in its range (R9). -/
theorem clamp_range {v lo hi : Int} (h : lo ≤ hi) : lo ≤ clamp v lo hi ∧ clamp v lo hi ≤ hi := by unfold clamp; omega

/-! ## The stages: the computed value and no draw, or a draw in its range (R171) -/

theorem stageT_spec (adcT : Nat) (c : CalibrationData) (w : World) :
    (∃ r, compT adcT c = some r ∧ stageT adcT c w = (r, w)) ∨
      (compT adcT c = none ∧ (Config.tMin ≤ (stageT adcT c w).1.1 ∧ (stageT adcT c w).1.1 ≤ Config.tMax) ∧
        -2147483648 ≤ (stageT adcT c w).1.2 ∧ (stageT adcT c w).1.2 ≤ 2147483647) := by
  unfold stageT
  cases h : compT adcT c with
  | some r => exact .inl ⟨r, rfl, rfl⟩
  | none => exact .inr ⟨rfl, drawInt_range _ _ w (by decide), drawInt_range _ _ _ (by decide)⟩

theorem stageP_spec (adcP : Nat) (tFine : Int) (c : CalibrationData) (w : World) :
    (∃ p, compP adcP tFine c = some p ∧ stageP adcP tFine c w = (p, w)) ∨
      (compP adcP tFine c = none ∧ Config.pMin ≤ (stageP adcP tFine c w).1 ∧ (stageP adcP tFine c w).1 ≤ Config.pMax) := by
  unfold stageP
  cases h : compP adcP tFine c with
  | some p => exact .inl ⟨p, rfl, rfl⟩
  | none => exact .inr ⟨rfl, drawInt_range _ _ w (by decide)⟩

theorem stageH_spec (adcH : Nat) (tFine : Int) (c : CalibrationData) (w : World) :
    (∃ h, compH adcH tFine c = some h ∧ stageH adcH tFine c w = (h, w)) ∨
      (compH adcH tFine c = none ∧ 0 ≤ (stageH adcH tFine c w).1 ∧ (stageH adcH tFine c w).1 ≤ Config.hMax) := by
  unfold stageH
  cases h : compH adcH tFine c with
  | some p => exact .inl ⟨p, rfl, rfl⟩
  | none => exact .inr ⟨rfl, drawInt_range _ _ w (by decide)⟩

/-- A scripted draw gives the integer it stands for, and every integer of a range stands in some script. -/
theorem drawInt_script {lo hi v : Int} {w : World} {ds : List Nat} (h1 : lo ≤ v) (h2 : v ≤ hi)
    (h : w.env.draws = (v - lo).toNat :: ds) :
    w.drawInt lo hi = (v, { w with env := { w.env with draws := ds } }) := by
  have e : w.draw = ((v - lo).toNat, { w with env := { w.env with draws := ds } }) := by simp [World.draw, h]
  have hm : ((v - lo).toNat : Int) % (hi - lo + 1) = v - lo := by
    rw [Int.toNat_of_nonneg (by omega)]
    exact Int.emod_eq_of_lt (by omega) (by omega)
  simp only [World.drawInt, e, hm]
  rw [show lo + (v - lo) = v by omega]

/-! ## Every result a stage allows comes by some script (R171) -/

section
variable {c : CalibrationData} {w : World} {rest : List Nat}

theorem stageT_script {adcT : Nat} {t f : Int}
    (h : compT adcT c = some (t, f) ∨
      compT adcT c = none ∧ Config.tMin ≤ t ∧ t ≤ Config.tMax ∧ -2147483648 ≤ f ∧ f ≤ 2147483647)
    (hd : w.env.draws =
      (if compT adcT c = none then [(t - Config.tMin).toNat, (f - -2147483648).toNat] else []) ++ rest) :
    ∃ w', stageT adcT c w = ((t, f), w') ∧ w'.env.draws = rest := by
  unfold stageT
  rcases h with e | ⟨e, h1, h2, h3, h4⟩ <;> rw [e] at hd ⊢
  · exact ⟨w, rfl, by simpa using hd⟩
  · dsimp only
    rw [drawInt_script (ds := (f - -2147483648).toNat :: rest) h1 h2 (by simpa using hd)]
    rw [drawInt_script (ds := rest) h3 h4 rfl]
    exact ⟨_, rfl, rfl⟩

theorem stageP_script {adcP : Nat} {f p : Int}
    (h : compP adcP f c = some p ∨ compP adcP f c = none ∧ Config.pMin ≤ p ∧ p ≤ Config.pMax)
    (hd : w.env.draws = (if compP adcP f c = none then [(p - Config.pMin).toNat] else []) ++ rest) :
    ∃ w', stageP adcP f c w = (p, w') ∧ w'.env.draws = rest := by
  unfold stageP
  rcases h with e | ⟨e, h1, h2⟩ <;> rw [e] at hd ⊢
  · exact ⟨w, rfl, by simpa using hd⟩
  · dsimp only
    rw [drawInt_script (ds := rest) h1 h2 (by simpa using hd)]
    exact ⟨_, rfl, rfl⟩

theorem stageH_script {adcH : Nat} {f v : Int}
    (h : compH adcH f c = some v ∨ compH adcH f c = none ∧ 0 ≤ v ∧ v ≤ Config.hMax)
    (hd : w.env.draws = (if compH adcH f c = none then [v.toNat] else []) ++ rest) :
    ∃ w', stageH adcH f c w = (v, w') ∧ w'.env.draws = rest := by
  unfold stageH
  rcases h with e | ⟨e, h1, h2⟩ <;> rw [e] at hd ⊢
  · exact ⟨w, rfl, by simpa using hd⟩
  · dsimp only
    rw [drawInt_script (ds := rest) h1 h2 (by simpa using hd)]
    exact ⟨_, rfl, rfl⟩

end

/-! ## Bounds of products and quotients -/

theorem mul_bounds {x y a b : Int} (hx : -a ≤ x ∧ x ≤ a) (hy : -b ≤ y ∧ y ≤ b) : -(a * b) ≤ x * y ∧ x * y ≤ a * b := by
  have h1 := abs_le.2 hx
  have h2 := abs_le.2 hy
  have : |x * y| ≤ a * b := by
    rw [abs_mul]
    exact mul_le_mul h1 h2 (abs_nonneg _) ((abs_nonneg _).trans h1)
  exact abs_le.1 this

theorem tdiv_bounds {x a : Int} {n : Nat} (hx : -a ≤ x ∧ x ≤ a) : -a ≤ x.tdiv n ∧ x.tdiv n ≤ a := by
  have h : |x.tdiv n| ≤ |x| := by
    rw [Int.abs_eq_natAbs, Int.abs_eq_natAbs, Int.natAbs_tdiv]
    exact_mod_cast Nat.div_le_self _ _
  exact abs_le.1 (h.trans (abs_le.2 hx))

theorem toInt_bounds (x : BitVec 16) : -32768 ≤ x.toInt ∧ x.toInt ≤ 32768 := by
  have := x.toInt_lt
  have := x.le_toInt
  constructor <;> omega

end Sys2Proof.Machine
end

