-- ==== Sys2Proof/Laws/PerInstr.lean ====
section
/-! SUPPORT. The per-instruction family of LAWS.json: what the word of every instruction holds. -/

namespace Sys2Proof.Laws.ReservedBits

/-- The reserved field of an instruction's word is 0: bits [27:15] of a command word (R70), bits [29:16] of a
micro-operation word (R76). -/
def Statement (i : Instr) : Prop :=
  (match i.port with
    | .command => (bitField (encode i) 15 13).toNat
    | .microOp => (bitField (encode i) 16 14).toNat) = 0

theorem init : Statement .init := rfl
theorem setSettings (st : Settings) : Statement (.setSettings st) := by
  have h : (encode (.setSettings st)).toNat = 2 * 2 ^ 28 + (operandOfSettings st).toNat := commandWord_toNat _ _
  have := (operandOfSettings st).isLt
  show (bitField (encode (.setSettings st)) 15 13).toNat = 0
  rw [bitField_toNat, h]
  omega
theorem setModeSleep : Statement .setModeSleep := rfl
theorem setModeForced : Statement .setModeForced := rfl
theorem setModeNormal : Statement .setModeNormal := rfl
theorem sleep : Statement .sleep := rfl
theorem getMode : Statement .getMode := rfl
theorem getSettings : Statement .getSettings := rfl
theorem forceMeasurement : Statement .forceMeasurement := rfl
theorem read : Statement .read := rfl
theorem rdId : Statement .rdId := rfl
theorem wrReset : Statement .wrReset := rfl
theorem rdCalibTp : Statement .rdCalibTp := rfl
theorem rdCalibH : Statement .rdCalibH := rfl
theorem rdCtrlHum : Statement .rdCtrlHum := rfl
theorem wrCtrlHum : Statement .wrCtrlHum := rfl
theorem rdCtrlMeas : Statement .rdCtrlMeas := rfl
theorem wrCtrlMeas : Statement .wrCtrlMeas := rfl
theorem rdConfig : Statement .rdConfig := rfl
theorem wrConfig : Statement .wrConfig := rfl
theorem rdData : Statement .rdData := rfl
theorem wait (ms : Nat) : Statement (.wait ms) := by
  have h := (BitVec.ofNat 16 ms).isLt
  show (bitField (encode (.wait ms)) 16 14).toNat = 0
  rw [bitField_toNat]
  simp only [encode, append_toNat]
  simp at h ⊢
  omega

end Sys2Proof.Laws.ReservedBits
end

