-- ==== Sys2Proof/Laws/Registers.lean ====
section
/-! SUPPORT. The registers of a conforming sensor after each event: a write, a soft reset, its own conversions, a wait; and
the transactions a sensor at rest answers when the oracle fails none. -/

namespace Sys2Proof.Machine

/-- The identity register apart, a register is its byte of memory (R32). -/
theorem reg_of_ne {sen : Sensor} {a : Nat} (h : a ≠ Config.regId) : sen.reg a = sen.regs.read a :=
  if_neg fun hc => h hc.2

/-- The identity register of a conforming sensor (R32). -/
theorem reg_id {sen : Sensor} (h : sen.conforming = true) : sen.reg Config.regId = Config.chipId := if_pos ⟨h, rfl⟩

/-- Sensors that conform alike and hold the same byte read the same (R191). -/
theorem reg_congr {sen sen' : Sensor} {a : Nat} (hc : sen'.conforming = sen.conforming)
    (h : sen'.regs.read a = sen.regs.read a) : sen'.reg a = sen.reg a := by
  unfold Sensor.reg
  rw [hc, h]

/-- The registers after one stored byte. -/
theorem reg_write {sen sen' : Sensor} {a b : Nat} {v : Byte} (hm : sen.regs.wf = true) (ha : a ≠ Config.regId)
    (hc : sen'.conforming = sen.conforming) (h : sen'.regs = sen.regs.write a v) :
    sen'.reg b = if b = a then v else sen.reg b := by
  split
  · rename_i hb
    subst hb
    rw [reg_of_ne ha, h, Memory.read_write_same hm]
  · rename_i hb
    exact reg_congr hc (by rw [h, Memory.read_write_other hb])

theorem burst_congr {sen sen' : Sensor} {a n : Nat} (h : ∀ j, a ≤ j → j < a + n → sen.reg j = sen'.reg j) :
    sen.burst a n = sen'.burst a n := by
  induction n generalizing a with
  | zero => rfl
  | succ n ih =>
    simp only [Sensor.burst]
    rw [h a (Nat.le_refl _) (by omega), ih fun j h1 h2 => h j (by omega) (by omega)]

/-- Sensors that conform alike and hold the same registers hold the same data. -/
theorem data_congr {sen sen' : Sensor} (hc : sen'.conforming = sen.conforming) (h : sen'.regs = sen.regs) :
    sen'.data = sen.data := burst_congr fun _ _ _ => reg_congr hc (by rw [h])

/-- The registers after the soft reset (R194). -/
theorem softReset_regs {w : World} (hw : w.sen.regs.wf = true) :
    (w.softReset 0xB6).sen.ctrlHum = 0 ∧ (w.softReset 0xB6).sen.ctrlMeas = 0 ∧ (w.softReset 0xB6).sen.config = 0 ∧
      (w.softReset 0xB6).sen.data = [0x80, 0, 0, 0x80, 0, 0, 0x80, 0] := by
  have hregs : (w.softReset 0xB6).sen.regs =
      (((w.sen.regs.write 0xF2 0).write 0xF4 0).write 0xF5 0).writeBytes 0xF7 [0x80, 0, 0, 0x80, 0, 0, 0x80, 0] := rfl
  have hwf : (((w.sen.regs.write 0xF2 0).write 0xF4 0).write 0xF5 0).wf = true :=
    Memory.write_wf (Memory.write_wf (Memory.write_wf hw (by decide)) (by decide)) (by decide)
  have hd (i : Nat) (hi : i < 8) :
      (w.softReset 0xB6).sen.reg (0xF7 + i) = ([0x80, 0, 0, 0x80, 0, 0, 0x80, 0] : List Byte)[i] := by
    rw [reg_of_ne (by show 0xF7 + i ≠ 0xD0; omega), hregs]
    exact Memory.read_writeBytes_mem hwf (by decide) hi
  refine ⟨?_, ?_, ?_, ?_⟩
  · unfold Sensor.ctrlHum
    rw [reg_of_ne (by decide), hregs, Memory.read_writeBytes_other (by decide), Memory.read_write_other (by decide),
      Memory.read_write_other (by decide)]
    exact Memory.read_write_same hw
  · unfold Sensor.ctrlMeas
    rw [reg_of_ne (by decide), hregs, Memory.read_writeBytes_other (by decide), Memory.read_write_other (by decide)]
    exact Memory.read_write_same (Memory.write_wf hw (by decide))
  · unfold Sensor.config
    rw [reg_of_ne (by decide), hregs, Memory.read_writeBytes_other (by decide)]
    exact Memory.read_write_same (Memory.write_wf (Memory.write_wf hw (by decide)) (by decide))
  · simp only [Sensor.data, Sensor.burst, Config.regData, Config.lenData]
    have := hd 0 (by omega); have := hd 1 (by omega); have := hd 2 (by omega); have := hd 3 (by omega)
    have := hd 4 (by omega); have := hd 5 (by omega); have := hd 6 (by omega); have := hd 7 (by omega)
    simp_all

/-- A new sample changes no register outside the data registers (R38). -/
theorem newSample_reg {w : World} {a : Nat} (ha : a < Config.regData ∨ Config.regData + 8 ≤ a) :
    w.newSample.sen.reg a = w.sen.reg a := by
  refine reg_congr (by simp [World.newSample]) ?_
  simp only [World.newSample, sample_sen]
  exact Memory.read_writeBytes_other (by simpa using ha)

/-- The registers after the end of a forced conversion (R199): the mode bits are cleared, the other bits and registers kept. -/
theorem endForced_reg {w : World} (hw : w.sen.regs.wf = true) {a : Nat}
    (ha : a < Config.regData ∨ Config.regData + 8 ≤ a) :
    w.endForced.sen.reg a = if a = Config.regCtrlMeas then w.sen.ctrlMeas &&& 0xFC else w.sen.reg a := by
  have h := reg_write (sen := w.newSample.sen) (sen' := w.endForced.sen) (b := a)
    ((newSample_keeps w).wf hw) (by decide) rfl rfl
  rw [h]
  split
  · rw [← reg_of_ne (by decide), newSample_reg (by decide)]
    rfl
  · exact newSample_reg ha

/-- A new sample stands in the data registers (R203). -/
theorem newSample_data {w : World} (hw : w.sen.regs.wf = true) : w.newSample.sen.data = w.sample.1 := by
  have hl := sample_length w
  refine List.ext_getElem (by simp [Sensor.data, Config.lenData]) fun i h1 h2 => ?_
  have hg := Sensor.burst_get w.newSample.sen Config.regData Config.lenData i (by simp [Config.lenData]; omega)
  rw [List.getElem?_eq_getElem (show i < (w.newSample.sen.burst Config.regData Config.lenData).length from h1)] at hg
  refine (Option.some.inj hg).trans ?_
  rw [reg_of_ne (by show 0xF7 + i ≠ 0xD0; omega)]
  simp only [World.newSample, sample_sen]
  exact Memory.read_writeBytes_mem hw (by rw [hl]; decide) h2

/-- A forced conversion goes on, which is so only before its bound has elapsed, or has ended (R199). -/
theorem advance_forced {w : World} {bound deadline : Nat} (h : w.sen.activity = .forced bound deadline) :
    (w.sen.clock < deadline ∧ w.advance.sen = w.sen ∧ w.advance.env.samples = w.env.samples) ∨
      ∃ x : World, w.advance = x.endForced ∧ x.sen = w.sen ∧ x.env.samples = w.env.samples := by
  simp only [World.advance, h, World.advanceForced]
  split
  · exact .inr ⟨w, rfl, rfl, rfl⟩
  · split
    · exact .inr ⟨_, rfl, drawBool_sen w, drawBool_samples w⟩
    · exact .inl ⟨by omega, drawBool_sen w, drawBool_samples w⟩

/-- The sensor's own conversions keep the three control registers, the mode bits apart (R199, R200). -/
theorem advance_controls {w : World} (hw : w.sen.regs.wf = true) :
    w.advance.sen.ctrlHum = w.sen.ctrlHum ∧ w.advance.sen.config = w.sen.config ∧
      w.advance.sen.ctrlMeas &&& 0xFC = w.sen.ctrlMeas &&& 0xFC := by
  have hcc (x : Byte) : x &&& 0xFC &&& 0xFC = x &&& 0xFC := by revert x; decide
  have he (x : World) (hx : x.sen = w.sen) :
      x.endForced.sen.ctrlHum = w.sen.ctrlHum ∧ x.endForced.sen.config = w.sen.config ∧
        x.endForced.sen.ctrlMeas &&& 0xFC = w.sen.ctrlMeas &&& 0xFC := by
    have hr (a : Nat) := endForced_reg (w := x) (by rw [hx]; exact hw) (a := a)
    rw [hx] at hr
    refine ⟨hr _ (by decide), hr _ (by decide), ?_⟩
    rw [← hcc w.sen.ctrlMeas]
    exact congrArg (· &&& 0xFC) (hr Config.regCtrlMeas (by decide))
  unfold World.advance
  split
  · exact ⟨rfl, rfl, rfl⟩
  · unfold World.advanceForced
    split
    · exact he w rfl
    · split
      · exact he _ (by simp)
      · simp
  · unfold World.advanceNormal
    dsimp only
    have hn (a : Nat) (ha : a < Config.regData ∨ Config.regData + 8 ≤ a) :
        w.draw.2.newSample.sen.reg a = w.sen.reg a := by rw [newSample_reg ha, draw_sen]
    split
    · exact ⟨hn _ (by decide), hn _ (by decide), congrArg (· &&& 0xFC) (hn Config.regCtrlMeas (by decide))⟩
    · exact ⟨reg_congr (by simp) (by simp), reg_congr (by simp) (by simp),
        congrArg (· &&& 0xFC) (reg_congr (by simp) (by simp))⟩

/-- A sensor in Normal stays in Normal, and only its data registers change (R200). -/
theorem advance_normal {w : World} {c : Bool} {f : Option Nat} (h : w.sen.activity = .normal c f) :
    (∃ c' f', w.advance.sen.activity = .normal c' f' ∧ (f' = f ∨ f' = none)) ∧
      ∀ a, a < Config.regData ∨ Config.regData + 8 ≤ a → w.advance.sen.reg a = w.sen.reg a := by
  simp only [World.advance, h, World.advanceNormal]
  split
  · refine ⟨⟨_, none, rfl, .inr rfl⟩, fun a ha => ?_⟩
    exact (newSample_reg (w := w.draw.2) ha).trans (by rw [draw_sen])
  · exact ⟨⟨_, f, rfl, .inl rfl⟩, fun a _ => reg_congr (by simp) (by simp)⟩

/-- A known conforming sensor's own activity keeps every register but `ctrl_meas` and the data (R199, R200). -/
theorem evolve_reg {w : World} (hc : w.sen.conforming = true) (hk : w.sen.wild = false) (hw : w.sen.regs.wf = true)
    {a : Nat} (h4 : a ≠ Config.regCtrlMeas) (ha : a < Config.regData ∨ Config.regData + 8 ≤ a) :
    w.evolve.sen.reg a = w.sen.reg a := by
  rw [evolve_advance hc hk]
  cases h : w.sen.activity with
  | idle => rw [World.advance, h]
  | forced b d =>
    rcases advance_forced h with ⟨_, e, _⟩ | ⟨x, e, hx, _⟩
    · rw [e]
    · rw [e, endForced_reg (by rw [hx]; exact hw) ha, if_neg h4, hx]
  | normal c f => exact (advance_normal h).2 a ha

/-- A forced conversion's end puts the next sample in the data registers (R199). -/
theorem endForced_data {w : World} (hw : w.sen.regs.wf = true) : w.env.sampleIs 0 w.endForced.sen.data := by
  have he : w.endForced.sen.data = w.newSample.sen.data :=
    burst_congr fun j h1 _ =>
      reg_congr rfl (Memory.read_write_other (by have : 0xF7 ≤ j := h1; show j ≠ 0xF4; omega))
  rw [he, newSample_data hw]
  exact sample_first w

/-- The data registers after the sensor's own activity: as they were, with the same samples to come, or the next sample,
with those after it (R199, R200, R203). -/
theorem advance_data {w : World} (hw : w.sen.regs.wf = true) :
    (w.advance.sen.data = w.sen.data ∧ w.advance.env.samples = w.env.samples) ∨
      (w.env.sampleIs 0 w.advance.sen.data ∧
        ∀ k d, w.advance.env.sampleIs k d → w.env.sampleIs (k + 1) d) := by
  have hb : w.drawBool.2.sen.regs.wf = true := by rw [drawBool_sen]; exact hw
  have hd : w.draw.2.sen.regs.wf = true := by rw [draw_sen]; exact hw
  unfold World.advance
  split
  · exact .inl ⟨rfl, rfl⟩
  · unfold World.advanceForced
    split
    · exact .inr ⟨endForced_data hw, fun _ _ => sample_rest⟩
    · split
      · exact .inr ⟨(sampleIs_congr (drawBool_samples w)).1 (endForced_data hb), fun _ _ h =>
          (sampleIs_congr (drawBool_samples w)).1 (sample_rest (w := w.drawBool.2) h)⟩
      · exact .inl ⟨by rw [drawBool_sen], drawBool_samples w⟩
  · unfold World.advanceNormal
    dsimp only
    split
    · refine .inr ⟨?_, fun _ _ h => (sampleIs_congr (draw_samples w)).1 (sample_rest (w := w.draw.2) h)⟩
      have h := (sampleIs_congr (draw_samples w)).1 (sample_first w.draw.2)
      rwa [← newSample_data hd] at h
    · exact .inl ⟨data_congr (by simp) (by simp), draw_samples w⟩

/-- Mixing a burst with itself. -/
theorem mixBytes_self (mask : Nat) (o : List Byte) : mixBytes mask o o = o := by
  induction o generalizing mask with
  | nil => cases mask <;> rfl
  | cons x o ih => simp [mixBytes, ih]

/-- Each byte of a mixed burst is the old one or the new one (R57). -/
theorem mixBytes_get {mask : Nat} {o n : List Byte} (hl : o.length = n.length) (j : Nat) :
    (mixBytes mask o n)[j]? = o[j]? ∨ (mixBytes mask o n)[j]? = n[j]? := by
  induction o generalizing mask n j with
  | nil => left; cases n <;> simp_all [mixBytes]
  | cons x o ih =>
    cases n with
    | nil => simp at hl
    | cons y n =>
      cases j with
      | zero => simp only [mixBytes, List.getElem?_cons_zero]; split <;> simp
      | succ j => simp only [mixBytes, List.getElem?_cons_succ]; exact ih (by simpa using hl) j

/-- Every mode write stores its byte and loads `hum_eff` from `ctrl_hum[2:0]` (R198). -/
theorem storeCtrlMeas_stores (v : Byte) (w : World) :
    (w.storeCtrlMeas v).sen.humEff = byteField w.sen.ctrlHum 0 3 ∧
      (w.storeCtrlMeas v).sen.regs = w.sen.regs.write Config.regCtrlMeas v := by
  unfold World.storeCtrlMeas
  dsimp only
  split
  · exact ⟨rfl, rfl⟩
  · split
    · split <;> exact ⟨by simp [World.latchModeWrite], by simp [World.latchModeWrite]⟩
    · exact ⟨rfl, rfl⟩
    · exact ⟨rfl, rfl⟩

/-! ## Drawn contents -/

theorem drawRegister_reg {w : World} {a b : Nat} (hw : w.sen.regs.wf = true) (ha : a ≠ Config.regId) :
    (w.drawRegister a).sen.reg b = if b = a then BitVec.ofNat 8 w.draw.1 else w.sen.reg b :=
  reg_write hw ha (by simp [World.drawRegister, World.store]) (by simp [World.drawRegister, World.store])

theorem drawConversion_reg {w : World} {a : Nat} (ha : a < Config.regData ∨ Config.regData + 8 ≤ a) :
    w.drawConversion.sen.reg a = w.sen.reg a := by
  refine reg_congr (by simp [World.drawConversion]) ?_
  simp only [World.drawConversion, draw_sen]
  exact Memory.read_writeBytes_other (by simpa using ha)

/-- The data registers, where any contents are drawn. -/
theorem drawConversion_data {w : World} (hw : w.sen.regs.wf = true) :
    w.drawConversion.sen.data = bytesOf 8 w.draw.1 := by
  refine List.ext_getElem (by simp [Sensor.data, Config.lenData]) fun i h1 h2 => ?_
  have hi : i < 8 := by simpa using h2
  have hg := Sensor.burst_get w.drawConversion.sen Config.regData Config.lenData i hi
  rw [List.getElem?_eq_getElem (show i < (w.drawConversion.sen.burst Config.regData Config.lenData).length from h1)] at hg
  refine (Option.some.inj hg).trans ?_
  rw [reg_of_ne (by show 0xF7 + i ≠ 0xD0; omega)]
  simp only [World.drawConversion, draw_sen]
  exact Memory.read_writeBytes_mem hw (by simp [Config.regData]) h2

/-- A wait passes over a sensor at rest: only its clock moves (R204). -/
theorem wait_quiet {w : World} (ms : Nat) (hq : w.sen.quiet = true) :
    w.wait ms = { w.delay.2 with sen := { w.sen with clock := w.sen.clock + (ms * 40 + w.delay.1) } } ∧
      (w.wait ms).sen.quiet = true := by
  obtain ⟨h1, h2, h3, h4⟩ := quiet_iff.1 hq
  have e : w.wait ms = { w.delay.2 with sen := { w.sen with clock := w.sen.clock + (ms * 40 + w.delay.1) } } := by
    unfold World.wait
    dsimp only
    simp only [delay_sen]
    rw [evolve_advance (by simpa using h1) (by simpa using h2)]
    simp [World.advance, h4, Config.ticksPerMs]
  refine ⟨e, ?_⟩
  rw [e]
  refine quiet_iff.2 ⟨h1, h2, ?_, h4⟩
  simp only [Sensor.settled, decide_eq_true_eq] at h3 ⊢
  omega

/-- A settled sensor is still settled when its next transaction comes: no sensor time passes. -/
theorem evolve_settled {w : World} (h : w.sen.settled = true) : w.evolve.sen.settled = true := by
  obtain ⟨h1, h2, _⟩ := evolve_times w
  simpa [Sensor.settled, h1, h2] using h

/-- A READ of a conforming, settled sensor that the oracle does not fail: it evolves, and its registers are the answer. -/
theorem readBurst_settled_ok {a n k : Nat} {w : World} (hc : w.sen.conforming = true) (hs : w.sen.settled = true)
    (ho : w.env.okFor (k + 1)) :
    ∃ w', w.readBurst a n = (.ok (w.evolve.sen.burst a n), w') ∧ w'.sen = w.evolve.sen ∧ w'.env.okFor k := by
  obtain ⟨⟨b, hb, _⟩, h2⟩ := outcome_ok (n := n) (okFor_of_same (evolve_same w) ho)
  have ha : w.evolve.sen.answers = true := by
    simp [Sensor.answers, (evolve_keeps w).conforming.trans hc, evolve_settled hs]
  refine ⟨(w.evolve.outcome n).2, ?_, outcome_sen n _, h2⟩
  have hsen := outcome_sen n w.evolve
  simp only [World.readBurst]
  split <;> rename_i heq <;> rw [heq] at hb hsen
  · simp at hb
  · dsimp only at hsen
    rw [heq, hsen, if_pos ha]

/-- A WRITE to a conforming sensor that the oracle does not fail, to a settled one or to the reset register: it evolves, and
the write has its effect. -/
theorem writeByte_accepted_ok {a : Nat} {effect : World → World} {k : Nat} {w : World} (hc : w.sen.conforming = true)
    (hs : a = Config.regReset ∨ w.sen.settled = true) (ho : w.env.okFor (k + 1)) :
    ∃ x : World, w.writeByte a effect = (.ok [], effect x) ∧ x.sen = w.evolve.sen ∧ x.env.okFor k := by
  obtain ⟨⟨b, hb, hl⟩, h2⟩ := outcome_ok (n := 0) (okFor_of_same (evolve_same w) ho)
  rw [List.length_eq_zero_iff.1 hl] at hb
  have hsen := outcome_sen 0 w.evolve
  refine ⟨(w.evolve.outcome 0).2, ?_, hsen, h2⟩
  have h1 : w.evolve.sen.conforming = true := (evolve_keeps w).conforming.trans hc
  simp only [World.writeByte, hsen, h1, if_true, World.tookEffect, hb, if_pos (hs.imp id evolve_settled)]

/-- A WRITE to a conforming, settled sensor that the oracle does not fail. -/
theorem writeByte_settled_ok {a : Nat} {effect : World → World} {k : Nat} {w : World} (hc : w.sen.conforming = true)
    (hs : w.sen.settled = true) (ho : w.env.okFor (k + 1)) :
    ∃ x : World, w.writeByte a effect = (.ok [], effect x) ∧ x.sen = w.evolve.sen ∧ x.env.okFor k :=
  writeByte_accepted_ok hc (.inr hs) ho

/-- A reset write answered Ok has had its effect, on every conforming sensor and whatever was done to it before (R194,
R265). -/
theorem reset_answered {v : Byte} {b : List Byte} {w : World} (hc : w.sen.conforming = true)
    (h : (transact .wrReset v w).1 = .ok b) :
    ∃ x : World, (transact .wrReset v w).2 = x.softReset v ∧ x.sen = w.evolve.sen := by
  have hsen := outcome_sen 0 w.evolve
  have h1 : w.evolve.sen.conforming = true := (evolve_keeps w).conforming.trans hc
  simp only [transact, World.writeByte, hsen, h1, if_true] at h
  exact ⟨(w.evolve.outcome 0).2, by simp only [transact, World.writeByte, hsen, h1, World.tookEffect, h]; rfl, hsen⟩

/-- A READ of a sensor at rest that the oracle does not fail. -/
theorem readBurst_quiet_ok {a n k : Nat} {w : World} (hq : w.sen.quiet = true) (ho : w.env.okFor (k + 1)) :
    ∃ w', w.readBurst a n = (.ok (w.sen.burst a n), w') ∧ w'.sen = w.sen ∧ w'.env.okFor k := by
  have h := readBurst_settled_ok (a := a) (n := n) (quiet_iff.1 hq).1 (quiet_iff.1 hq).2.2.1 ho
  rwa [evolve_quiet hq] at h

/-- A WRITE to a sensor at rest that the oracle does not fail. -/
theorem writeByte_quiet_ok {a : Nat} {effect : World → World} {k : Nat} {w : World} (hq : w.sen.quiet = true)
    (ho : w.env.okFor (k + 1)) :
    ∃ x : World, w.writeByte a effect = (.ok [], effect x) ∧ x.sen = w.sen ∧ x.env.okFor k := by
  have h := writeByte_settled_ok (a := a) (effect := effect) (quiet_iff.1 hq).1 (quiet_iff.1 hq).2.2.1 ho
  rwa [evolve_quiet hq] at h

end Sys2Proof.Machine
end

