-- ==== Sys2Proof/Laws/Success.lean ====
section
/-! SUPPORT. What is known of a command that has ended with OK, whatever the sensor had been before: one inversion lemma per
primitive and macro of its pseudocode (R265). -/

namespace Sys2Proof.Machine

/-- The result on the port is OK. -/
def State.okResult (s : State) : Prop := s.host.result.map Result.status = some .ok

theorem error_not_ok {ops : List MicroOp} {e : Status} {f : Option Word} {s : State} (he : e ≠ .ok) :
    ¬ (finishWith ops (.error e f) s).okResult := by
  simpa [State.okResult, finishWith, State.raise, State.finish] using he

/-- From `s` a command has come to `s'`: its record and the host's port are as before but for `ctl.seq`, and these lines
have been added to the trace. -/
structure State.Came (s s' : State) (l : List TraceEntry) : Prop where
  ctl   : s'.ctl = { s.ctl with seq := s'.ctl.seq }
  trace : s'.trace = s.trace ++ l

theorem State.Came.trans {a b c : State} {l l' : List TraceEntry} (h : State.Came a b l) (h' : State.Came b c l') :
    State.Came a c (l ++ l') := ⟨by rw [h'.1, h.1], by rw [h'.2, h.2, List.append_assoc]⟩

variable {job : Job} {rs : List Reply} {s : State}

/-- Everything one micro-operation can come to. -/
theorem run_uop (op : MicroOp) (v : Byte) (k : Reply → Prog) (rs : List Reply) (s : State) :
    ∃ rs' s', Prog.run job (.uop op v k) rs s = Prog.run job (k (transact op v s.world).1) rs' s' ∧
      s'.world = (transact op v s.world).2 ∧ s.Came s' [⟨op.word, op.data v, (transact op v s.world).1⟩] :=
  ⟨_, _, rfl, rfl, rfl, rfl⟩

theorem ok_wr {op : MicroOp} {v : Byte} {k : Prog} (h : (Prog.run job (wr op v k) rs s).okResult) :
    ∃ b rs' s', (transact op v s.world).1 = .ok b ∧ Prog.run job (wr op v k) rs s = Prog.run job k rs' s' ∧
      s'.world = (transact op v s.world).2 ∧ s.Came s' [⟨op.word, op.data v, .ok b⟩] := by
  obtain ⟨rs', s', e, hs, hc⟩ := run_uop (job := job) op v _ rs s
  unfold wr at h ⊢
  rw [e] at h ⊢
  cases hr : (transact op v s.world).1 with
  | error => rw [hr] at h; exact (error_not_ok (by decide) h).elim
  | ok b => exact ⟨b, rs', s', rfl, rfl, hs, hr ▸ hc⟩

theorem ok_rd {op : MicroOp} {k : List Byte → Prog} (h : (Prog.run job (rd op k) rs s).okResult) :
    ∃ b rs' s', (transact op 0 s.world).1 = .ok b ∧ Prog.run job (rd op k) rs s = Prog.run job (k b) rs' s' ∧
      s'.world = (transact op 0 s.world).2 ∧ s.Came s' [⟨op.word, op.data 0, .ok b⟩] := by
  obtain ⟨rs', s', e, hs, hc⟩ := run_uop (job := job) op 0 _ rs s
  unfold rd at h ⊢
  rw [e] at h ⊢
  cases hr : (transact op 0 s.world).1 with
  | error => rw [hr] at h; exact (error_not_ok (by decide) h).elim
  | ok b => exact ⟨b, rs', s', rfl, rfl, hs, hr ▸ hc⟩

/-- The identity poll, however many reads it took (R131). -/
theorem ok_poll {n : Nat} {k : Prog} (h : (Prog.run job (pollId n k) rs s).okResult) :
    ∃ rs' s' l, Prog.run job (pollId n k) rs s = Prog.run job k rs' s' ∧ s.world.Keeps s'.world ∧ s.Came s' l := by
  induction n generalizing rs s with
  | zero => exact (error_not_ok (by decide) h).elim
  | succ n ih =>
    obtain ⟨rs', s', e, hs, hc⟩ := run_uop (job := job) .rdId 0 _ rs s
    have hk : s.world.Keeps s'.world := hs ▸ transact_keeps _ _ _
    unfold pollId at h ⊢
    rw [e] at h ⊢
    split at h <;> rename_i h1
    · rw [if_pos h1]
      exact ⟨rs', s', _, rfl, hk, hc⟩
    · rw [if_neg h1]
      split at h <;> rename_i h2
      · split at h <;> exact (error_not_ok (by decide) h).elim
      · rw [if_neg h2]
        obtain ⟨rs2, s2, l, a1, a2, a3⟩ := ih h
        exact ⟨rs2, s2, _, a1, hk.trans a2, hc.trans a3⟩

/-! ## The soft reset -/

/-- The sensor at rest with the contents a soft reset leaves (R194). -/
structure Sensor.Fresh (sen : Sensor) : Prop where
  quiet    : sen.quiet = true
  ctrlHum  : sen.ctrlHum = 0
  ctrlMeas : sen.ctrlMeas = 0
  config   : sen.config = 0
  data     : sen.data = [0x80, 0, 0, 0x80, 0, 0, 0x80, 0]
  humEff   : sen.humEff = 0

/-- The clock alone moved, and not back. -/
theorem Sensor.Fresh.later {sen : Sensor} (h : sen.Fresh) (n : Nat) : Sensor.Fresh { sen with clock := sen.clock + n } := by
  obtain ⟨h1, h2, h3, h4⟩ := quiet_iff.1 h.quiet
  refine ⟨quiet_iff.2 ⟨h1, h2, ?_, h4⟩, h.2, h.3, h.4, h.5, h.6⟩
  simp only [Sensor.settled, decide_eq_true_eq] at h3 ⊢
  omega

/-- A soft reset and the wait of 2 ms leave a fresh sensor. -/
theorem softReset_wait_fresh {w : World} (hc : w.sen.conforming = true) (hw : w.sen.regs.wf = true) :
    ((w.softReset 0xB6).wait 2).sen.Fresh := by
  obtain ⟨r1, r2, r3, r4⟩ := softReset_regs hw
  have e : ((w.softReset 0xB6).wait 2).sen =
      { (w.softReset 0xB6).sen with clock := w.sen.clock + (80 + (w.softReset 0xB6).delay.1) } := by
    unfold World.wait
    dsimp only
    rw [evolve_advance (by rw [delay_sen]; exact hc) (by rw [delay_sen]; rfl)]
    simp only [World.advance, delay_sen]
    rfl
  have hr (a : Nat) : ((w.softReset 0xB6).wait 2).sen.reg a = (w.softReset 0xB6).sen.reg a :=
    reg_congr (by rw [e]) (by rw [e])
  refine ⟨quiet_iff.2 ⟨?_, ?_, ?_, ?_⟩, (hr _).trans r1, (hr _).trans r2, (hr _).trans r3,
    (burst_congr fun j _ _ => hr j).trans r4, by rw [e]; rfl⟩
  · rw [e]; exact hc
  · rw [e]; rfl
  · rw [e]
    show decide (w.sen.clock + 80 ≤ w.sen.clock + (80 + _)) = true
    exact decide_eq_true (by omega)
  · rw [e]; rfl

/-- SOFT_RESET answered Ok leaves every conforming sensor fresh, settled before or not (R130, R194, R265). -/
theorem ok_softReset {k : Prog} (hc : s.world.sen.conforming = true) (hw : s.world.sen.regs.wf = true)
    (h : (Prog.run job (softReset k) rs s).okResult) :
    ∃ rs' s' l, Prog.run job (softReset k) rs s = Prog.run job k rs' s' ∧ s.world.Keeps s'.world ∧ s.Came s' l ∧
      s'.world.sen.Fresh := by
  obtain ⟨b, rs1, s1, hb, e1, w1, c1⟩ := ok_wr h
  obtain ⟨rs2, s2, e2, w2, c2⟩ := run_uop (job := job) (.wait Config.tResetMs) 0 (fun _ => k) rs1 s1
  obtain ⟨x, hx, hs⟩ := reset_answered hc hb
  have hk := evolve_keeps s.world
  have hf := softReset_wait_fresh (w := x) (by rw [hs]; exact hk.conforming.trans hc) (by rw [hs]; exact hk.wf hw)
  refine ⟨rs2, s2, _, e1.trans e2, ?_, c1.trans c2, ?_⟩
  · rw [w2, w1]
    exact (transact_keeps .wrReset _ _).trans (transact_keeps (.wait 2) 0 _)
  · rw [w2, w1, hx]
    exact hf

/-! ## Transactions of a sensor at rest, given that they were answered Ok -/

/-- What no activity changes reads as before (R32, R34). -/
theorem World.Keeps.reg {w w' : World} (h : World.Keeps w w') (hc : w.sen.conforming = true) {a : Nat}
    (ha : changeable a = false) : w'.sen.reg a = w.sen.reg a := reg_congr h.conforming (h.regs hc a ha)

theorem readBurst_answered {w : World} {a n : Nat} {b : List Byte} (hq : w.sen.quiet = true)
    (h : (w.readBurst a n).1 = .ok b) : b = w.sen.burst a n ∧ (w.readBurst a n).2.sen = w.sen := by
  refine ⟨?_, by rw [readBurst_world, outcome_sen, evolve_quiet hq]⟩
  rw [readBurst_quiet hq] at h
  dsimp only at h
  split at h
  · simpa using h.symm
  · simp at h

theorem writeByte_answered {w : World} {a : Nat} {effect : World → World} {b : List Byte} (hq : w.sen.quiet = true)
    (h : (w.writeByte a effect).1 = .ok b) : ∃ x : World, (w.writeByte a effect).2 = effect x ∧ x.sen = w.sen := by
  rw [writeByte_quiet hq] at h ⊢
  split at h
  · exact ⟨_, rfl, outcome_sen 0 w⟩
  · simp at h

end Sys2Proof.Machine
end

