-- ==== Sys2Proof/Tests/Slice0.lean ====
section
/-! SUPPORT. The model's own tests. Every expected result is taken from spec/95_test_vectors.md or worked out by hand from
the rule named; each runs one step at most. The witnesses at the end meet the hypotheses of the statements. -/

namespace Sys2Proof.Tests

open Sys2Proof Sys2Proof.Machine

/-! ## Helpers -/

/-- The fixture of V-CAL-1, `tp` at 0x88..0xA1. -/
def fixtureTp : List Byte :=
  [0x70, 0x6B, 0x43, 0x67, 0x18, 0xFC, 0x7D, 0x8E, 0x43, 0xD6, 0xD0, 0x0B, 0x27] ++
    [0x0B, 0x8C, 0x00, 0xF9, 0xFF, 0x8C, 0x3C, 0xF8, 0xC6, 0x70, 0x17, 0x00, 0x4B]
/-- The fixture of V-CAL-1, `h` at 0xE1..0xE7. -/
def fixtureH : List Byte := [0x6A, 0x01, 0x00, 0x13, 0x29, 0x03, 0x1E]
/-- The coefficients of V-CAL-1. -/
def fixture : CalibrationData := parseCalib fixtureTp fixtureH
/-- The burst of V-E2E. -/
def burst : List Byte := [0x65, 0x5A, 0xC0, 0x7E, 0xED, 0x00, 0x75, 0x30]

/-- Scripted answers, and draws that are all 0. -/
def env (replies : List Reply) : Env := ⟨replies, [burst], List.replicate 4 0, List.replicate 40 0, 0, 0⟩
/-- No bus error in a dozen and more transactions. -/
def fine : Env := env (List.replicate 20 (.ok []))

/-- A conforming sensor with the fixture's calibration and these control registers. -/
def sensor (xh xm xc : Byte) (act : Activity) : Sensor where
  conforming := true
  regs := ((((Memory.writeBytes [] 0x88 fixtureTp).writeBytes 0xE1 fixtureH).write 0xF2 xh).write 0xF4 xm).write 0xF5 xc
  humEff := 0
  activity := act
  clock := 0
  settleAt := 0
  wild := false

/-- A block in this mode, initialised with the fixture, before that sensor. -/
def ready (m : Mode) (xh xm xc : Byte) (act : Activity) : State :=
  { State.reset with ctl := ⟨true, m, some fixture, .idle⟩, world := ⟨sensor xh xm xc act, fine⟩ }

/-- The block after reset before a sensor of which nothing is assumed, with these answers coming. -/
def scripted (replies : List Reply) : State :=
  { State.reset with world := { State.reset.world with env := env replies } }

/-- The same with the fixture loaded and this mode. -/
def scriptedIn (m : Mode) (replies : List Reply) : State :=
  { scripted replies with ctl := ⟨true, m, some fixture, .idle⟩ }

/-- A READ line of a trace. -/
def rdLine (w : Word) (b : List Byte) : TraceEntry := ⟨w, [], .ok b⟩
/-- A WRITE line of a trace. -/
def wrLine (w : Word) (v : Byte) : TraceEntry := ⟨w, [v], .ok []⟩
/-- A WAIT line of a trace. -/
def waitLine (w : Word) : TraceEntry := ⟨w, [], .ok []⟩

/-- What a step leaves: the result and the trace. -/
def seen : Host.Outcome State Fault Refusal → Option (Option Result × List TraceEntry)
  | .next t => some (t.host.result, t.trace)
  | .fault _ => none
  | .refused _ => none

/-- What a step leaves of the block's record. -/
def ctlOf : Host.Outcome State Fault Refusal → Option Ctl
  | .next t => some t.ctl
  | .fault _ => none
  | .refused _ => none

/-- The answer a step latches, and the sensor's three control registers after it. -/
def answerOf : Host.Outcome State Fault Refusal → Option (Option Reply × Byte × Byte × Byte)
  | .next t => some (t.port.reply, t.world.sen.ctrlHum, t.world.sen.ctrlMeas, t.world.sen.config)
  | .fault _ => none
  | .refused _ => none

/-- The sensor's activity after a step. -/
def activityAfter : Host.Outcome State Fault Refusal → Option Activity
  | .next t => some t.world.sen.activity
  | .fault _ => none
  | .refused _ => none

/-- A step that answers a next state. -/
def isNext : Host.Outcome State Fault Refusal → Bool
  | .next _ => true
  | .fault _ => false
  | .refused _ => false

/-- One step with this word where it is fetched. -/
def stepWith (s : State) (w : Nat) : Host.Outcome State Fault Refusal := step (s.withFetchWord 32 w)

/-- One step with this micro-operation and this byte beside it. -/
def stepWrite (s : State) (w : Nat) (v : Byte) : Host.Outcome State Fault Refusal :=
  step { s.withFetchWord 32 w with port := { (s.withFetchWord 32 w).port with wdata := v } }

/-! ## Well-formedness: the one check and the term it refuses (R76) -/

theorem test_wf_refuses_long_wait : (Instr.wait 65536).wf = false ∧ (Instr.wait 65535).wf = true := by decide

/-! ## Decoding: words written out from R70 to R73, R76 to R78 -/

/-- `{op, rsv, operand}` of R70, the operands of R72 and R73. -/
theorem test_decode_commands :
    decode .command (0b0001#4 ++ 0#13 ++ 0#15) = .ok .init ∧
    decode .command (0b0010#4 ++ 0#13 ++ 0b001#3 ++ 0b010#3 ++ 0b011#3 ++ 0b100#3 ++ 0b101#3) =
      .ok (.setSettings ⟨1, 2, 3, 4, 5⟩) ∧
    decode .command (0b0011#4 ++ 0#13 ++ 0#13 ++ 0b00#2) = .ok .setModeSleep ∧
    decode .command (0b0011#4 ++ 0#13 ++ 0#13 ++ 0b01#2) = .ok .setModeForced ∧
    decode .command (0b0011#4 ++ 0#13 ++ 0#13 ++ 0b11#2) = .ok .setModeNormal ∧
    decode .command (0b0100#4 ++ 0#13 ++ 0#15) = .ok .sleep ∧
    decode .command (0b0101#4 ++ 0#13 ++ 0#15) = .ok .getMode ∧
    decode .command (0b0110#4 ++ 0#13 ++ 0#15) = .ok .getSettings ∧
    decode .command (0b0111#4 ++ 0#13 ++ 0#15) = .ok .forceMeasurement ∧
    decode .command (0b1000#4 ++ 0#13 ++ 0#15) = .ok .read := by decide

/-- `{kind, rsv, len, addr}` and `{kind, rsv, ms}` of R76, the rows of R77 and R78. -/
theorem test_decode_micro_operations :
    decode .microOp (0b01#2 ++ 0#14 ++ 1#8 ++ 0xD0#8) = .ok .rdId ∧
    decode .microOp (0b00#2 ++ 0#14 ++ 1#8 ++ 0xE0#8) = .ok .wrReset ∧
    decode .microOp (0b01#2 ++ 0#14 ++ 26#8 ++ 0x88#8) = .ok .rdCalibTp ∧
    decode .microOp (0b01#2 ++ 0#14 ++ 7#8 ++ 0xE1#8) = .ok .rdCalibH ∧
    decode .microOp (0b01#2 ++ 0#14 ++ 1#8 ++ 0xF2#8) = .ok .rdCtrlHum ∧
    decode .microOp (0b00#2 ++ 0#14 ++ 1#8 ++ 0xF2#8) = .ok .wrCtrlHum ∧
    decode .microOp (0b01#2 ++ 0#14 ++ 1#8 ++ 0xF4#8) = .ok .rdCtrlMeas ∧
    decode .microOp (0b00#2 ++ 0#14 ++ 1#8 ++ 0xF4#8) = .ok .wrCtrlMeas ∧
    decode .microOp (0b01#2 ++ 0#14 ++ 1#8 ++ 0xF5#8) = .ok .rdConfig ∧
    decode .microOp (0b00#2 ++ 0#14 ++ 1#8 ++ 0xF5#8) = .ok .wrConfig ∧
    decode .microOp (0b01#2 ++ 0#14 ++ 8#8 ++ 0xF7#8) = .ok .rdData ∧
    decode .microOp (0b10#2 ++ 0#14 ++ 0x0071#16) = .ok (.wait 113) := by decide

/-- The refused words of V-COD-7, each by its reason (R74). -/
theorem test_reserved_commands :
    decode .command 0x30000002 = .error .modeCodeTwo ∧ decode .command 0x10000001 = .error .operandNotZero ∧
    decode .command 0x30000004 = .error .operandNotZero ∧ decode .command 0x20008000 = .error .reservedCommandBits ∧
    decode .command 0x00000000 = .error .reservedOpcode ∧ decode .command 0x90000000 = .error .reservedOpcode ∧
    decode .command 0xF0000000 = .error .reservedOpcode := by decide

/-- R79: `kind = 0b11`, non-zero `rsv`, `len = 0`, another length, another address, a write where only reads are issued. -/
theorem test_reserved_micro_operations :
    decode .microOp 0xC0000000 = .error .reservedKind ∧ decode .microOp 0x400101D0 = .error .reservedMicroOpBits ∧
    decode .microOp 0x400000D0 = .error .notIssued ∧ decode .microOp 0x400002D0 = .error .notIssued ∧
    decode .microOp 0x400001F3 = .error .notIssued ∧ decode .microOp 0x000001D0 = .error .notIssued := by decide

/-- The two ports read the one word they share in their own way (R85); log entry 3. -/
theorem test_shared_word :
    decode .command 0x80000000 = .ok .read ∧ decode .microOp 0x80000000 = .ok (.wait 0) ∧
    decodeTableWord 32 0x80000000 = some .read ∧ decodeTableWord 32 0x80000002 = some (.wait 2) ∧
    decodeTableWord 32 0x90000000 = none := by decide

/-! ## Vectors of the pure functions -/

/-- V-CAL-1. -/
theorem test_calibration_fixture :
    (fixture.t1.toNat, fixture.t2.toInt, fixture.t3.toInt) = (27504, 26435, -1000) ∧
    (fixture.p1.toNat, fixture.p2.toInt, fixture.p3.toInt, fixture.p4.toInt, fixture.p5.toInt) =
      (36477, -10685, 3024, 2855, 140) ∧
    (fixture.p6.toInt, fixture.p7.toInt, fixture.p8.toInt, fixture.p9.toInt) = (-7, 15500, -14600, 6000) ∧
    (fixture.h1.toNat, fixture.h2.toInt, fixture.h3.toNat) = (75, 362, 0) ∧
    (fixture.h4.toInt, fixture.h5.toInt, fixture.h6.toInt) = (313, 50, 30) := by decide

/-- V-CAL-2: the packed pair, with the negative fixture and the unsigned H4. -/
theorem test_packed_pair :
    ([[0, 0, 0, 0x05, 0x45, 0xFF, 0], [0, 0, 0, 0xFF, 0x0F, 0x00, 0], [0, 0, 0, 0x00, 0x00, 0x80, 0],
      [0, 0, 0, 0x00, 0xF0, 0xFF, 0], [0, 0, 0, 0x80, 0x00, 0x00, 0]].map fun h => ((h4Of h).toInt, (h5Of h).toInt)) =
      [(85, -12), (4095, 0), (0, -2048), (0, -1), (2048, 0)] := by decide

/-- V-COD-1 and V-COD-2. -/
theorem test_field_codes :
    ([0, 1, 2, 3, 4, 5, 6, 7] : List Code).map decodeOsrs = [0, 1, 2, 3, 4, 5, 5, 5] ∧
    ([0, 1, 2, 3, 4, 5, 6, 7] : List Code).map decodeFilter = [0, 1, 2, 3, 4, 4, 4, 4] ∧
    ([0, 1, 2, 3] : List (BitVec 2)).map decodeMode = [.sleep, .forced, .forced, .normal] ∧
    [Mode.sleep, .forced, .normal].map encodeMode = [0, 1, 3] := by decide

/-- V-COD-3. -/
theorem test_decodeSettings :
    payloadWords (.settings (decodeSettings 0x05 0xB5 0xA0)) = [0x516D] ∧
    payloadWords (.settings (decodeSettings 0xFF 0xFF 0xFF)) = [0x796D] ∧
    payloadWords (.settings (decodeSettings 0xF9 0x4A 0x1F)) = [0x0891] ∧
    payloadWords (.settings (decodeSettings 0x01 0x54 0x10)) = [0x08A9] := by decide

/-- V-COD-5 and V-COD-6. -/
theorem test_written_bytes :
    rmwByte 0xB4 0x03 0x01 = 0xB5 ∧ rmwByte 0xB7 0x03 0x01 = 0xB5 ∧ rmwByte 0x00 0x03 0x03 = 0x03 ∧
    rmwByte 0xF8 0x07 0x05 = 0xFD ∧ rmwByte 0x03 0xFC 0xB4 = 0xB7 ∧ rmwByte 0xFF 0xFC 0xA0 = 0xA3 ∧
    ctrlMeasForced ⟨0, 0, 5, 5, 0⟩ = 0xB5 ∧ ctrlMeasForced ⟨0, 0, 1, 0, 0⟩ = 0x21 ∧
    ctrlMeasForced ⟨0, 0, 0, 0, 0⟩ = 0x01 := by decide

/-- V-TIM. -/
theorem test_forced_wait :
    (([(0, 0, 0), (1, 0, 0), (0, 1, 0), (0, 0, 1), (1, 1, 1), (3, 3, 3), (4, 4, 4), (7, 7, 7), (1, 5, 0), (0, 1, 1),
      (5, 0, 0)] : List (Code × Code × Code)).map fun c => measWaitMs ⟨0, 0, c.1, c.2.1, c.2.2⟩) =
      [2, 4, 5, 5, 10, 30, 113, 113, 41, 7, 39] := by decide

/-- V-UNP. -/
theorem test_unpack :
    unpackRaw burst = ⟨415148, 519888, 30000⟩ ∧ unpackRaw [0x80, 0, 0, 0x80, 0, 0, 0x80, 0] = ⟨524288, 524288, 32768⟩ ∧
    unpackRaw [0xFF, 0xFF, 0xFF, 0xFF, 0xFF, 0xFF, 0xFF, 0xFF] = ⟨1048575, 1048575, 65535⟩ ∧
    unpackRaw [0, 0, 0x0F, 0, 0, 0x0F, 0, 0] = ⟨0, 0, 0⟩ := by decide

/-- V-T-1, V-T-2, V-T-6, V-T-9 and the overflow V-T-10. -/
theorem test_temperature :
    compT 519888 fixture = some (2508, 128423) ∧ compT 0 fixture = some (-4000, -721299) ∧
    compT 1048575 fixture = some (8500, 960247) ∧
    compT 800000 { fixture with t1 := 10000, t2 := BitVec.ofInt 16 (-20000), t3 := 0 } = some (-4000, -781250) ∧
    compT 1048575 { fixture with t1 := 0, t2 := 32767, t3 := 0 } = none := by decide

/-- V-P-1, V-P-2, V-P-6, V-P-9 and the pressure outside u32, V-P-8. -/
theorem test_pressure :
    compP 415148 128423 fixture = some 10065328 ∧ compP 0 128423 fixture = some 11000000 ∧
    compP 600000 128423 fixture = some 6891951 ∧ compP 415148 128423 { fixture with p1 := 0 } = some 3000000 ∧
    compP 1048575 128423 fixture = none := by decide

/-- V-H-1, V-H-2, V-H-8 and the overflow V-H-9. -/
theorem test_humidity :
    compH 30000 128423 fixture = some 56317 ∧ compH 0 128423 fixture = some 0 ∧ compH 65535 128423 fixture = some 102400 ∧
    compH 30000 128423 { fixture with h4 := 2048 } = none := by decide

/-! ## Commands, one step each -/

/-- V-MODE-1: INIT with the identity on the first read. -/
theorem test_init_loads :
    seen (stepWith { State.reset with world := ⟨sensor 0x05 0xB7 0xA0 .idle, fine⟩ } 0x10000000) =
      some (some ⟨.ok, .none, none⟩,
        [rdLine 0x400001D0 [0x60], wrLine 0x000001E0 0xB6, waitLine 0x80000002, rdLine 0x40001A88 fixtureTp,
          rdLine 0x400007E1 fixtureH, waitLine 0x80000001]) ∧
    ctlOf (stepWith { State.reset with world := ⟨sensor 0x05 0xB7 0xA0 .idle, fine⟩ } 0x10000000) =
      some ⟨true, .sleep, some fixture, .idle⟩ := by decide

/-- A sensor that a reset write just failed has left unsettled, with open contents. -/
def unsettledSensor : Sensor := { sensor 5 0xB7 0xA0 (.normal true none) with settleAt := 80, wild := true }

/-- An oracle that answers the first identity read 0x60. -/
def identifying : Env := env [.ok [0x60], .ok [], .ok fixtureTp, .ok fixtureH]

/-- R265: INIT brings that sensor back to its reset contents, and loads the coefficients. -/
theorem test_init_recovers :
    answerOf (stepWith { State.reset with world := ⟨unsettledSensor, identifying⟩ } 0x10000000) =
      some (some (.ok []), 0, 0, 0) ∧
    ctlOf (stepWith { State.reset with world := ⟨unsettledSensor, identifying⟩ } 0x10000000) =
      some ⟨true, .sleep, some fixture, .idle⟩ := by decide
/-- V-MODE-2: INIT on an initialised block, never matching, the fifth answer a byte. -/
theorem test_init_mismatch :
    seen (stepWith (scriptedIn .normal [.ok [0x58], .error, .ok [0x00], .error, .ok [0x58]]) 0x10000000) =
      some (some ⟨.identityMismatchError, .none, none⟩,
        [rdLine 0x400001D0 [0x58], ⟨0x400001D0, [], .error⟩, rdLine 0x400001D0 [0x00], ⟨0x400001D0, [], .error⟩,
          rdLine 0x400001D0 [0x58]]) ∧
    ctlOf (stepWith (scriptedIn .normal [.ok [0x58], .error, .ok [0x00], .error, .ok [0x58]]) 0x10000000) =
      some ⟨false, .normal, some fixture, .idle⟩ := by decide

/-- The example of R133. -/
theorem test_setSettings_asleep :
    seen (stepWith (ready .sleep 0 0 0 .idle) 0x2000516D) =
      some (some ⟨.ok, .none, none⟩,
        [rdLine 0x400001F4 [0x00], rdLine 0x400001F2 [0x00], wrLine 0x000001F2 0x05, rdLine 0x400001F4 [0x00],
          wrLine 0x000001F4 0xB4, rdLine 0x400001F5 [0x00], wrLine 0x000001F5 0xA0]) := by decide

/-- P4 step 1: SET_SETTINGS from Normal, 17 transactions and WAIT 2. -/
theorem test_setSettings_normal :
    seen (stepWith (ready .normal 0x05 0xB7 0xA0 (.normal false none)) 0x200008A9) =
      some (some ⟨.ok, .none, none⟩,
        [rdLine 0x400001F4 [0xB7], rdLine 0x400001F2 [0x05], rdLine 0x400001F4 [0xB7], rdLine 0x400001F5 [0xA0],
          wrLine 0x000001E0 0xB6, waitLine 0x80000002, rdLine 0x400001F2 [0x00], wrLine 0x000001F2 0x05,
          rdLine 0x400001F4 [0x00], wrLine 0x000001F4 0xB4, rdLine 0x400001F5 [0x00], wrLine 0x000001F5 0xA0] ++
          [rdLine 0x400001F2 [0x05], wrLine 0x000001F2 0x01, rdLine 0x400001F4 [0xB4], wrLine 0x000001F4 0x54,
            rdLine 0x400001F5 [0xA0], wrLine 0x000001F5 0x10]) := by decide

/-- SET_MODE sleep with a sensor that reads Sleep: one read-modify-write of the mode bits (R134). -/
theorem test_setModeSleep :
    seen (stepWith (scriptedIn .forced [.ok [0xB4], .ok [0xB4], .ok []]) 0x30000000) =
      some (some ⟨.ok, .none, none⟩, [rdLine 0x400001F4 [0xB4], rdLine 0x400001F4 [0xB4], wrLine 0x000001F4 0xB4]) ∧
    ctlOf (stepWith (scriptedIn .forced [.ok [0xB4], .ok [0xB4], .ok []]) 0x30000000) =
      some ⟨true, .sleep, some fixture, .idle⟩ := by decide

/-- The example of R134, and the conversion it starts: t40(5, 5, 5) = 4512 (V-TIM). -/
theorem test_setModeForced :
    seen (stepWith (ready .sleep 0x05 0xB4 0xA0 .idle) 0x30000001) =
      some (some ⟨.ok, .none, none⟩, [rdLine 0x400001F4 [0xB4], rdLine 0x400001F4 [0xB4], wrLine 0x000001F4 0xB5]) ∧
    activityAfter (stepWith (ready .sleep 0x05 0xB4 0xA0 .idle) 0x30000001) = some (.forced 4512 4512) := by decide

/-- V-MODE-6: a bus error in the read of the read-modify-write. -/
theorem test_setModeNormal_error :
    seen (stepWith (scriptedIn .sleep [.ok [0xB4], .error]) 0x30000003) =
      some (some ⟨.busError, .none, some 0x400001F4⟩, [rdLine 0x400001F4 [0xB4], ⟨0x400001F4, [], .error⟩]) ∧
    ctlOf (stepWith (scriptedIn .sleep [.ok [0xB4], .error]) 0x30000003) = some ⟨true, .sleep, some fixture, .idle⟩ := by
  decide

/-- U1: the mode write of a SET_MODE fails without effect, and 0xF4 then holds whatever is drawn (here 0x99); 0xF2 and
0xF5, which no WRITE of it named, keep their bytes. -/
theorem test_failed_setMode_register :
    answerOf (stepWith { ready .sleep 0x05 0xB4 0xA0 .idle with
      world := ⟨sensor 0x05 0xB4 0xA0 .idle, { env [.ok [], .ok [], .error] with draws := [0, 0x99] }⟩ } 0x30000001) =
      some (some .error, 0x05, 0x99, 0xA0) := by decide

/-- V-MODE-4: SET_MODE normal. -/
theorem test_setModeNormal :
    seen (stepWith (ready .sleep 0x05 0xB4 0xA0 .idle) 0x30000003) =
      some (some ⟨.ok, .none, none⟩, [rdLine 0x400001F4 [0xB4], rdLine 0x400001F4 [0xB4], wrLine 0x000001F4 0xB7]) ∧
    ctlOf (stepWith (ready .sleep 0x05 0xB4 0xA0 .idle) 0x30000003) = some ⟨true, .normal, some fixture, .idle⟩ := by decide

/-- V-MODE-3: SLEEP with a code collapse. -/
theorem test_sleep_collapses :
    seen (stepWith (ready .normal 0x07 0xFB 0xFC (.normal false none)) 0x40000000) =
      some (some ⟨.ok, .none, none⟩,
        [rdLine 0x400001F2 [0x07], rdLine 0x400001F4 [0xFB], rdLine 0x400001F5 [0xFC], wrLine 0x000001E0 0xB6,
          waitLine 0x80000002, rdLine 0x400001F2 [0x00], wrLine 0x000001F2 0x05, rdLine 0x400001F4 [0x00],
          wrLine 0x000001F4 0xB4, rdLine 0x400001F5 [0x00], wrLine 0x000001F5 0xF0]) := by decide

/-- P5 step 1: the write of the restore fails, and `ctl.mode` stays Normal. -/
theorem test_sleep_error :
    ctlOf (stepWith (scriptedIn .normal
      [.ok [0x05], .ok [0xB7], .ok [0xA0], .ok [], .ok [0x00], .error]) 0x40000000) =
      some ⟨true, .normal, some fixture, .idle⟩ ∧
    (seen (stepWith (scriptedIn .normal
      [.ok [0x05], .ok [0xB7], .ok [0xA0], .ok [], .ok [0x00], .error]) 0x40000000)).map Prod.fst =
      some (some ⟨.busError, .none, some 0x000001F2⟩) := by decide

/-- V-MODE-7: code 0b10 reads Forced. -/
theorem test_getMode :
    seen (stepWith (scripted [.ok [0xB6]]) 0x50000000) =
      some (some ⟨.ok, .mode .forced, none⟩, [rdLine 0x400001F4 [0xB6]]) := by decide

/-- P4 step 2. -/
theorem test_getSettings :
    seen (stepWith (ready .sleep 0x01 0x54 0x10 .idle) 0x60000000) =
      some (some ⟨.ok, .settings ⟨0, 4, 2, 5, 1⟩, none⟩,
        [rdLine 0x400001F2 [0x01], rdLine 0x400001F4 [0x54], rdLine 0x400001F5 [0x10]]) := by decide

/-- V-MEAS-1: the humidity code 7 is written back as 5; the wait is 81 ms. -/
theorem test_forceMeasurement :
    seen (stepWith (ready .sleep 0x07 0x54 0x10 .idle) 0x70000000) =
      some (some ⟨.ok, .none, none⟩,
        [rdLine 0x400001F2 [0x07], rdLine 0x400001F4 [0x54], rdLine 0x400001F5 [0x10], wrLine 0x000001F2 0x05,
          wrLine 0x000001F4 0x55, waitLine 0x80000051]) := by decide

/-- V-MEAS-2: in Normal. -/
theorem test_forceMeasurement_normal :
    seen (stepWith (ready .normal 0 3 0 (.normal true none)) 0x70000000) =
      some (some ⟨.invalidStateError, .none, none⟩, []) := by decide

/-- V-MEAS-4: READ in Sleep. -/
theorem test_read :
    seen (stepWith (scriptedIn .sleep [.ok burst]) 0x80000000) =
      some (some ⟨.ok, .measurement 2508 10065328 56317, none⟩, [rdLine 0x400008F7 burst]) := by decide

/-- P2 step 4, its last lines: READ in Forced waits and reads the sample that ended. -/
theorem test_read_forced :
    (seen (stepWith (ready .forced 0x05 0xB4 0xA0 .idle) 0x80000000)).map Prod.fst =
      some (some ⟨.ok, .measurement 2508 10065328 56317, none⟩) ∧
    answerOf (stepWith (ready .forced 0x05 0xB4 0xA0 .idle) 0x80000000) =
      some (some (.ok burst), 0x05, 0xB4, 0xA0) := by decide

/-- P3 steps 1, 6 and 7: READ before INIT, and two reserved words. -/
theorem test_no_micro_operation :
    seen (stepWith State.reset 0x80000000) = some (some ⟨.uninitializedError, .none, none⟩, []) ∧
    seen (stepWith State.reset 0x90000000) = some (some ⟨.refused, .none, none⟩, []) ∧
    seen (stepWith State.reset 0x30000002) = some (some ⟨.refused, .none, none⟩, []) := by decide

/-- R225: a command presented while another runs is refused, and the other goes on. -/
theorem test_busy_refused :
    (match step { begin .getMode (scripted [.ok [0xB6]]) with host := ⟨some 0x10000000, [], none⟩ } with
      | .next t => some (t.host.result, t.ctl.seq, t.port.uop)
      | .fault _ => none
      | .refused _ => none) =
      some (some ⟨.refused, .none, none⟩, .busy .getMode [], some 0x400001F4) := by decide

/-! ## Micro-operations, one step each, before a conforming sensor -/

theorem test_rdId : answerOf (stepWith (ready .sleep 5 0xB4 0xA0 .idle) 0x400001D0) =
    some (some (.ok [0x60]), 5, 0xB4, 0xA0) := by decide
/-- R194: the registers after the soft reset, in the middle of a conversion. -/
theorem test_wrReset : answerOf (stepWith (ready .sleep 5 0xB5 0xA0 (.forced 4512 4512)) 0x000001E0) =
    some (some (.ok []), 0, 0, 0) ∧
    activityAfter (stepWith (ready .sleep 5 0xB5 0xA0 (.forced 4512 4512)) 0x000001E0) = some .idle := by decide
/-- R33: another byte has no effect. -/
theorem test_wrReset_other : answerOf (stepWrite (ready .sleep 5 0xB4 0xA0 .idle) 0x000001E0 0xB7) =
    some (some (.ok []), 5, 0xB4, 0xA0) := by decide
theorem test_rdCalibTp : answerOf (stepWith (ready .sleep 0 0 0 .idle) 0x40001A88) =
    some (some (.ok fixtureTp), 0, 0, 0) := by decide
theorem test_rdCalibH : answerOf (stepWith (ready .sleep 0 0 0 .idle) 0x400007E1) =
    some (some (.ok fixtureH), 0, 0, 0) := by decide
theorem test_rdCtrlHum : answerOf (stepWith (ready .sleep 5 0xB4 0xA0 .idle) 0x400001F2) =
    some (some (.ok [0x05]), 5, 0xB4, 0xA0) := by decide
theorem test_wrCtrlHum : answerOf (stepWrite (ready .sleep 5 0xB4 0xA0 .idle) 0x000001F2 0xFA) =
    some (some (.ok []), 0xFA, 0xB4, 0xA0) := by decide
/-- The example of R202: during a forced conversion the mode bits read as written. -/
theorem test_rdCtrlMeas : answerOf (stepWith (ready .sleep 5 0xB5 0xA0 (.forced 4512 4512)) 0x400001F4) =
    some (some (.ok [0xB5]), 5, 0xB5, 0xA0) := by decide
/-- R198: the start of a forced conversion by the second code 0b10; t40(0, 0, 1) = 165 (V-TIM). -/
theorem test_wrCtrlMeas : activityAfter (stepWrite (ready .sleep 1 0 0 .idle) 0x000001F4 0x02) =
    some (.forced 165 165) ∧
    answerOf (stepWrite (ready .sleep 1 0 0 .idle) 0x000001F4 0x02) = some (some (.ok []), 1, 2, 0) := by decide
theorem test_rdConfig : answerOf (stepWith (ready .sleep 5 0xB4 0xA3 .idle) 0x400001F5) =
    some (some (.ok [0xA3]), 5, 0xB4, 0xA3) := by decide
theorem test_wrConfig : answerOf (stepWrite (ready .sleep 5 0xB4 0xA0 .idle) 0x000001F5 0x13) =
    some (some (.ok []), 5, 0xB4, 0x13) := by decide
/-- R203 (a): the reset contents. -/
theorem test_rdData : answerOf (stepWith (ready .sleep 0 0 0 .idle) 0x400008F7) =
    some (some (.ok [0x80, 0, 0, 0x80, 0, 0, 0x80, 0]), 0, 0, 0) := by decide
/-- R199: after a wait of the bound a forced conversion has ended, and only the mode bits are cleared. -/
theorem test_wait : answerOf (stepWith (ready .sleep 5 0xB5 0xA0 (.forced 4512 4512)) 0x80000071) =
    some (some (.ok []), 5, 0xB4, 0xA0) := by decide
/-- R199: before the bound it may still run. -/
theorem test_wait_short : answerOf (stepWith (ready .sleep 5 0xB5 0xA0 (.forced 4512 4512)) 0x80000070) =
    some (some (.ok []), 5, 0xB5, 0xA0) := by decide
/-- R79: a reserved word on the bus port has no meaning. -/
theorem test_reserved_on_port :
    (match step { State.reset with port := ⟨some 0xC0000000, 0, none⟩ } with
      | .next _ => none
      | .fault _ => none
      | .refused r => some r) = some (.reservedMicroOp 0xC0000000) := by decide

/-- The memory of the reset state and of the tests' sensor is canonical. -/
theorem test_memory_canonical :
    State.reset.world.sen.regs.wf = true ∧ (sensor 5 0xB4 0xA0 .idle).regs.wf = true ∧
    Memory.write [(3, 7)] 3 0 = [] ∧ Memory.write [(3, 7)] 2 1 = [(2, 1), (3, 7)] := by decide

/-! ## Witnesses: the hypotheses of the statements are met -/

/-- The invariant of an idle state, from its decidable parts. -/
theorem inv_of_idle {s : State} (h1 : s.ctl.initialized = true → s.ctl.calib.isSome = true) (h2 : s.ctl.seq = .idle)
    (h3 : s.world.sen.regs.wf = true) : s.Inv := ⟨h1, by simp [State.SeqOk, h2], h3⟩

/-- The fixture's block and sensor meet the invariant. -/
theorem witness_inv : (ready .sleep 5 0xB4 0xA0 .idle).Inv := inv_of_idle (by decide) rfl (by decide)

/-- A busy block at the first micro-operation of GET_MODE meets it too. -/
theorem witness_inv_busy : (begin .getMode (ready .sleep 5 0xB4 0xA0 .idle)).Inv :=
  ⟨by decide, ⟨.rdCtrlMeas, 0, _, rfl, rfl, fun r => by cases r <;> trivial⟩, by decide⟩

theorem witness_ResetState :
    (ready .normal 5 0xB4 0xA0 .idle).host.cmd = none ∧ (ready .normal 5 0xB4 0xA0 .idle).host.queue = [] ∧
    (ready .normal 5 0xB4 0xA0 .idle).blockReset ≠ ready .normal 5 0xB4 0xA0 .idle := by decide
theorem witness_ResetMeetsInvariant : (ready .normal 5 0xB4 0xA0 .idle).world.sen.regs.wf = true := by decide
theorem witness_DecodeOfEncode : (Instr.wait 65535).wf = true ∧ (Instr.setSettings ⟨7, 7, 7, 7, 7⟩).wf = true := by decide
theorem witness_EncodeOfDecode :
    decode .microOp 0x8000FFFF = .ok (.wait 65535) ∧ decode .command 0x20007FFF = .ok (.setSettings ⟨7, 7, 7, 7, 7⟩) := by
  decide

/-- A host that goes on to present GET_MODE. -/
def queued : State := { scripted [.ok [0xB6]] with host := ⟨none, [0x50000000], none⟩ }

theorem witness_StepRunsDecodedInstruction :
    (((scripted []).withFetchWord 32 0x50000000).host.cmd = some 0x50000000 ∧
      decode .command 0x50000000 = .ok .getMode) ∧
    (((scripted []).withFetchWord 32 0x400001F4).host.cmd = none ∧
      ((scripted []).withFetchWord 32 0x400001F4).port.uop = some 0x400001F4 ∧
      decode .microOp 0x400001F4 = .ok .rdCtrlMeas ∧
      isNext (exec .rdCtrlMeas ((scripted []).withFetchWord 32 0x400001F4)) = true) ∧
    (queued.host.cmd = none ∧ queued.port.uop = none ∧ queued.ctl.seq = .idle ∧ queued.host.queue = [0x50000000]) ∧
    (State.reset.host.cmd = none ∧ State.reset.port.uop = none ∧ State.reset.ctl.seq = .idle ∧
      State.reset.host.queue = []) := by decide

theorem witness_PortRefusesReservedOrBusy :
    (State.reset.withFetchWord 32 0x90000000).host.cmd = some 0x90000000 ∧
    decode .command 0x90000000 = .error .reservedOpcode ∧ Instr.port .read = .command ∧
    (begin .getMode (scripted [])).ctl.seq ≠ .idle ∧
    ({ scripted [] with host := ⟨none, [0x30000002], none⟩ } : State).host.queue = 0x30000002 :: [] ∧
    ({ scripted [] with host := ⟨none, [0x30000002], none⟩ } : State).port.uop = none ∧
    decode .command 0x30000002 = .error .modeCodeTwo := by decide

theorem witness_StepKeepsInvariant :
    (begin .getMode (ready .sleep 5 0xB4 0xA0 .idle)).Inv ∧
      isNext (step (begin .getMode (ready .sleep 5 0xB4 0xA0 .idle))) = true := ⟨witness_inv_busy, by decide⟩
theorem witness_NoStepFaults : State.Inv (ready .sleep 5 0xB4 0xA0 .idle) := witness_inv
theorem witness_CommandIsItsMicroOperations :
    (ready .sleep 5 0xB4 0xA0 .idle).ctl.seq = .idle ∧ (ready .sleep 5 0xB4 0xA0 .idle).host.cmd = none := by decide

/-- The exchanges happen from an idle block. -/
def happens (l : List Exchange) (s : State) : Bool := decide (s.ctl.seq = .idle) && (follow l s.world).isSome

/-- What `happens` says. -/
theorem exists_of_happens {l : List Exchange} {s : State} (h : happens l s = true) :
    s.ctl.seq = .idle ∧ ∃ w, follow l s.world = some w := by
  simp only [happens, Bool.and_eq_true, decide_eq_true_eq] at h
  exact ⟨h.1, Option.isSome_iff_exists.1 h.2⟩

/-- The answers of SLEEP_BODY's transactions. -/
def sleptAnswers (xh xm xc yh ym yc : Byte) : List Reply :=
  [.ok [xh], .ok [xm], .ok [xc], .ok [], .ok [yh], .ok [], .ok [ym], .ok [], .ok [yc], .ok []]
/-- The answers of WRITE_HUM and WRITE_MEAS_CONFIG. -/
def writtenAnswers (xh xm xc : Byte) : List Reply := [.ok [xh], .ok [], .ok [xm], .ok [], .ok [xc], .ok []]

theorem witness_GetModeReturnsSensorMode :
    happens [.rd .rdCtrlMeas [0xB6]] (scripted [.ok [0xB6]]) = true ∧
    happens [⟨.rdCtrlMeas, 0, .error⟩] (scripted [.error]) = true := by decide
theorem witness_GetSettingsReturnsDecoded :
    happens (settingsRead 0xFF 0xFF 0xFF) (scripted [.ok [0xFF], .ok [0xFF], .ok [0xFF]]) = true ∧
    happens [⟨.rdCtrlHum, 0, .error⟩] (scripted [.error]) = true ∧
    happens [.rd .rdCtrlHum [5], ⟨.rdCtrlMeas, 0, .error⟩] (scripted [.ok [5], .error]) = true ∧
    happens [.rd .rdCtrlHum [5], .rd .rdCtrlMeas [0], ⟨.rdConfig, 0, .error⟩] (scripted [.ok [5], .ok [0], .error]) = true := by
  decide
theorem witness_SleepRestoresSettings :
    happens (slept 0x07 0xFB 0xFC 0 0 0) (scripted (sleptAnswers 0x07 0xFB 0xFC 0 0 0)) = true := by decide
theorem witness_SetSettingsWritesRegisters :
    (decodeMode (modeBits 0xB4) = .sleep ∧
      happens (.rd .rdCtrlMeas [0xB4] :: settingsWritten ⟨7, 7, 7, 7, 7⟩ 5 0xB4 0xA3)
        (scripted (.ok [0xB4] :: writtenAnswers 5 0xB4 0xA3)) = true) ∧
    (decodeMode (modeBits 0xB6) ≠ .sleep ∧
      happens (.rd .rdCtrlMeas [0xB6] :: (slept 5 0xB6 0xA0 0 0 0 ++ settingsWritten ⟨0, 4, 2, 5, 1⟩ 5 0xB4 0xA0))
        (scripted (.ok [0xB6] :: (sleptAnswers 5 0xB6 0xA0 0 0 0 ++ writtenAnswers 5 0xB4 0xA0))) = true) := by decide
theorem witness_SetModeWritesModeBits :
    ([Mode.sleep, .forced, .normal].all fun m =>
      happens [.rd .rdCtrlMeas [0xB4], .rd .rdCtrlMeas [0xB4],
        .wr .wrCtrlMeas (rmwByte 0xB4 0x03 ((0 : BitVec 6) ++ encodeMode m))]
        (scripted [.ok [0xB4], .ok [0xB4], .ok []]) &&
      happens (.rd .rdCtrlMeas [0xB7] :: (slept 5 0xB7 0xA0 0 0 0 ++
        [.rd .rdCtrlMeas [0xB4], .wr .wrCtrlMeas (rmwByte 0xB4 0x03 ((0 : BitVec 6) ++ encodeMode m))]))
        (scripted (.ok [0xB7] :: (sleptAnswers 5 0xB7 0xA0 0 0 0 ++ [.ok [0xB4], .ok []])))) = true ∧
    decodeMode (modeBits 0xB4) = .sleep ∧ decodeMode (modeBits 0xB7) ≠ .sleep := by decide
theorem witness_SetModePropagatesBusErrors :
    happens [.rd .rdCtrlMeas [0xB4], ⟨.rdCtrlMeas, 0, .error⟩] (scripted [.ok [0xB4], .error]) = true ∧
    happens [.rd .rdCtrlMeas [0xB4], .rd .rdCtrlMeas [0xB4],
      ⟨.wrCtrlMeas, rmwByte 0xB4 0x03 ((0 : BitVec 6) ++ encodeMode .normal), .error⟩]
      (scripted [.ok [0xB4], .ok [0xB4], .error]) = true ∧
    happens (.rd .rdCtrlMeas [0xB7] :: (slept 5 0xB7 0xA0 0 0 0 ++ [⟨.rdCtrlMeas, 0, .error⟩]))
      (scripted (.ok [0xB7] :: (sleptAnswers 5 0xB7 0xA0 0 0 0 ++ [.error]))) = true ∧
    happens (.rd .rdCtrlMeas [0xB7] :: (slept 5 0xB7 0xA0 0 0 0 ++ [.rd .rdCtrlMeas [0xB4],
      ⟨.wrCtrlMeas, rmwByte 0xB4 0x03 ((0 : BitVec 6) ++ encodeMode .forced), .error⟩]))
      (scripted (.ok [0xB7] :: (sleptAnswers 5 0xB7 0xA0 0 0 0 ++ [.ok [0xB4], .error]))) = true := by decide

/-- The answers of INIT from the match on. -/
def identifiedAnswers : List Reply := [.ok [0x60], .ok [], .ok fixtureTp, .ok fixtureH]

theorem witness_InitLoadsCalibration :
    happens (polled [] ++ identified fixtureTp fixtureH) (scripted identifiedAnswers) = true ∧
    (∀ r ∈ [Reply.error, .ok [0x58], .error, .ok [0x00]], r ≠ .ok [0x60]) ∧
    happens (polled [.error, .ok [0x58], .error, .ok [0x00]] ++ identified fixtureTp fixtureH)
      (scripted ([.error, .ok [0x58], .error, .ok [0x00]] ++ identifiedAnswers)) = true := by decide
theorem witness_IdentityPollFails :
    (∀ r ∈ [Reply.error, .ok [0x58], .ok [0], .ok [0xFF], .ok [0x58]], r ≠ .ok [0x60]) ∧
    happens (polled [.error, .ok [0x58], .ok [0], .ok [0xFF], .ok [0x58]])
      (scripted [.error, .ok [0x58], .ok [0], .ok [0xFF], .ok [0x58]]) = true ∧
    happens (polled [.error, .ok [0x58], .ok [0], .ok [0xFF], .error])
      (scripted [.error, .ok [0x58], .ok [0], .ok [0xFF], .error]) = true := by decide

/-- The answers of FORCE_BODY. -/
def forcedAnswers (xh xm xc : Byte) : List Reply := [.ok [xh], .ok [xm], .ok [xc], .ok [], .ok []]

theorem witness_ForceMeasurementTriggers :
    happens (forced 0x07 0x54 0x10) (scriptedIn .forced (forcedAnswers 0x07 0x54 0x10)) = true ∧
    (scriptedIn .forced []).ctl.mode ≠ .normal := by decide
theorem witness_PreconditionErrors :
    (scriptedIn .normal []).ctl.seq = .idle ∧ (scriptedIn .normal []).ctl.mode = .normal ∧
    (scriptedIn .normal []).port.uop = none ∧ State.reset.ctl.seq = .idle ∧ State.reset.ctl.initialized = false ∧
    State.reset.port.uop = none := by decide
theorem witness_ReadReturnsMeasurement :
    ((scriptedIn .normal [.ok burst]).ctl.initialized = true ∧ (scriptedIn .normal [.ok burst]).ctl.mode ≠ .forced ∧
      (scriptedIn .normal [.ok burst]).ctl.calib = some fixture ∧
      happens [.rd .rdData burst] (scriptedIn .normal [.ok burst]) = true) ∧
    ((scriptedIn .forced []).ctl.mode = .forced ∧ (scriptedIn .forced []).ctl.calib = some fixture ∧
      happens (forced 0x07 0x54 0x10 ++ [.rd .rdData burst])
        (scriptedIn .forced (forcedAnswers 0x07 0x54 0x10 ++ [.ok burst])) = true) := by decide
/-- Coefficients with which all three stages overflow. -/
def overflowing : CalibrationData := { fixture with t1 := 0, t2 := 32767, t3 := 0 }

/-- The clauses about the compensation: no stage overflows; the temperature alone does, with both ends of its range; the
pressure alone (V-P-8); the humidity alone (V-H-9); those two together; all three, with the largest `t_fine` drawn. -/
theorem witness_ReadReturnsMeasurement_compensation :
    (compT 519888 fixture = some (2508, 128423) ∧ compP 415148 128423 fixture = some 10065328 ∧
      compH 30000 128423 fixture = some 56317) ∧
    (compT 1048575 { fixture with t1 := 0, t2 := 32767, t3 := 0 } = none ∧
      (compP 415148 128423 { fixture with t1 := 0, t2 := 32767, t3 := 0 }).isSome = true ∧
      (compH 30000 128423 { fixture with t1 := 0, t2 := 32767, t3 := 0 }).isSome = true ∧
      ((-4000 : Int) + 4000).toNat = 0 ∧ ((8500 : Int) + 4000).toNat = 12500) ∧
    (compP 1048575 128423 fixture = none ∧ compH 30000 128423 { fixture with h4 := 2048 } = none) ∧
    (compT 519888 { fixture with h4 := 2048 } = some (2508, 128423) ∧
      compP 1048575 128423 { fixture with h4 := 2048 } = none) ∧
    (compT 1048575 overflowing = none ∧ compP 1048575 2147483647 overflowing = none ∧
      compH 30000 2147483647 overflowing = none ∧ ((2147483647 : Int) + 2147483648).toNat = 4294967295) := by decide
theorem witness_ForcedControlByte :
    (scriptedIn .sleep []).ctl.mode ≠ .normal ∧
    happens (forced 0xFF 0xFF 0xFF) (scriptedIn .sleep (forcedAnswers 0xFF 0xFF 0xFF)) = true := by decide

theorem witness_EveryCommandEnds :
    Instr.port .setModeNormal = .command ∧ (ready .sleep 5 0xB4 0xA0 .idle).ctl.seq = .idle ∧
    (ready .sleep 5 0xB4 0xA0 .idle).Inv := ⟨rfl, rfl, witness_inv⟩
theorem witness_FirstFailureEndsCommand :
    Instr.port .getSettings = .command ∧ (scripted [.ok [5], .error]).ctl.seq = .idle ∧
    isNext (exec .getSettings (scripted [.ok [5], .error])) = true := by decide
theorem witness_OnlyTableWordsIssued :
    Instr.port .sleep = .command ∧ isNext (exec .sleep (scripted (sleptAnswers 5 0xB7 0xA0 0 0 0))) = true := by decide
theorem witness_OnlyInitWritesCalibration :
    Instr.read ≠ .init ∧ isNext (exec .read (scriptedIn .normal [.ok burst])) = true := by decide
theorem witness_InitOutcome :
    (scripted identifiedAnswers).ctl.seq = .idle ∧
    (seen (exec .init (scripted identifiedAnswers))).map Prod.fst = some (some ⟨.ok, .none, none⟩) ∧
    (seen (exec .init (scripted [.ok [0x60], .error]))).map Prod.fst =
      some (some ⟨.busError, .none, some 0x000001E0⟩) := by decide
theorem witness_ModeWriters :
    (scripted []).ctl.seq = .idle ∧
    ([Instr.init, .setSettings ⟨0, 0, 0, 0, 0⟩, .setModeSleep, .setModeForced, .setModeNormal, .sleep, .getMode].all fun i =>
      isNext (exec i (scripted [.error]))) = true := by decide
theorem witness_ReadOnlyRegistersNeverChange :
    (ready .sleep 5 0xB4 0xA0 .idle).world.sen.conforming = true ∧
    isNext (exec .wrReset (ready .sleep 5 0xB4 0xA0 .idle)) = true ∧ changeable 0xD0 = false ∧ changeable 0x88 = false ∧
    changeable 0xE7 = false ∧ changeable 0xF6 = false ∧ changeable 0xFF = false := by decide
theorem witness_MicroOperationFrame : Instr.port (.wait 0) = .microOp ∧ Instr.port .rdId = .microOp := by decide
theorem witness_ZeroPressureCoefficient :
    ({ fixture with p1 := 0 } : CalibrationData).p1 = 0 ∧ (-1000000 : Int) ≤ 1000000 ∧
    compP 0 (-1000000) { fixture with p1 := 0 } = some 3000000 ∧
    compP 1048575 1000000 { fixture with p1 := 0 } = some 3000000 := by decide
theorem witness_MeasurementInRange :
    (scriptedIn .sleep [.ok burst]).ctl.seq = .idle ∧
    (seen (exec .read (scriptedIn .sleep [.ok burst]))).map Prod.fst =
      some (some ⟨.ok, .measurement 2508 10065328 56317, none⟩) := by decide

/-- The tests' oracle does not fail. -/
theorem fine_okFor {n : Nat} (h : n ≤ 10) : fine.okFor n := by
  intro k hk
  have all : ∀ j, j < 10 → fine.okAt j = true := by decide
  exact all k (by omega)

theorem witness_SensorAnswersItsRegisters :
    ((sensor 0xFF 0xB4 0xA3 .idle).quiet = true ∧ fine.okFor 1) ∧
    ((sensor 5 0xB7 0xA0 (.normal true none)).settled = true ∧ (sensor 5 0xB7 0xA0 (.normal true none)).wild = false ∧
      (sensor 5 0xB7 0xA0 (.normal true none)).regs.wf = true) ∧
    ((sensor 5 0xB5 0xA0 (.forced 80 80)).settled = true ∧ (sensor 5 0xB5 0xA0 (.forced 80 80)).wild = false ∧
      (sensor 5 0xB5 0xA0 (.forced 80 80)).regs.wf = true ∧ (sensor 5 0xB5 0xA0 (.forced 80 80)).clock < 80 ∧
      (sensor 5 0xB4 0xA0 .idle).settled = true) := ⟨⟨by decide, fine_okFor (by decide)⟩, by decide, by decide⟩
/-- The second clause with a forced conversion and in Normal. -/
theorem witness_HumidityControlStored :
    ((sensor 5 0xB4 0xA0 .idle).quiet = true ∧ (sensor 5 0xB4 0xA0 .idle).regs.wf = true ∧ fine.okFor 1) ∧
    ([sensor 5 0xB5 0xA0 (.forced 80 80), sensor 5 0xB7 0xA0 (.normal true (some 80))].all fun sen =>
      sen.conforming && sen.settled && sen.regs.wf && !sen.wild) = true :=
  ⟨⟨by decide, by decide, fine_okFor (by decide)⟩, by decide⟩
theorem witness_ConfigStoredInSleep :
    ((sensor 5 0xB4 0xA0 .idle).quiet = true ∧ (sensor 5 0xB4 0xA0 .idle).regs.wf = true ∧
      modeBits (sensor 5 0xB4 0xA0 .idle).ctrlMeas = 0b00 ∧ fine.okFor 1) ∧
    ((sensor 5 0xB7 0xA0 (.normal false none)).conforming = true ∧
      (sensor 5 0xB7 0xA0 (.normal false none)).asleep = false ∧ (sensor 5 0xB4 0xA0 (.forced 1 1)).asleep = false ∧
      (sensor 5 0xB7 0xA0 (.normal false none)).regs.wf = true) ∧
    ((sensor 5 0xB5 0xA0 (.forced 80 80)).conforming = true ∧ (sensor 5 0xB5 0xA0 (.forced 80 80)).wild = false ∧
      (sensor 5 0xB5 0xA0 (.forced 80 80)).settled = true ∧ (sensor 5 0xB5 0xA0 (.forced 80 80)).asleep = false) :=
  ⟨⟨by decide, by decide, by decide, fine_okFor (by decide)⟩, by decide, by decide⟩
theorem witness_ModeWriteOnIdleSensor :
    (sensor 5 0xB4 0xA0 .idle).quiet = true ∧ (sensor 5 0xB4 0xA0 .idle).regs.wf = true ∧
    modeBits (sensor 5 0xB4 0xA0 .idle).ctrlMeas = 0b00 ∧ fine.okFor 1 ∧
    modeBits 0xFC = 0b00 ∧ modeBits 0xB5 = 0b01 ∧ modeBits 0x02 = 0b10 ∧ modeBits 0xFF = 0b11 :=
  ⟨by decide, by decide, by decide, fine_okFor (by decide), by decide⟩
theorem witness_ModeWriteDuringForcedConversion :
    (sensor 5 0xB5 0xA0 (.forced 4512 4512)).conforming = true ∧
    (sensor 5 0xB5 0xA0 (.forced 4512 4512)).regs.wf = true ∧
    (sensor 5 0xB5 0xA0 (.forced 4512 4512)).activity = .forced 4512 4512 ∧
    (sensor 5 0xB5 0xA0 (.forced 4512 4512)).wild = false ∧ (sensor 5 0xB5 0xA0 (.forced 4512 4512)).settled = true ∧
    fine.okFor 1 := ⟨by decide, by decide, by decide, by decide, by decide, fine_okFor (by decide)⟩
/-- The first clause in the middle of a conversion and after a mode write in Normal, the second with the byte beside 0xB6. -/
theorem witness_SoftResetOfSensor :
    ((sensor 5 0xB5 0xA0 (.forced 4512 4512)).conforming = true ∧ (sensor 5 0xB5 0xA0 (.forced 4512 4512)).settled = true ∧
      (sensor 5 0xB5 0xA0 (.forced 4512 4512)).regs.wf = true ∧ fine.okFor 1 ∧
      unsettledSensor.conforming = true ∧ unsettledSensor.regs.wf = true ∧ unsettledSensor.settled = false) ∧
    ((sensor 5 0xB5 0xA0 (.forced 80 80)).settled = true ∧ (sensor 5 0xB4 0xA0 .idle).quiet = true ∧ fine.okFor 1 ∧
      (0xB7 : Byte) ≠ 0xB6) :=
  ⟨⟨by decide, by decide, by decide, fine_okFor (by decide), by decide, by decide⟩, by decide, by decide,
    fine_okFor (by decide), by decide⟩
/-- A sensor at rest before a transaction that fails, with one draw coming. -/
def failing (d : Nat) (xh xm xc : Byte) : World := ⟨sensor xh xm xc .idle, { env [.error] with draws := [d] }⟩

/-- A failed write without effect and one with it, by a draw (R205). -/
theorem test_failed_write :
    ((failing 0 5 0xB4 0xA0).writeByte Config.regConfig (World.storeConfig 0x13)).1 = .error ∧
    ((failing 0 5 0xB4 0xA0).writeByte Config.regConfig (World.storeConfig 0x13)).2.sen.config = 0xA0 ∧
    ((failing 1 5 0xB4 0xA0).writeByte Config.regConfig (World.storeConfig 0x13)).1 = .error ∧
    ((failing 1 5 0xB4 0xA0).writeByte Config.regConfig (World.storeConfig 0x13)).2.sen.config = 0x13 := by decide

/-- A scripted failure, at rest and with a conversion running, with a draw of either outcome; a command that had only read, one that had written `config` alone; a draw of 0xFF. -/
theorem witness_FailedWriteMayHaveTakenEffect :
    ((sensor 5 0xB5 0xA0 (.forced 80 80)).conforming = true ∧ (sensor 5 0xB4 0xA0 .idle).quiet = true ∧
      (env [.error]).okAt 0 = false ∧ (failing 0 5 0xB4 0xA0).evolve.env.draws = 0 :: [] ∧
      (failing 1 5 0xB4 0xA0).evolve.env.draws = 1 :: []) ∧
    (Instr.port .setModeForced = .command ∧
      isNext (exec .setModeForced (scriptedIn .sleep [.ok [0xB4], .ok [0xB4], .error])) = true ∧
      isNext (exec .init (scripted [.ok [0x60], .error])) = true) ∧
    ((sensor 5 0xB4 0xA0 .idle).conforming = true ∧
      (∀ op ∈ [MicroOp.rdId, .rdConfig], op.data 0 = []) ∧
      (MicroOp.wrReset ∉ [MicroOp.rdConfig, .wrConfig] ∧ MicroOp.wrCtrlHum ∉ [MicroOp.rdConfig, .wrConfig] ∧
        MicroOp.wrCtrlMeas ∉ [MicroOp.rdConfig, .wrConfig] ∧ MicroOp.wrConfig ∉ [MicroOp.rdConfig]) ∧
      changeable 0xF6 = false ∧ changeable 0xFF = false) ∧
    ((sensor 5 0xB4 0xA0 .idle).conforming = true ∧ (sensor 5 0xB4 0xA0 .idle).regs.wf = true ∧
      { fine with draws := [255] }.draws = (0xFF : Byte).toNat :: []) := by
  decide
theorem witness_OracleAnswersAnything :
    (scripted [.ok [0x58]]).world.sen.conforming = false ∧ (scripted [.ok [0x58]]).world.env.replies = [.ok [0x58]] := by
  decide
theorem witness_WaitAdvancesTime : (sensor 5 0xB4 0xA0 .idle).quiet = true := by decide
theorem witness_ForcedConversionEndsInTime :
    (sensor 5 0xB5 0xA0 (.forced 80 80)).conforming = true ∧ (sensor 5 0xB5 0xA0 (.forced 80 80)).wild = false ∧
    (sensor 5 0xB5 0xA0 (.forced 80 80)).regs.wf = true ∧
    (sensor 5 0xB5 0xA0 (.forced 80 80)).activity = .forced 80 80 ∧
    80 ≤ (sensor 5 0xB5 0xA0 (.forced 80 80)).clock + 40 * 2 := by decide
/-- A sensor whose contents are open after a mode write in Normal. -/
def wildSensor : Sensor := { sensor 5 0xB7 0xA0 (.normal true none) with wild := true }

/-- The second clause with the bound met to the tick, and a sample scripted; the last with the ends of the ranges. -/
theorem witness_NormalModeOfSensor :
    ((sensor 5 0xB7 0xA0 (.normal true (some 80))).conforming = true ∧
      (sensor 5 0xB7 0xA0 (.normal true (some 80))).wild = false ∧
      (sensor 5 0xB7 0xA0 (.normal true (some 80))).regs.wf = true ∧ MicroOp.wrConfig ≠ .wrReset ∧
      MicroOp.wrConfig ≠ .wrCtrlMeas) ∧
    ((sensor 5 0xB7 0xA0 (.normal true (some 80))).activity = .normal true (some 80) ∧
      80 ≤ (sensor 5 0xB7 0xA0 (.normal true (some 80))).clock + 40 * 2 ∧ fine.samples = burst :: []) ∧
    ((sensor 5 0xB7 0xA0 (.normal true (some 80))).settled = true ∧
      modeBits (sensor 5 0xB7 0xA0 (.normal true (some 80))).ctrlMeas = 0b11 ∧ fine.okFor 1) ∧
    (wildSensor.conforming = true ∧ wildSensor.wild = true ∧ wildSensor.settled = true ∧ wildSensor.regs.wf = true ∧
      { fine with draws := [255] }.draws = (0xFF : Byte).toNat :: [] ∧
      { fine with draws := [0, 0, 0, 256 ^ 8 - 1] }.draws = 0 :: 0 :: 0 :: (256 ^ 8 - 1) :: [] ∧ 256 ^ 8 - 1 < 256 ^ 8) :=
  ⟨by decide, by decide, ⟨by decide, by decide, fine_okFor (by decide)⟩, by decide⟩
/-- A settled sensor in Normal; and one that is unsettled, on which INIT ends with OK. -/
theorem witness_InitRecoversAnySensor :
    (State.reset.ctl.seq = .idle ∧ (sensor 5 0xB7 0xA0 (.normal true none)).conforming = true ∧
      (sensor 5 0xB7 0xA0 (.normal true none)).settled = true ∧ fine.okFor 4) ∧
    (unsettledSensor.conforming = true ∧ unsettledSensor.settled = false ∧ unsettledSensor.regs.wf = true ∧
      identifying.replies = .ok [0x60] :: [.ok [], .ok fixtureTp, .ok fixtureH] ∧
      (∀ k, k < 4 → identifying.okAt k = true) ∧
      (seen (exec .init { State.reset with world := ⟨unsettledSensor, identifying⟩ })).map Prod.fst =
        some (some ⟨.ok, .none, none⟩)) := ⟨⟨rfl, by decide, by decide, fine_okFor (by decide)⟩, by decide⟩
theorem witness_SettingsRoundTrip :
    (ready .sleep 5 0xB4 0xA0 .idle).ctl.seq = .idle ∧ (sensor 5 0xB4 0xA0 .idle).quiet = true ∧
    (sensor 5 0xB4 0xA0 .idle).regs.wf = true ∧ modeBits (sensor 5 0xB4 0xA0 .idle).ctrlMeas = 0b00 ∧ fine.okFor 10 :=
  ⟨rfl, by decide, by decide, by decide, fine_okFor (by decide)⟩
/-- The second clause with a sensor that is unsettled and whose contents are open. -/
theorem witness_SleepReachesSleep :
    ((ready .forced 5 0xB5 0xA0 (.forced 4512 4512)).ctl.seq = .idle ∧
    (sensor 5 0xB5 0xA0 (.forced 4512 4512)).conforming = true ∧ (sensor 5 0xB5 0xA0 (.forced 4512 4512)).wild = false ∧
    (sensor 5 0xB5 0xA0 (.forced 4512 4512)).settled = true ∧ (sensor 5 0xB5 0xA0 (.forced 4512 4512)).regs.wf = true ∧
    fine.okFor 10) ∧
    ((seen (exec .sleep { State.reset with world := ⟨unsettledSensor, fine⟩ })).map Prod.fst =
      some (some ⟨.ok, .none, none⟩)) :=
  ⟨⟨rfl, by decide, by decide, by decide, by decide, fine_okFor (by decide)⟩, by decide⟩

end Sys2Proof.Tests
end

section
/-! PROOFS. The packed pair of the humidity block as signed numbers (`40_calibration.md` R104, R105). -/

namespace Sys2Proof.Machine

/-- A nibble under a 12-bit signed value: `(x * 16) | n` is the sum, for it neither overflows 16 bits nor overlaps. -/
theorem mul_sixteen_or_toInt {x n : BitVec 16} (hlo : -2048 ≤ x.toInt) (hhi : x.toInt < 2048) (hn : n.toNat < 16) :
    (x * 16 ||| n).toInt = x.toInt * 16 + n.toNat := by
  have hshift : x.toNat * 16 % 2 ^ 16 = 2 ^ 4 * (x.toNat % 4096) := by omega
  have hnat : (x * 16 ||| n).toNat = 16 * (x.toNat % 4096) + n.toNat := by
    rw [BitVec.toNat_or, BitVec.toNat_mul, show (16 : BitVec 16).toNat = 16 from rfl, hshift,
      ← Nat.two_pow_add_eq_or_of_lt hn]
  rw [BitVec.toInt_eq_toNat_cond] at hlo hhi ⊢
  rw [BitVec.toInt_eq_toNat_cond]
  omega

theorem zeroExtend_toInt (b : Byte) : (b.zeroExtend 16).toInt = b.toNat := by
  rw [BitVec.toInt_setWidth, Int.bmod_eq_of_le (by omega) (by omega)]

theorem lowNibble_toNat (b : Byte) : (b.zeroExtend 16 &&& 0x0F).toNat = b.toNat % 16 := by
  rw [BitVec.toNat_and, BitVec.toNat_setWidth_of_le (by decide)]
  exact Nat.and_two_pow_sub_one_eq_mod b.toNat 4

theorem highNibble_toNat (b : Byte) : (b.zeroExtend 16 >>> 4).toNat = b.toNat / 16 := by
  rw [BitVec.toNat_ushiftRight, BitVec.toNat_setWidth_of_le (by decide), Nat.shiftRight_eq_div_pow]

/-- H4 reads `h[3]` as unsigned (R104). -/
theorem h4Of_toInt (h : List Byte) : (h4Of h).toInt = (byteAt h 3).toNat * 16 + (byteAt h 4).toNat % 16 := by
  have hx := zeroExtend_toInt (byteAt h 3)
  have hn := lowNibble_toNat (byteAt h 4)
  refine (mul_sixteen_or_toInt (by omega) (by omega) (by omega)).trans ?_
  rw [hx, hn]
  rfl

/-- H5 reads `h[5]` as signed (R105). -/
theorem h5Of_toInt (h : List Byte) : (h5Of h).toInt = (byteAt h 5).toInt * 16 + (byteAt h 4).toNat / 16 := by
  have hx := BitVec.toInt_signExtend_of_le (x := byteAt h 5) (v := 16) (by decide)
  have hn := highNibble_toNat (byteAt h 4)
  have hlo := BitVec.le_toInt (byteAt h 5)
  have hhi := BitVec.toInt_lt (x := byteAt h 5)
  refine (mul_sixteen_or_toInt (by omega) (by omega) (by omega)).trans ?_
  rw [hx, hn]
  rfl

/-- Settles O45: the values are those of the packed words, and the ranges are those of the bytes they are made of. -/
theorem packedHumidityCoefficients : Obligations.PackedHumidityCoefficients := by
  intro tp h
  have h4 : (parseCalib tp h).h4.toInt = _ := h4Of_toInt h
  have h5 : (parseCalib tp h).h5.toInt = _ := h5Of_toInt h
  have hlo := BitVec.le_toInt (byteAt h 5)
  have hhi := BitVec.toInt_lt (x := byteAt h 5)
  exact ⟨h4, by omega, by omega, h5, by omega, by omega⟩

end Sys2Proof.Machine
end

section
/-! PROOFS. The settings codec: the register codes, the fields of the three register bytes, and the control byte that
triggers a forced measurement (`41_settings_codec.md` R110, R112, R118, R121). -/

namespace Sys2Proof.Machine

/-! ## The forced control byte -/

/-- The fields of the forced control byte: its mode bits are Forced's own, none is kept from elsewhere (R121). -/
theorem ctrlMeasForced_fields (st : Settings) : ctrlMeasForced st = st.osrsT ++ st.osrsP ++ (0b01 : BitVec 2) := by
  calc ctrlMeasForced st
    _ = (st.osrsT ++ st.osrsP ||| 0) ++ ((0 : BitVec 2) ||| encodeMode .forced) := BitVec.or_append
    _ = st.osrsT ++ st.osrsP ++ (0b01 : BitVec 2) := congrArg (· ++ (0b01 : BitVec 2)) BitVec.or_zero

theorem ctrlMeasForced_toNat (st : Settings) :
    (ctrlMeasForced st).toNat = st.osrsT.toNat * 32 + st.osrsP.toNat * 4 + 1 := by
  rw [ctrlMeasForced_fields, append_toNat, append_toNat, show (0b01 : BitVec 2).toNat = 1 from rfl]
  omega

/-- FORCE_MEASUREMENT on an idle block that is not in Normal: its exchanges are FORCE_BODY's, and its result is OK without
a payload (R151). -/
theorem exec_forceMeasurement {s : State} {xh xm xc : Byte} {w : World} (hi : s.ctl.seq = .idle)
    (hm : s.ctl.mode ≠ .normal) (h : follow (forced xh xm xc) s.world = some w) :
    exec .forceMeasurement s = .next ((s.observed (forced xh xm xc) w).finish ⟨.ok, .none, none⟩) := by
  have hrun : Steps .force forceProg s (forced xh xm xc) (.done (.ok .none)) (s.observed (forced xh xm xc) w) :=
    steps_forceBody h
  calc exec .forceMeasurement s
    _ = runCommand .force s := if_neg hm
    _ = .next (Prog.run .force forceProg [] s) := runCommand_idle hi
    _ = .next ((s.observed (forced xh xm xc) w).finish ⟨.ok, .none, none⟩) := congrArg _ hrun.run_done

/-- FORCE_BODY writes the forced control byte of the decoded settings to `ctrl_meas` (R151). -/
theorem wrCtrlMeas_mem_forced (xh xm xc : Byte) :
    Exchange.wr .wrCtrlMeas (ctrlMeasForced (decodeSettings xh xm xc)) ∈ forced xh xm xc :=
  List.mem_append_right _ (.tail _ (.head _))

/-- Settles O41: the byte is made of its fields, and its write is one of the exchanges FORCE_MEASUREMENT makes. -/
theorem forcedControlByte : Obligations.ForcedControlByte := by
  refine ⟨ctrlMeasForced_toNat, fun s xh xm xc w hi hm h => ⟨_, exec_forceMeasurement hi hm h, ?_⟩⟩
  rw [← ctrlMeasForced_toNat, BitVec.ofNat_toNat, BitVec.setWidth_eq, finish_trace, observed_trace]
  exact List.mem_append_right _ (List.mem_map_of_mem (wrCtrlMeas_mem_forced xh xm xc))

/-! ## Codes and fields -/

theorem decodeOsrs_toNat (c : Code) : (decodeOsrs c).toNat = min c.toNat 5 := by
  have hle : c ≤ 4 ↔ c.toNat ≤ 4 := BitVec.le_def
  unfold decodeOsrs
  split
  case isTrue h => have := hle.1 h; omega
  case isFalse h =>
    have := mt hle.2 h
    rw [show (5 : Code).toNat = 5 from rfl]
    omega

/-- Settles O37: the oversampling codes saturate at 5, and a standby code decodes to itself. -/
theorem oversamplingAndStandbyDecode : Obligations.OversamplingAndStandbyDecode :=
  fun c => ⟨decodeOsrs_toNat c, rfl⟩

theorem byteField_eq_ofNat (v : Byte) (lo len : Nat) :
    byteField v lo len = BitVec.ofNat len (v.toNat / 2 ^ lo % 2 ^ len) := by
  rw [← byteField_toNat, BitVec.ofNat_toNat, BitVec.setWidth_eq]

/-- The top three bits of a byte need no cut. -/
theorem byteField_top (v : Byte) : byteField v 5 3 = BitVec.ofNat 3 (v.toNat / 32) := by
  have hcut : v.toNat / 2 ^ 5 % 2 ^ 3 = v.toNat / 32 := by omega
  rw [byteField_eq_ofNat, hcut]

/-- Settles O39: each of the five decoded fields is a bit field of its byte, written as a number. -/
theorem settingsDecodeFields : Obligations.SettingsDecodeFields := by
  intro xh xm xc
  have hlow : byteField xh 0 3 = BitVec.ofNat 3 (xh.toNat % 8) := by
    rw [byteField_eq_ofNat, Nat.pow_zero, Nat.div_one, show 2 ^ 3 = 8 from rfl]
  have hmid (v : Byte) : byteField v 2 3 = BitVec.ofNat 3 (v.toNat / 4 % 8) := byteField_eq_ofNat v 2 3
  rw [decodeSettings, byteField_top, byteField_top, hmid, hmid, hlow]

end Sys2Proof.Machine
end

section
/-! PROOFS. The commands that only read: GET_MODE and GET_SETTINGS (`42_mode_controller.md` R137, R138). -/

namespace Sys2Proof.Machine

/-! ## How a command that reads ends -/

/-- A failed read of one byte ends the command (R226). -/
theorem steps_rd1_error {job : Job} {op : MicroOp} {k : Byte → Prog} {s : State} {w : World}
    (h : follow [⟨op, 0, .error⟩] s.world = some w) :
    Steps job (rd1 op k) s [⟨op, 0, .error⟩] (.done (.error .busError (some op.word)))
      (s.observed [⟨op, 0, .error⟩] w) := steps_rd_error h

/-- A command of an idle block whose exchanges come down to a `return`: OK with the payload. -/
theorem runCommand_returns {job : Job} {s s' : State} {l : List Exchange} {p : Payload} (hi : s.ctl.seq = .idle)
    (h : Steps job job.program s l (.done (.ok p)) s') : runCommand job s = .next (s'.finish ⟨.ok, p, none⟩) := by
  rw [runCommand_idle hi, h.run_done]
  rfl

/-- A command of an idle block whose exchanges come down to an error, when they are READs and waits only: they leave no
register of the sensor open (R226, R227). -/
theorem runCommand_fails_reading {job : Job} {s s' : State} {l : List Exchange} {e : Status} {f : Option Word}
    (hi : s.ctl.seq = .idle) (hl : ∀ op ∈ l.map Exchange.op, op.data 0 = [])
    (h : Steps job job.program s l (.done (.error e f)) s') : runCommand job s = .next (s'.finish ⟨e, .none, f⟩) := by
  rw [runCommand_idle hi, h.run_done, finishWith, unsettled_reads hl]
  rfl

/-! ## GET_MODE -/

/-- Settles O13: the one read either returns the decoded mode bits or ends the command. -/
theorem getModeReturnsSensorMode : Obligations.GetModeReturnsSensorMode := by
  refine ⟨by decide, by decide, by decide, fun s x w hi h => ?_, fun s w hi h => ?_⟩
  · have hrun : Steps .getMode getModeProg s _ _ _ := steps_rd1 h
    exact runCommand_returns hi hrun
  · have hrun : Steps .getMode getModeProg s _ _ _ := steps_rd1_error h
    exact runCommand_fails_reading hi (by simp [MicroOp.data]) hrun

/-! ## GET_SETTINGS -/

section
variable {job : Job} {k : Settings → Byte → Prog} {s : State} {w : World}

/-- READ_SETTINGS ended by its first read (R119, R226). -/
theorem steps_readSettings_error_hum (h : follow [⟨.rdCtrlHum, 0, .error⟩] s.world = some w) :
    Steps job (readSettings k) s [⟨.rdCtrlHum, 0, .error⟩] (.done (.error .busError (some 0x400001F2)))
      (s.observed [⟨.rdCtrlHum, 0, .error⟩] w) := steps_rd1_error h

/-- READ_SETTINGS ended by its second read. -/
theorem steps_readSettings_error_meas {xh : Byte}
    (h : follow [.rd .rdCtrlHum [xh], ⟨.rdCtrlMeas, 0, .error⟩] s.world = some w) :
    Steps job (readSettings k) s [.rd .rdCtrlHum [xh], ⟨.rdCtrlMeas, 0, .error⟩]
      (.done (.error .busError (some 0x400001F4)))
      (s.observed [.rd .rdCtrlHum [xh], ⟨.rdCtrlMeas, 0, .error⟩] w) :=
  steps_cons h (fun _ => steps_rd1) fun _ _ => steps_rd1_error

/-- READ_SETTINGS ended by its third read. -/
theorem steps_readSettings_error_config {xh xm : Byte}
    (h : follow [.rd .rdCtrlHum [xh], .rd .rdCtrlMeas [xm], ⟨.rdConfig, 0, .error⟩] s.world = some w) :
    Steps job (readSettings k) s [.rd .rdCtrlHum [xh], .rd .rdCtrlMeas [xm], ⟨.rdConfig, 0, .error⟩]
      (.done (.error .busError (some 0x400001F5)))
      (s.observed [.rd .rdCtrlHum [xh], .rd .rdCtrlMeas [xm], ⟨.rdConfig, 0, .error⟩] w) :=
  steps_cons h (fun _ => steps_rd1) fun _ _ h => steps_cons h (fun _ => steps_rd1) fun _ _ => steps_rd1_error

end

/-- Settles O14: READ_SETTINGS returns the decoded settings, or ends at the read that fails. -/
theorem getSettingsReturnsDecoded : Obligations.GetSettingsReturnsDecoded := by
  refine ⟨by decide, fun s xh xm xc w hi h => ?_, fun s w hi h => ?_, fun s xh w hi h => ?_,
    fun s xh xm w hi h => ?_⟩
  · have hrun : Steps .getSettings getSettingsProg s _ _ _ := steps_readSettings h
    exact runCommand_returns hi hrun
  · have hrun : Steps .getSettings getSettingsProg s _ _ _ := steps_readSettings_error_hum h
    exact runCommand_fails_reading hi (by simp [MicroOp.data]) hrun
  · have hrun : Steps .getSettings getSettingsProg s _ _ _ := steps_readSettings_error_meas h
    exact runCommand_fails_reading hi (by simp [Exchange.rd, MicroOp.data]) hrun
  · have hrun : Steps .getSettings getSettingsProg s _ _ _ := steps_readSettings_error_config h
    exact runCommand_fails_reading hi (by simp [Exchange.rd, MicroOp.data]) hrun

end Sys2Proof.Machine
end

section
/-! PROOFS. The measurement reader's timing: the coefficient of an oversampling code (`43_measurement_reader.md` R150). -/

namespace Sys2Proof.Machine

/-- From 8x on the coefficient is saturated: "any higher encoded value also maps to 16.0" (R150). -/
theorem coefT_of_four_le {c : Code} (h : 4 ≤ c.toNat) : coefT c = 16 := by
  unfold coefT
  split
  case h_5 => rfl
  all_goals omega

/-- Settles O42: the codes below 8x have their own rows, and the codes from 8x on share the saturated one. -/
theorem timingCoefficients : Obligations.TimingCoefficients :=
  ⟨rfl, rfl, rfl, rfl, coefT_of_four_le (by decide), coefT_of_four_le (by decide), coefT_of_four_le (by decide),
    coefT_of_four_le (by decide)⟩

end Sys2Proof.Machine
end

section
/-! PROOFS. The encoder and the decoder: each word of a port has one meaning, and each well-formed instruction one word
(`30_encoding.md` R70 to R79, R85). -/

namespace Sys2Proof

/-! ## The fields of a command word -/

theorem commandWord_op (op : BitVec 4) (x : BitVec 15) : bitField (commandWord op x) 28 4 = op := by
  apply BitVec.eq_of_toNat_eq
  rw [bitField_toNat, commandWord_toNat]
  omega

theorem commandWord_rsv (op : BitVec 4) (x : BitVec 15) : bitField (commandWord op x) 15 13 = 0 := by
  apply BitVec.eq_of_toNat_eq
  rw [bitField_toNat, commandWord_toNat, show (0 : BitVec 13).toNat = 0 from rfl]
  omega

/-- A word whose reserved bits are 0 is its opcode and its operand (R70). -/
theorem commandWord_of_rsv {w : Word} (h : bitField w 15 13 = 0) :
    commandWord (bitField w 28 4) (bitField w 0 15) = w := by
  have hrsv := congrArg BitVec.toNat h
  rw [bitField_toNat, show (0 : BitVec 13).toNat = 0 from rfl] at hrsv
  apply BitVec.eq_of_toNat_eq
  rw [commandWord_toNat, bitField_toNat, bitField_toNat]
  omega

/-- The operand of SET_SETTINGS, read back field by field (R72). -/
theorem settingsOfOperand_commandWord (op : BitVec 4) (st : Settings) :
    settingsOfOperand (commandWord op (operandOfSettings st)) = st := by
  obtain ⟨tSb, filter, osrsT, osrsP, osrsH⟩ := st
  simp only [settingsOfOperand, Settings.mk.injEq]
  refine ⟨?_, ?_, ?_, ?_, ?_⟩ <;>
    (apply BitVec.eq_of_toNat_eq; rw [bitField_toNat, commandWord_toNat, operand_toNat]; dsimp only; omega)

/-- The five fields of R72 make up the operand. -/
theorem operandOfSettings_of_operand (w : Word) : operandOfSettings (settingsOfOperand w) = bitField w 0 15 := by
  apply BitVec.eq_of_toNat_eq
  simp only [operand_toNat, settingsOfOperand, bitField_toNat]
  omega

/-- The operand of SET_MODE is its two parts of R73. -/
theorem operand_of_mode_parts {w : Word} (h : bitField w 2 13 = 0) :
    (bitField w 0 15).toNat = (bitField w 0 2).toNat := by
  have hhigh := congrArg BitVec.toNat h
  rw [bitField_toNat, show (0 : BitVec 13).toNat = 0 from rfl] at hhigh
  rw [bitField_toNat, bitField_toNat]
  omega

/-! ## What the parts of the command decoder accept -/

theorem noOperand_ok {w : Word} {i j : Instr} : noOperand w i = .ok j ↔ bitField w 0 15 = 0 ∧ i = j := by
  unfold noOperand
  split <;> simp_all

theorem noOperand_error {w : Word} {i : Instr} : (∃ e, noOperand w i = .error e) ↔ bitField w 0 15 ≠ 0 := by
  unfold noOperand
  split <;> simp_all

/-- SET_MODE's three legal operands (R73). -/
theorem decodeSetMode_ok {w : Word} {i : Instr} (h : decodeSetMode w = .ok i) :
    (i = .setModeSleep ∧ bitField w 0 15 = 0b00) ∨ (i = .setModeForced ∧ bitField w 0 15 = 0b01) ∨
      (i = .setModeNormal ∧ bitField w 0 15 = 0b11) := by
  unfold decodeSetMode at h
  split at h
  · simp at h
  next hz =>
    have hop := operand_of_mode_parts (not_not.1 hz)
    have hcode {c : BitVec 2} (hc : bitField w 0 2 = c) : bitField w 0 15 = c.zeroExtend 15 :=
      BitVec.eq_of_toNat_eq (by rw [hop, hc, BitVec.toNat_setWidth_of_le (by decide)])
    split at h
    next hc => exact .inl ⟨by simpa using h.symm, hcode hc⟩
    split at h
    next hc => exact .inr (.inl ⟨by simpa using h.symm, hcode hc⟩)
    split at h
    next hc => exact .inr (.inr ⟨by simpa using h.symm, hcode hc⟩)
    · simp at h

theorem decodeSetMode_error {w : Word} :
    (∃ e, decodeSetMode w = .error e) ↔ bitField w 2 13 ≠ 0 ∨ bitField w 0 2 = 0b10 := by
  have hcodes : ∀ c : BitVec 2, c = 0b10 ↔ c ≠ 0b00 ∧ c ≠ 0b01 ∧ c ≠ 0b11 := by decide
  unfold decodeSetMode
  rw [hcodes]
  split
  · simp_all
  split
  · simp_all
  split
  · simp_all
  split <;> simp_all

/-! ## Every word has one meaning on its port -/

theorem decodeCommand_rsv {w : Word} {i : Instr} (h : decodeCommand w = .ok i) : bitField w 15 13 = 0 := by
  by_contra hr
  rw [decodeCommand, if_pos hr] at h
  cases h

/-- A command word that decodes is the word of that instruction (R70 to R74). -/
theorem encode_of_decodeCommand {w : Word} {i : Instr} (h : decodeCommand w = .ok i) :
    i.port = .command ∧ i.wf = true ∧ encode i = w := by
  have hr := decodeCommand_rsv h
  have hw {op : BitVec 4} {x : BitVec 15} (hop : (bitField w 28 4).toNat = op.toNat) (hx : bitField w 0 15 = x) :
      commandWord op x = w := by
    rw [← BitVec.eq_of_toNat_eq hop, ← hx, commandWord_of_rsv hr]
  have hnone (op : BitVec 4) {j : Instr} (hop : (bitField w 28 4).toNat = op.toNat) (hj : noOperand w j = .ok i) :
      j = i ∧ commandWord op 0 = w := ⟨(noOperand_ok.1 hj).2, hw hop (noOperand_ok.1 hj).1⟩
  rw [decodeCommand, if_neg (not_not.2 hr)] at h
  split at h
  case h_1 hop => obtain ⟨rfl, e⟩ := hnone 1 hop h; exact ⟨rfl, rfl, e⟩
  case h_2 hop =>
    cases h
    exact ⟨rfl, rfl, hw hop (operandOfSettings_of_operand w).symm⟩
  case h_3 hop =>
    obtain ⟨rfl, hx⟩ | ⟨rfl, hx⟩ | ⟨rfl, hx⟩ := decodeSetMode_ok h
    · exact ⟨rfl, rfl, hw hop hx⟩
    · exact ⟨rfl, rfl, hw hop hx⟩
    · exact ⟨rfl, rfl, hw hop hx⟩
  case h_4 hop => obtain ⟨rfl, e⟩ := hnone 4 hop h; exact ⟨rfl, rfl, e⟩
  case h_5 hop => obtain ⟨rfl, e⟩ := hnone 5 hop h; exact ⟨rfl, rfl, e⟩
  case h_6 hop => obtain ⟨rfl, e⟩ := hnone 6 hop h; exact ⟨rfl, rfl, e⟩
  case h_7 hop => obtain ⟨rfl, e⟩ := hnone 7 hop h; exact ⟨rfl, rfl, e⟩
  case h_8 hop => obtain ⟨rfl, e⟩ := hnone 8 hop h; exact ⟨rfl, rfl, e⟩
  case h_9 => simp at h

/-- A micro-operation word whose reserved bits are 0 is its kind, length and address (R76). -/
theorem busWord_of_rsv {w : Word} (h : bitField w 16 14 = 0) :
    busWord (bitField w 30 2) (bitField w 8 8) (bitField w 0 8) = w := by
  have hrsv := congrArg BitVec.toNat h
  rw [bitField_toNat, show (0 : BitVec 14).toNat = 0 from rfl] at hrsv
  apply BitVec.eq_of_toNat_eq
  rw [busWord_toNat, bitField_toNat, bitField_toNat, bitField_toNat]
  omega

/-- The words of R77 that READ, by their lengths and addresses. -/
theorem decodeBusRead_ok {l a : BitVec 8} {i : Instr} (h : decodeBusRead l.toNat a.toNat = .ok i) :
    i.port = .microOp ∧ i.wf = true ∧ encode i = busWord 0b01 l a := by
  have hl {x y : BitVec 8} (hx : l.toNat = x.toNat) (hy : a.toNat = y.toNat) :
      busWord 0b01 x y = busWord 0b01 l a := by
    rw [BitVec.eq_of_toNat_eq hx, BitVec.eq_of_toNat_eq hy]
  unfold decodeBusRead at h
  split at h
  case h_1 h1 h2 => cases h; exact ⟨rfl, rfl, hl h1 h2⟩
  case h_2 h1 h2 => cases h; exact ⟨rfl, rfl, hl h1 h2⟩
  case h_3 h1 h2 => cases h; exact ⟨rfl, rfl, hl h1 h2⟩
  case h_4 h1 h2 => cases h; exact ⟨rfl, rfl, hl h1 h2⟩
  case h_5 h1 h2 => cases h; exact ⟨rfl, rfl, hl h1 h2⟩
  case h_6 h1 h2 => cases h; exact ⟨rfl, rfl, hl h1 h2⟩
  case h_7 h1 h2 => cases h; exact ⟨rfl, rfl, hl h1 h2⟩
  case h_8 => simp at h

/-- The words of R77 that WRITE, by their lengths and addresses. -/
theorem decodeBusWrite_ok {l a : BitVec 8} {i : Instr} (h : decodeBusWrite l.toNat a.toNat = .ok i) :
    i.port = .microOp ∧ i.wf = true ∧ encode i = busWord 0b00 l a := by
  have hl {x y : BitVec 8} (hx : l.toNat = x.toNat) (hy : a.toNat = y.toNat) :
      busWord 0b00 x y = busWord 0b00 l a := by
    rw [BitVec.eq_of_toNat_eq hx, BitVec.eq_of_toNat_eq hy]
  unfold decodeBusWrite at h
  split at h
  case h_1 h1 h2 => cases h; exact ⟨rfl, rfl, hl h1 h2⟩
  case h_2 h1 h2 => cases h; exact ⟨rfl, rfl, hl h1 h2⟩
  case h_3 h1 h2 => cases h; exact ⟨rfl, rfl, hl h1 h2⟩
  case h_4 h1 h2 => cases h; exact ⟨rfl, rfl, hl h1 h2⟩
  case h_5 => simp at h

/-- A micro-operation word that decodes is the word of that instruction (R76 to R79). -/
theorem encode_of_decodeMicroOp {w : Word} {i : Instr} (h : decodeMicroOp w = .ok i) :
    i.port = .microOp ∧ i.wf = true ∧ encode i = w := by
  by_cases hr : bitField w 16 14 = 0
  swap
  · rw [decodeMicroOp, if_pos hr] at h
    cases h
  have hbus {k : BitVec 2} (hk : (bitField w 30 2).toNat = k.toNat) : busWord k (bitField w 8 8) (bitField w 0 8) = w := by
    rw [← BitVec.eq_of_toNat_eq hk, busWord_of_rsv hr]
  rw [decodeMicroOp, if_neg (not_not.2 hr)] at h
  split at h
  case h_1 hk =>
    obtain ⟨hp, hwf, he⟩ := decodeBusWrite_ok h
    exact ⟨hp, hwf, he.trans (hbus hk)⟩
  case h_2 hk =>
    obtain ⟨hp, hwf, he⟩ := decodeBusRead_ok h
    exact ⟨hp, hwf, he.trans (hbus hk)⟩
  case h_3 hk =>
    cases h
    have hms := (bitField w 0 16).isLt
    refine ⟨rfl, decide_eq_true hms, BitVec.eq_of_toNat_eq ?_⟩
    have hrsv := congrArg BitVec.toNat hr
    rw [bitField_toNat, show (0 : BitVec 14).toNat = 0 from rfl] at hrsv
    rw [bitField_toNat] at hk
    rw [waitWord_toNat _ hms, bitField_toNat]
    omega
  case h_4 => simp at h

/-- Settles O3: on each port the word is put together again from the fields its decoder has tested. -/
theorem encodeOfDecode : Obligations.EncodeOfDecode := by
  intro p w i h
  cases p with
  | command => exact encode_of_decodeCommand h
  | microOp => exact encode_of_decodeMicroOp h

/-- Settles O2: a command word is read back field by field, and a micro-operation's word is one the block issues. -/
theorem decodeOfEncode : Obligations.DecodeOfEncode := by
  intro i hwf
  cases hp : i.port with
  | microOp =>
    obtain ⟨op, rfl⟩ := Machine.exists_microOp hp
    exact Machine.decode_microOp_word op hwf
  | command =>
    cases i
    case setSettings st =>
      show decodeCommand (commandWord 2 (operandOfSettings st)) = _
      rw [decodeCommand, commandWord_rsv, commandWord_op, settingsOfOperand_commandWord]
      rfl
    case init | setModeSleep | setModeForced | setModeNormal | sleep | getMode | getSettings | forceMeasurement | read =>
      decide
    all_goals simp [Instr.port] at hp

/-! ## The reserved command words -/

/-- What the opcodes' own parts of the decoder reject, the reserved bits being 0 (R74). -/
theorem decodeCommand_error {w : Word} (hr : bitField w 15 13 = 0) :
    (∃ e, decodeCommand w = .error e) ↔
      ((bitField w 28 4).toNat = 0 ∨ 9 ≤ (bitField w 28 4).toNat) ∨
      ((bitField w 28 4).toNat ≠ 2 ∧ (bitField w 28 4).toNat ≠ 3 ∧ bitField w 0 15 ≠ 0) ∨
      ((bitField w 28 4).toNat = 3 ∧ (bitField w 2 13 ≠ 0 ∨ bitField w 0 2 = 0b10)) := by
  rw [decodeCommand, if_neg (not_not.2 hr)]
  split
  case h_2 h => simp [h]
  case h_3 h => simpa [h] using decodeSetMode_error
  case h_9 =>
    simp only [imp_false] at *
    exact ⟨fun _ => .inl (by omega), fun _ => ⟨_, rfl⟩⟩
  all_goals
    rename_i h
    simpa [h] using noOperand_error

/-- Settles O4: the reserved bits are tested first, then each opcode's part of the decoder has its say (R74). -/
theorem reservedCommandWords : Obligations.ReservedCommandWords := by
  intro w
  have hop (op : BitVec 4) : bitField w 28 4 = op ↔ (bitField w 28 4).toNat = op.toNat := BitVec.toNat_inj.symm
  have hne (op : BitVec 4) : bitField w 28 4 ≠ op ↔ (bitField w 28 4).toNat ≠ op.toNat := (hop op).not
  by_cases hr : bitField w 15 13 = 0
  · refine (decodeCommand_error hr).trans ?_
    rw [hop 0, hop 3, hne 2, hne 3]
    exact ⟨.imp_right .inr, .imp_right (Or.resolve_left · (not_not.2 hr))⟩
  · exact ⟨fun _ => .inr (.inl hr), fun _ => ⟨_, if_pos hr⟩⟩

end Sys2Proof
end

section
/-! PROOFS. One step of the machine: which word it takes, the invariant it keeps, and a command taken micro-operation by
micro-operation (`20_memory.md` R61, `10_state.md` R24, R27, `60_exceptions.md` R225, `70_reset_and_hazards.md` R250). -/

namespace Sys2Proof.Machine

/-! ## Which word a step takes -/

section
variable {s : State} {w : Word}

/-- A word on the command port comes first. -/
theorem step_command (h : s.host.cmd = some w) : step s = stepCommand w { s with host := { s.host with cmd := none } } := by
  simp [step, fetch, h]

/-- Then the micro-operation on the bus port. -/
theorem step_microOp (hc : s.host.cmd = none) (h : s.port.uop = some w) : step s = stepMicroOp w s := by
  simp [step, fetch, hc, h]

/-- An idle block takes the host's next word. -/
theorem step_queue {ws : List Word} (hc : s.host.cmd = none) (hu : s.port.uop = none) (hi : s.ctl.seq = .idle)
    (h : s.host.queue = w :: ws) : step s = stepCommand w { s with host := { s.host with queue := ws } } := by
  simp [step, fetch, hc, hu, hi, h]

/-- With no word anywhere an idle block waits (R250). -/
theorem step_waits (hc : s.host.cmd = none) (hu : s.port.uop = none) (hi : s.ctl.seq = .idle) (h : s.host.queue = []) :
    step s = .next s := by
  simp [step, fetch, hc, hu, hi, h]

theorem stepCommand_ok {i : Instr} (h : decode .command w = .ok i) : stepCommand w s = exec i s := by
  simp [stepCommand, h]

theorem stepCommand_reserved {e : Reject} (h : decode .command w = .error e) : stepCommand w s = .next s.refuse := by
  simp [stepCommand, h]

theorem stepMicroOp_ok {i : Instr} {t : State} (h : decode .microOp w = .ok i) (ht : exec i s = .next t) :
    stepMicroOp w s = resume t := by
  simp [stepMicroOp, h, ht]

/-- Any word presented to a busy block is refused (R225). -/
theorem stepCommand_busy (hb : s.ctl.seq ≠ .idle) : stepCommand w s = .next s.refuse := by
  cases h : decode .command w with
  | error e => exact stepCommand_reserved h
  | ok i => rw [stepCommand_ok h, busy_refuses (encode_of_decodeCommand h).1 hb]

end

/-- Settles O5: the four cases of the fetch, in their order. -/
theorem stepRunsDecodedInstruction : Obligations.StepRunsDecodedInstruction := by
  refine ⟨fun s w i hc hd => ?_, fun s t w i hc hu hd ht => ?_, fun s w ws i hc hu hi hq hd => ?_, fun s => step_waits⟩
  · rw [step_command hc, stepCommand_ok hd]
  · rw [step_microOp hc hu, stepMicroOp_ok hd ht]
  · rw [step_queue hc hu hi hq, stepCommand_ok hd]

/-- Settles O6: the two places a command word is taken from both come to the one refusal. -/
theorem portRefusesReservedOrBusy : Obligations.PortRefusesReservedOrBusy := by
  refine ⟨fun s w hc h => ?_, fun s w ws hc hu hi hq ⟨e, he⟩ => ?_, fun i s hp hb => busy_refuses hp hb⟩
  · rw [step_command hc]
    rcases h with ⟨e, he⟩ | hb
    · exact stepCommand_reserved he
    · exact stepCommand_busy hb
  · rw [step_queue hc hu hi hq]
    exact stepCommand_reserved he

/-! ## Pseudocode that sets `initialized` only with coefficients held (R24) -/

theorem Prog.All.imp {pw pw' : CtlWrite → Prop} {pu pu' : MicroOp → Byte → Prop} {pe pe' : Ending → Prop}
    (hw : ∀ c, pw c → pw' c) (hu : ∀ op v, pu op v → pu' op v) (he : ∀ e, pe e → pe' e) {p : Prog}
    (h : p.All pw pu pe) : p.All pw' pu' pe' := by
  induction p with
  | done e => exact he e h
  | write c next ih => exact ⟨hw c h.1, ih h.2⟩
  | uop op v k ih => exact ⟨hu op v h.1, fun r => ih r (h.2 r)⟩

theorem calibrated_of_modes {pu : MicroOp → Byte → Prop} {pe : Ending → Prop} {p : Prog} {b : Bool}
    (h : p.All (fun c => ∃ m, c = .mode m) pu pe) : p.Calibrated b := by
  induction p with
  | done e => trivial
  | write c next ih =>
    obtain ⟨⟨m, rfl⟩, hn⟩ := h
    exact ih hn
  | uop op v k ih => exact fun r => ih r (h.2 r)

theorem calibrated_rd {op : MicroOp} {k : List Byte → Prog} {b : Bool} (h : ∀ x, (k x).Calibrated b) :
    (rd op k).Calibrated b := by
  intro r
  cases r with
  | ok x => exact h x
  | error => trivial

theorem calibrated_wr {op : MicroOp} {v : Byte} {k : Prog} {b : Bool} (h : k.Calibrated b) :
    (wr op v k).Calibrated b := by
  intro r
  cases r with
  | ok x => exact h
  | error => trivial

theorem calibrated_poll {n : Nat} {k : Prog} {b : Bool} (h : k.Calibrated b) : (pollId n k).Calibrated b := by
  induction n with
  | zero => trivial
  | succ n ih =>
    intro r
    dsimp only
    split
    · exact h
    split
    · cases r <;> trivial
    · exact ih

/-- INIT writes the coefficients before `initialized` (R131). -/
theorem initProg_calibrated (b : Bool) : initProg.Calibrated b :=
  ⟨(nomatch ·), calibrated_poll (calibrated_wr fun _ => calibrated_rd fun _ => calibrated_rd fun _ _ =>
    ⟨fun _ => rfl, trivial⟩)⟩

theorem job_calibrated (j : Job) (b : Bool) : j.program.Calibrated b := by
  by_cases hj : j = .init
  · subst hj
    exact initProg_calibrated b
  · exact calibrated_of_modes ((job_issues j).imp (fun _ hc => hc.resolve_left hj) (fun _ _ h => h) fun _ h => h)

/-! ## The invariant -/

/-- The invariant without the sequencer's part. -/
structure State.Sound (s : State) : Prop where
  calibrated : s.ctl.initialized = true → s.ctl.calib.isSome = true
  regs       : s.world.sen.regs.wf = true

theorem State.Inv.sound {s : State} (h : s.Inv) : s.Sound := ⟨h.calibrated, h.regs⟩

theorem State.Sound.inv {s : State} (h : s.Sound) (hi : s.ctl.seq = .idle) : s.Inv :=
  ⟨h.calibrated, by simp only [State.SeqOk, hi], h.regs⟩

theorem perform_sound {op : MicroOp} {s : State} (h : s.Sound) : (perform op s).Sound :=
  ⟨h.calibrated, (transact_keeps op s.port.wdata s.world).wf h.regs⟩

theorem finishWith_inv {ops : List MicroOp} {e : Ending} {s : State} (h : s.Sound) : (finishWith ops e s).Inv := by
  obtain ⟨hctl, -, -, -, -, -, hw⟩ := finishWith_frame ops e s
  refine State.Sound.inv ⟨?_, hw.wf h.regs⟩ (by rw [hctl])
  rw [hctl]
  exact h.calibrated

/-- A write that keeps R24, and what is known of the coefficients after it. -/
theorem writeCtl_sound {c : CtlWrite} {next : Prog} {s : State} (h : s.Sound)
    (hc : Prog.Calibrated s.ctl.calib.isSome (.write c next)) :
    (s.writeCtl c).Sound ∧ next.Calibrated (s.writeCtl c).ctl.calib.isSome := by
  cases c with
  | initialized b => exact ⟨⟨hc.1, h.regs⟩, hc.2⟩
  | mode m => exact ⟨⟨h.calibrated, h.regs⟩, hc⟩
  | calib c => exact ⟨⟨fun _ => rfl, h.regs⟩, hc⟩

theorem run_inv {job : Job} {p : Prog} {rs : List Reply} {s : State} (h : s.Sound)
    (hc : p.Calibrated s.ctl.calib.isSome) : (Prog.run job p rs s).Inv := by
  induction p generalizing rs s with
  | done e => exact finishWith_inv h
  | write c next ih =>
    obtain ⟨h', hc'⟩ := writeCtl_sound h hc
    exact ih h' hc'
  | uop op v k ih => exact ih _ (perform_sound ⟨h.calibrated, h.regs⟩) (hc _)

/-- What is left of a job, brought to its next micro-operation or its end. -/
theorem enter_inv {job : Job} {p : Prog} {rs : List Reply} {s : State} (h : s.Sound)
    (hc : p.Calibrated s.ctl.calib.isSome) (hp : job.program.after rs = p.after []) : (Prog.enter job p rs s).Inv := by
  induction p generalizing s with
  | done e => exact finishWith_inv h
  | write c next ih =>
    obtain ⟨h', hc'⟩ := writeCtl_sound h hc
    exact ih h' hc' hp
  | uop op v k ih => exact ⟨h.calibrated, ⟨op, v, k, hp, rfl, hc⟩, h.regs⟩

/-- The host's port is no part of the invariant. -/
theorem State.Inv.of_host {s : State} (h : s.Inv) (host : HostPort) : State.Inv { s with host := host } :=
  ⟨h.calibrated, h.seq, h.regs⟩

theorem refuse_inv {s : State} (h : s.Inv) : s.refuse.Inv := h.of_host _

theorem raise_inv {s : State} {e : Status} {f : Option Word} (h : s.Inv) : (s.raise e f).Inv :=
  State.Sound.inv ⟨h.calibrated, h.regs⟩ rfl

theorem exec_command_inv {i : Instr} {s t : State} (hp : i.port = .command) (h : s.Inv) (he : exec i s = .next t) :
    t.Inv := by
  obtain ⟨-, rfl⟩ | ⟨-, ⟨e, rfl, -⟩ | ⟨j, rfl, -⟩⟩ := exec_command_cases hp he
  · exact refuse_inv h
  · exact raise_inv h
  · exact run_inv h.sound (job_calibrated j _)

theorem stepCommand_inv {w : Word} {s t : State} (h : s.Inv) (he : stepCommand w s = .next t) : t.Inv := by
  cases hd : decode .command w with
  | ok i =>
    rw [stepCommand_ok hd] at he
    exact exec_command_inv (encode_of_decodeCommand hd).1 h he
  | error e =>
    rw [stepCommand_reserved hd] at he
    cases he
    exact refuse_inv h

/-- A micro-operation word on the port of a state of the invariant: the sequencer takes its answer and goes on, and only
its own command's micro-operations are there while it is busy. -/
theorem resume_perform {s : State} (h : s.Inv) (op : MicroOp) : ∃ t, resume (perform op s) = .next t ∧ t.Inv := by
  have hseq := h.seq
  unfold State.SeqOk at hseq
  simp only [resume, perform_ctl]
  split
  case h_1 hi => exact ⟨_, rfl, (perform_sound h.sound).inv hi⟩
  case h_2 job rs hb =>
    rw [hb] at hseq
    obtain ⟨op', v, k, hp, -, hc⟩ := hseq
    rw [hp]
    exact ⟨_, rfl, enter_inv (perform_sound h.sound) (hc _) (after_snoc hp _)⟩

/-- A micro-operation word either is reserved or runs to a state of the invariant. -/
theorem stepMicroOp_inv {w : Word} {s : State} (h : s.Inv) :
    stepMicroOp w s = .refused (.reservedMicroOp w) ∨ ∃ t, stepMicroOp w s = .next t ∧ t.Inv := by
  cases hd : decode .microOp w with
  | error e => exact .inl (by simp [stepMicroOp, hd])
  | ok i =>
    obtain ⟨op, rfl⟩ := exists_microOp (encode_of_decodeMicroOp hd).1
    rw [stepMicroOp_ok hd (exec_microOp op s)]
    exact .inr (resume_perform h op)

/-- What a step from a state of the invariant does: it takes a command word, it takes a micro-operation, or it waits. -/
theorem step_cases {s : State} (h : s.Inv) :
    (∃ w host, step s = stepCommand w { s with host := host }) ∨ (∃ w, step s = stepMicroOp w s) ∨
      step s = .next s := by
  cases hc : s.host.cmd with
  | some w => exact .inl ⟨w, _, step_command hc⟩
  | none =>
    cases hu : s.port.uop with
    | some w => exact .inr (.inl ⟨w, step_microOp hc hu⟩)
    | none =>
      cases hi : s.ctl.seq with
      | busy job rs =>
        have hseq := h.seq
        simp [State.SeqOk, hi, hu] at hseq
      | idle =>
        cases hq : s.host.queue with
        | nil => exact .inr (.inr (step_waits hc hu hi hq))
        | cons w ws => exact .inl ⟨w, _, step_queue hc hu hi hq⟩

/-- Settles O10: by the three things a step can do; the strengthened claim is that what is left of a running command
respects R24 (`Prog.Calibrated`), which every part of a pseudocode keeps. -/
theorem stepKeepsInvariant : Obligations.StepKeepsInvariant := by
  intro s t h hs
  rcases step_cases h with ⟨w, host, e⟩ | ⟨w, e⟩ | e <;> rw [e] at hs
  · exact stepCommand_inv (h.of_host host) hs
  · rcases stepMicroOp_inv (w := w) h with e' | ⟨t', e', ht⟩ <;> rw [e'] at hs <;> cases hs
    exact ht
  · cases hs
    exact h

/-- READ alone could fault, and only where R24 is broken. -/
theorem exec_next {s : State} (h : s.ctl.initialized = true → s.ctl.calib.isSome = true) (i : Instr) :
    ∃ t, exec i s = .next t := by
  have hrun (j : Job) : ∃ t, runCommand j s = .next t := by unfold runCommand; split <;> exact ⟨_, rfl⟩
  have hrej (e : Status) : ∃ t, rejectCommand e s = .next t := by unfold rejectCommand; split <;> exact ⟨_, rfl⟩
  cases hp : i.port with
  | microOp =>
    obtain ⟨op, rfl⟩ := exists_microOp hp
    exact ⟨_, exec_microOp op s⟩
  | command =>
    cases i
    case read =>
      simp only [exec, execRead]
      split
      case isTrue hi =>
        obtain ⟨c, hc⟩ := Option.isSome_iff_exists.1 (h hi)
        rw [hc]
        exact hrun _
      case isFalse => exact hrej _
    case forceMeasurement =>
      simp only [exec, execForceMeasurement]
      split
      · exact hrej _
      · exact hrun _
    case init | setSettings | setModeSleep | setModeForced | setModeNormal | sleep | getMode | getSettings => exact hrun _
    all_goals simp [Instr.port] at hp

/-- Settles O11: the two faults are in the cases that the invariant rules out. -/
theorem noStepFaults : Obligations.NoStepFaults := by
  intro s f h hs
  rcases step_cases h with ⟨w, host, e⟩ | ⟨w, e⟩ | e <;> rw [e] at hs
  · cases hd : decode .command w with
    | ok i =>
      obtain ⟨t, ht⟩ := exec_next (s := { s with host := host }) h.calibrated i
      rw [stepCommand_ok hd, ht] at hs
      cases hs
    | error e => rw [stepCommand_reserved hd] at hs; cases hs
  · rcases stepMicroOp_inv (w := w) h with e' | ⟨t', e', -⟩ <;> rw [e'] at hs <;> cases hs
  · cases hs

/-- Settles O9: both states are idle. -/
theorem resetMeetsInvariant : Obligations.ResetMeetsInvariant :=
  ⟨State.Sound.inv ⟨(nomatch ·), rfl⟩ rfl, fun _ hw => State.Sound.inv ⟨(nomatch ·), hw⟩ rfl⟩

/-- Settles O8: the record is the reset record, and an idle block without a word waits. -/
theorem resetState : Obligations.ResetState :=
  ⟨rfl, step_waits rfl rfl rfl rfl, fun s => ⟨blockReset_ctl s, blockReset_world s, blockReset_trace s, rfl⟩,
    fun _ hc hq => step_waits hc rfl rfl hq⟩

/-! ## A command, micro-operation by micro-operation -/

/-- The step after a command has put its next micro-operation on the port (R27, R61). -/
theorem step_issue {job : Job} {rs : List Reply} {op : MicroOp} {v : Byte} {k : Reply → Prog} {s : State}
    (hc : s.host.cmd = none) (hwf : op.instr.wf = true) (hp : job.program.after rs = .uop op v k) :
    step (s.issue job rs op.word v) =
      .next (Prog.enter job (k (perform op (s.issue job rs op.word v)).lastReply)
        (rs ++ [(perform op (s.issue job rs op.word v)).lastReply]) (perform op (s.issue job rs op.word v))) := by
  rw [step_microOp (s := s.issue job rs op.word v) hc rfl, stepMicroOp_ok (decode_microOp_word op hwf) (exec_microOp op _)]
  simp only [resume, perform_ctl, issue_seq, hp]

/-- The durations a command issues fit their field (R78). -/
theorem issued_wf {op : MicroOp} {v : Byte} (h : Issued op v) : op.instr.wf = true := by
  cases op
  case wait ms =>
    have := (h.2 ms rfl).2
    exact decide_eq_true (by omega)
  all_goals rfl

/-- Stepping through what is left of a job comes to the state that running it comes to. -/
theorem drive_enter {pw : CtlWrite → Prop} {job : Job} {p : Prog} {n : Nat} {rs : List Reply} {s : State}
    (hd : p.Depth n) (ha : p.Issues pw) (hc : s.host.cmd = none) (hp : job.program.after rs = p.after []) :
    ∃ m, m ≤ n ∧ drive m (Prog.enter job p rs s) = .next (Prog.run job p rs s) := by
  induction p generalizing n rs s with
  | done e => exact ⟨0, Nat.zero_le n, rfl⟩
  | write c next ih => exact ih (by cases n <;> exact hd) ha.2 (by simpa using hc) hp
  | uop op v k ih =>
    cases n with
    | zero => exact hd.elim
    | succ n =>
      obtain ⟨m, hm, e⟩ := ih _ (n := n) (rs := rs ++ [(perform op (s.issue job rs op.word v)).lastReply])
        (s := perform op (s.issue job rs op.word v)) (hd _) (ha.2 _) hc (after_snoc hp _)
      refine ⟨m + 1, Nat.succ_le_succ hm, ?_⟩
      simp only [Prog.enter, drive, step_issue hc (issued_wf ha.1) hp]
      exact e

/-- Settles O12: by induction over the job's pseudocode, one step for each of its micro-operations. -/
theorem commandIsItsMicroOperations : Obligations.CommandIsItsMicroOperations := by
  intro job s hi hc
  rw [runCommand_idle hi]
  have hp : job.program.after [] = job.program.after [] := rfl
  exact drive_enter (job_depth job) (job_issues job) hc hp

/-! ## The ends of commands and of micro-operations -/

/-- Settles O24: by the ways a command instruction can go, and the frame of a run. -/
theorem everyCommandEnds : Obligations.EveryCommandEnds := by
  intro i s hp hi h
  obtain ⟨t, he⟩ := exec_next h.calibrated i
  refine ⟨t, he, ?_⟩
  obtain ⟨hb, -⟩ | ⟨-, ⟨e, rfl, -⟩ | ⟨j, rfl, -⟩⟩ := exec_command_cases hp he
  · exact absurd hi hb
  · exact ⟨rfl, rfl, rfl, rfl, rfl, [], (List.append_nil _).symm, Nat.zero_le 18⟩
  · exact run_frame (job_depth j) [] s

/-- Settles O22: an idle block with an empty bus port has nothing that the end of a command would change but the result. -/
theorem preconditionErrors : Obligations.PreconditionErrors := by
  have hraise {s : State} {e : Status} (hi : s.ctl.seq = .idle) (hu : s.port.uop = none) :
      s.raise e none = { s with host := { s.host with result := some ⟨e, .none, none⟩ } } := by
    obtain ⟨⟨i, m, c, q⟩, host, ⟨u, d, r⟩, trace, world⟩ := s
    cases hi
    cases hu
    rfl
  refine ⟨fun s hi hm hu => ?_, fun s hi h0 hu => ?_⟩
  · rw [exec, execForceMeasurement, if_pos hm, rejectCommand_idle hi, hraise hi hu]
  · rw [exec, execRead, if_neg (by simp [h0]), rejectCommand_idle hi, hraise hi hu]

/-- Settles O31: every micro-operation is performed, and `perform` writes the port, the trace and the world only. -/
theorem microOperationFrame : Obligations.MicroOperationFrame := by
  intro i s hp
  obtain ⟨op, rfl⟩ := exists_microOp hp
  exact ⟨_, _, exec_microOp op s, rfl, rfl, rfl, _, rfl, rfl, rfl⟩

end Sys2Proof.Machine
end

section
/-! PROOFS. The pure functions: table words and result words, the codec's round trip, the forced wait, the calibration words
and the data burst (`30_encoding.md` R70 to R84, `41_settings_codec.md`, `43_measurement_reader.md`, `40_calibration.md`). -/

namespace Sys2Proof.Machine

/-- Settles O1: each word is evaluated. -/
theorem tableWordsDecode : Obligations.TableWordsDecode := by
  unfold Obligations.TableWordsDecode
  decide

/-- Settles O7: the Settings word is the operand of R72 with zeros above it. -/
theorem resultEncoding : Obligations.ResultEncoding := by
  refine ⟨⟨rfl, rfl, rfl, rfl, rfl, rfl⟩, rfl, rfl, rfl, fun st => ⟨_, rfl, ?_⟩, fun _ _ _ => rfl, rfl⟩
  exact (BitVec.toNat_setWidth_of_le (by decide)).trans (operand_toNat st)

theorem decodeFilter_toNat (c : Code) : (decodeFilter c).toNat = min c.toNat 4 := by
  have hle : c ≤ 4 ↔ c.toNat ≤ 4 := BitVec.le_def
  unfold decodeFilter
  split
  case isTrue h => have := hle.1 h; omega
  case isFalse h =>
    have := mt hle.2 h
    rw [show (4 : Code).toNat = 4 from rfl]
    omega

/-- Settles O38: the filter codes saturate at 4, and the modes have their own codes. -/
theorem filterAndModeDecode : Obligations.FilterAndModeDecode := by
  refine ⟨decodeFilter_toNat, rfl, rfl, rfl, rfl, fun m => ?_⟩
  cases m <;> decide

/-! ## The codec's round trip -/

/-- The read-modify-write bit by bit (R115). -/
theorem rmwByte_getLsbD (x mask v : Byte) {i : Nat} (hi : i < 8) :
    (rmwByte x mask v).getLsbD i = if mask.getLsbD i then v.getLsbD i else x.getLsbD i := by
  rw [rmwByte, BitVec.getLsbD_or, BitVec.getLsbD_and, BitVec.getLsbD_and, BitVec.getLsbD_not]
  cases mask.getLsbD i <;> simp [hi]

theorem decodeSettings_rmw (st : Settings) (xh xm xc : Byte) :
    decodeSettings (rmwByte xh 0x07 (humBits st)) (rmwByte xm 0xFC (measBits st)) (rmwByte xc 0xFC (configBits st)) =
      ⟨st.tSb, decodeFilter st.filter, decodeOsrs st.osrsT, decodeOsrs st.osrsP, decodeOsrs st.osrsH⟩ := by
  rw [humBits, measBits, configBits, rmwByte_hum, rmwByte_upper, rmwByte_upper, decodeSettings, byteField_high,
    byteField_high, byteField_middle, byteField_middle, byteField_hum]
  rfl

/-- Settles O40: the written bytes are their new fields beside the kept ones. -/
theorem codecRoundTrip : Obligations.CodecRoundTrip := by
  refine ⟨fun x mask v i hi => rmwByte_getLsbD x mask v hi,
    fun st xh xm xc => ⟨decodeSettings_rmw st xh xm xc, ?_, ?_, ?_⟩⟩
  · rw [measBits, rmwByte_upper]
    exact byteField_low _ _ _
  · rw [humBits, rmwByte_hum, append_toNat, byteField_toNat]
    omega
  · rw [configBits, rmwByte_upper, append_toNat, byteField_toNat]
    omega

/-! ## Timing, calibration and the data burst -/

/-- Settles O43: the wait is a quotient rounded up, and its range is that of the coefficients. -/
theorem forcedWaitCoversMeasurement : Obligations.ForcedWaitCoversMeasurement := by
  intro st
  obtain ⟨hlo, hhi⟩ := measWaitMs_range st
  have hw : measWaitMs st = (t40 st + 39) / 40 := rfl
  exact ⟨rfl, by omega, by omega, hlo, hhi⟩

/-- Settles O44: the words are those of R51, at the offsets of R101. -/
theorem calibrationWordsLittleEndian : Obligations.CalibrationWordsLittleEndian := by
  intro tp h
  have htp (i : Nat) := wordAt_toNat tp i
  exact ⟨htp 0, htp 2, htp 4, htp 6, htp 8, htp 10, htp 12, htp 14, htp 16, htp 18, htp 20, htp 22, rfl,
    wordAt_toNat h 0, rfl, rfl⟩

/-- A shifted number joined with a smaller one is their sum. -/
theorem shiftLeft_or_eq_add {a b i : Nat} (h : b < 2 ^ i) : a <<< i ||| b = a * 2 ^ i + b := by
  rw [Nat.shiftLeft_eq, Nat.mul_comm, Nat.two_pow_add_eq_or_of_lt h]

theorem raw20_eq (x0 x1 x2 : Byte) : raw20 x0 x1 x2 = x0.toNat * 4096 + x1.toNat * 16 + x2.toNat / 16 := by
  have hlow : x2.toNat >>> 4 = x2.toNat / 16 := Nat.shiftRight_eq_div_pow _ 4
  have hmid : x1.toNat <<< 4 ||| x2.toNat / 16 = x1.toNat * 16 + x2.toNat / 16 := shiftLeft_or_eq_add (by omega)
  rw [raw20, Nat.or_assoc, hlow, hmid, shiftLeft_or_eq_add (by omega)]
  omega

theorem raw16_eq (y0 y1 : Byte) : raw16 y0 y1 = y0.toNat * 256 + y1.toNat := shiftLeft_or_eq_add y1.isLt

/-- Settles O46: each count is the sum of its bytes at their weights. -/
theorem rawSampleUnpacked : Obligations.RawSampleUnpacked := by
  intro d
  have hP : (unpackRaw d).adcP = _ := raw20_eq (byteAt d 0) (byteAt d 1) (byteAt d 2)
  have hT : (unpackRaw d).adcT = _ := raw20_eq (byteAt d 3) (byteAt d 4) (byteAt d 5)
  have hH : (unpackRaw d).adcH = _ := raw16_eq (byteAt d 6) (byteAt d 7)
  exact ⟨hP, hT, hH, by omega, by omega, by omega⟩

end Sys2Proof.Machine
end

section
/-! PROOFS. The commands over given answers: what SLEEP, SET_SETTINGS, SET_MODE, INIT, FORCE_MEASUREMENT and READ do, exchange
by exchange (`42_mode_controller.md` R131 to R136, `43_measurement_reader.md` R151, R155). -/

namespace Sys2Proof.Machine

section
variable {job : Job} {p p' p'' next : Prog} {s s' : State} {l l' : List Exchange} {w : World}

/-! ## Exchanges between writes to `ctl` -/

/-- Two lists of exchanges, when the second ends in some change `g` of the state it has observed. -/
theorem steps_append_to {g : State → State} (h : follow (l ++ l') s.world = some w)
    (h1 : ∀ w1, follow l s.world = some w1 → Steps job p s l p' (s.observed l w1))
    (h2 : ∀ s1, follow l' s1.world = some w → Steps job p' s1 l' p'' (g (s1.observed l' w))) :
    Steps job p s (l ++ l') p'' (g (s.observed (l ++ l') w)) := by
  obtain ⟨w1, ha, hb⟩ := follow_append.1 h
  have := (h1 w1 ha).trans (h2 (s.observed l w1) hb)
  rwa [observed_append] at this

/-- Two lists of exchanges with a write to `ctl` between them. -/
theorem steps_append_write {c : CtlWrite} (h : follow (l ++ l') s.world = some w)
    (h1 : ∀ w1, follow l s.world = some w1 → Steps job p s l p' ((s.observed l w1).writeCtl c))
    (h2 : ∀ s1, follow l' s1.world = some w → Steps job p' s1 l' p'' (s1.observed l' w)) :
    Steps job p s (l ++ l') p'' ((s.observed (l ++ l') w).writeCtl c) := by
  obtain ⟨w1, ha, hb⟩ := follow_append.1 h
  have := (h1 w1 ha).trans (h2 ((s.observed l w1).writeCtl c) (by simpa using hb))
  rwa [observed_writeCtl, observed_append] at this

/-- The mode bits read Sleep, and the command goes on at once (R133, R134). -/
theorem steps_asleep {x : Byte} (hm : decodeMode (modeBits x) = .sleep)
    (h : follow (.rd .rdCtrlMeas [x] :: l) s.world = some w)
    (h2 : ∀ s1 w2, follow l s1.world = some w2 → Steps job next s1 l p (s1.observed l w2)) :
    Steps job (rd1 .rdCtrlMeas fun xm => sleepFirst xm next) s (.rd .rdCtrlMeas [x] :: l) p
      (s.observed (.rd .rdCtrlMeas [x] :: l) w) :=
  steps_cons h (fun _ => steps_rd1) fun _ _ h => (steps_sleepFirst_asleep hm).trans (h2 _ _ h)

/-- They read another mode, and SLEEP_BODY comes first (R133, R134). -/
theorem steps_awake {x xh xm xc yh ym yc : Byte} (hm : decodeMode (modeBits x) ≠ .sleep)
    (h : follow (.rd .rdCtrlMeas [x] :: (slept xh xm xc yh ym yc ++ l)) s.world = some w)
    (h2 : ∀ s1 w2, follow l s1.world = some w2 → Steps job next s1 l p (s1.observed l w2)) :
    Steps job (rd1 .rdCtrlMeas fun xm => sleepFirst xm next) s (.rd .rdCtrlMeas [x] :: (slept xh xm xc yh ym yc ++ l)) p
      ((s.observed (.rd .rdCtrlMeas [x] :: (slept xh xm xc yh ym yc ++ l)) w).writeCtl (.mode .sleep)) :=
  steps_append_to (l := [_]) (g := (·.writeCtl _)) h (fun _ => steps_rd1) fun _ h =>
    steps_append_write h (fun _ => steps_sleepFirst_awake hm) fun _ => h2 _ _

/-! ## How a command that writes ends -/

/-- A command of an idle block whose exchanges come down to an error: the registers of its WRITEs are open (R226, R227). -/
theorem runCommand_fails {e : Status} {f : Option Word} (hi : s.ctl.seq = .idle)
    (h : Steps job job.program s l (.done (.error e f)) s') :
    runCommand job s =
      .next ({ s' with world := s'.world.unsettled (l.map Exchange.op) }.finish ⟨e, .none, f⟩) := by
  rw [runCommand_idle hi, h.run_done]
  rfl

end

/-- Settles O15: SLEEP is SLEEP_BODY alone. -/
theorem sleepRestoresSettings : Obligations.SleepRestoresSettings := by
  intro s xh xm xc yh ym yc w hi h
  have hrun : Steps .sleep sleepProg s _ _ _ := steps_sleepBody h
  exact runCommand_returns hi hrun

/-- Settles O16: the two branches of the first read, with the three read-modify-write pairs after them. -/
theorem setSettingsWritesRegisters : Obligations.SetSettingsWritesRegisters := by
  refine ⟨fun s st x xh xm xc w hi hm h => ?_, fun s st x xh xm xc yh ym yc zh zm zc w hi hm h => ?_⟩
  · have hrun : Steps (.setSettings st) (setSettingsProg st) s _ _ _ := steps_asleep hm h fun _ _ => steps_settingsWritten
    exact runCommand_returns hi hrun
  · have hrun : Steps (.setSettings st) (setSettingsProg st) s _ _ _ := steps_awake hm h fun _ _ => steps_settingsWritten
    exact runCommand_returns hi hrun

/-! ## SET_MODE -/

/-- The three SET_MODE instructions run one job. -/
theorem exec_setMode {i : Instr} {m : Mode}
    (h : (i, m) ∈ [(Instr.setModeSleep, Mode.sleep), (.setModeForced, .forced), (.setModeNormal, .normal)]) (s : State) :
    exec i s = runCommand (.setMode m) s := by
  simp only [List.mem_cons, Prod.mk.injEq, List.not_mem_nil, or_false] at h
  obtain ⟨rfl, rfl⟩ | ⟨rfl, rfl⟩ | ⟨rfl, rfl⟩ := h <;> rfl

/-- Settles O17: the two branches of the first read, with one read-modify-write pair and the mode's write after them. -/
theorem setModeWritesModeBits : Obligations.SetModeWritesModeBits := by
  intro i m him
  refine ⟨fun s x y w hi hm h => ?_, fun s x xh xm xc yh ym yc z w hi hm h => ?_⟩ <;> rw [exec_setMode him]
  · have hrun : Steps (.setMode m) (setModeProg m) s _ _ _ := (steps_asleep hm h fun _ _ => steps_rmw).write
    exact runCommand_returns hi hrun
  · have hrun : Steps (.setMode m) (setModeProg m) s _ _ _ := (steps_awake hm h fun _ _ => steps_rmw).write
    exact runCommand_returns hi hrun

/-- A read-modify-write ended by its read. -/
theorem steps_rmw_read_error {job : Job} {r o : MicroOp} {mask v : Byte} {next : Prog} {s : State} {w : World}
    (h : follow [⟨r, 0, .error⟩] s.world = some w) :
    Steps job (rmw r o mask v next) s [⟨r, 0, .error⟩] (.done (.error .busError (some r.word)))
      (s.observed [⟨r, 0, .error⟩] w) := steps_rd1_error h

/-- A read-modify-write ended by its write. -/
theorem steps_rmw_write_error {job : Job} {r o : MicroOp} {mask v x : Byte} {next : Prog} {s : State} {w : World}
    (h : follow [.rd r [x], ⟨o, rmwByte x mask v, .error⟩] s.world = some w) :
    Steps job (rmw r o mask v next) s [.rd r [x], ⟨o, rmwByte x mask v, .error⟩]
      (.done (.error .busError (some o.word))) (s.observed [.rd r [x], ⟨o, rmwByte x mask v, .error⟩] w) :=
  steps_cons h (fun _ => steps_rd1) fun _ _ => steps_wr_error

/-- Settles O18: the same two branches, with the read-modify-write ended by its read or by its write. -/
theorem setModePropagatesBusErrors : Obligations.SetModePropagatesBusErrors := by
  intro i m him
  refine ⟨fun s x w hi hm h => ?_, fun s x y w hi hm h => ?_, fun s x xh xm xc yh ym yc w hi hm h => ?_,
    fun s x xh xm xc yh ym yc z w hi hm h => ?_⟩ <;> rw [exec_setMode him]
  · have hrun : Steps (.setMode m) (setModeProg m) s _ _ _ := steps_asleep hm h fun _ _ => steps_rmw_read_error
    exact runCommand_fails_reading hi (by simp [Exchange.rd, MicroOp.data]) hrun
  · have hrun : Steps (.setMode m) (setModeProg m) s _ _ _ := steps_asleep hm h fun _ _ => steps_rmw_write_error
    exact runCommand_fails hi hrun
  · have hrun : Steps (.setMode m) (setModeProg m) s _ _ _ := steps_awake hm h fun _ _ => steps_rmw_read_error
    exact runCommand_fails hi hrun
  · have hrun : Steps (.setMode m) (setModeProg m) s _ _ _ := steps_awake hm h fun _ _ => steps_rmw_write_error
    exact runCommand_fails hi hrun

/-! ## INIT -/

/-- The identity poll up to its match (R131, R132). -/
theorem steps_poll_match {job : Job} {next : Prog} {n : Nat} {rs : List Reply} {s : State} {w : World}
    (hn : rs.length ≤ n) (hmiss : ∀ r ∈ rs, r ≠ .ok [0x60])
    (h : follow (polled rs ++ [.rd .rdId [0x60]]) s.world = some w) :
    Steps job (pollId (n + 1) next) s (polled rs ++ [.rd .rdId [0x60]]) next
      (s.observed (polled rs ++ [.rd .rdId [0x60]]) w) := by
  induction rs generalizing n s w with
  | nil => exact steps_poll_hit h
  | cons r rs ih =>
    cases n with
    | zero => simp at hn
    | succ n =>
      exact steps_cons h (fun _ => steps_poll_miss (Nat.succ_ne_zero n) (hmiss r (.head _))) fun _ _ =>
        ih (Nat.le_of_succ_le_succ hn) fun r' hr => hmiss r' (.tail _ hr)

/-- What INIT writes to `ctl` around its last wait (R131). -/
def State.initialise (c : CalibrationData) (s : State) : State :=
  ((s.writeCtl (.calib c)).writeCtl (.mode .sleep)).writeCtl (.initialized true)

/-- INIT's last wait, with the writes to `ctl` around it (R131). -/
theorem steps_initialise {job : Job} {c : CalibrationData} {next : Prog} {s : State} {w : World}
    (h : follow [.wait 1] s.world = some w) :
    Steps job (.write (.calib c) (waitMs 1 (.write (.mode .sleep) (.write (.initialized true) next)))) s [.wait 1] next
      ((s.observed [.wait 1] w).initialise c) :=
  (Steps.of_write (steps_wait (s := s.writeCtl (.calib c)) (by simpa using h))).write.write

/-- Settles O19: the poll, the soft reset, the calibration reads and the last wait, one after the other. -/
theorem initLoadsCalibration : Obligations.InitLoadsCalibration := by
  intro s rs tp hb w hi hn hmiss h
  have hl : polled rs ++ identified tp hb =
      (polled rs ++ [.rd .rdId [0x60]]) ++ (softResetDone ++ ([.rd .rdCalibTp tp, .rd .rdCalibH hb] ++ [.wait 1])) := by
    simp [identified]
  have h' : follow (polled rs ++ identified tp hb) (s.writeCtl (.initialized false)).world = some w := by
    rwa [writeCtl_world]
  rw [hl] at h' ⊢
  have hrun : Steps .init initProg s _ _ _ := Steps.of_write
    (steps_append_to (g := State.initialise (parseCalib tp hb)) h' (fun _ => steps_poll_match hn hmiss) fun _ h =>
      steps_append_to h (fun _ => steps_softReset) fun _ h =>
        steps_append_to h (fun _ => steps_loadCalib) fun _ h => steps_initialise h)
  exact runCommand_returns hi hrun

/-- Five answers that do not match: the last one decides the error (R132). -/
theorem steps_poll_fails {job : Job} {next : Prog} {r1 r2 r3 r4 r5 : Reply} {s : State} {w : World}
    (hmiss : ∀ r ∈ [r1, r2, r3, r4, r5], r ≠ .ok [0x60])
    (h : follow (polled [r1, r2, r3, r4, r5]) s.world = some w) :
    Steps job (pollId 5 next) s (polled [r1, r2, r3, r4, r5])
      (.done (if r5 = .error then .error .busError (some MicroOp.rdId.word) else .error .identityMismatchError none))
      (s.observed (polled [r1, r2, r3, r4, r5]) w) := by
  refine steps_cons h (fun _ => steps_poll_miss (by decide) (hmiss r1 (by simp))) fun _ _ h => ?_
  refine steps_cons h (fun _ => steps_poll_miss (by decide) (hmiss r2 (by simp))) fun _ _ h => ?_
  refine steps_cons h (fun _ => steps_poll_miss (by decide) (hmiss r3 (by simp))) fun _ _ h => ?_
  refine steps_cons h (fun _ => steps_poll_miss (by decide) (hmiss r4 (by simp))) fun _ _ h => ?_
  exact steps_poll_last (hmiss r5 (by simp)) h

/-- Settles O20: the poll only reads, so its error leaves the sensor as it is. -/
theorem identityPollFails : Obligations.IdentityPollFails := by
  intro s r1 r2 r3 r4 r5 w hi hmiss h
  have hreads : ∀ op ∈ (polled [r1, r2, r3, r4, r5]).map Exchange.op, op.data 0 = [] := by simp [polled, MicroOp.data]
  have hrun : Steps .init initProg s _ _ _ :=
    Steps.of_write (steps_poll_fails hmiss (s := s.writeCtl (.initialized false)) (by rwa [writeCtl_world]))
  rw [observed_writeCtl] at hrun
  by_cases hr : r5 = .error
  · rw [if_pos hr] at hrun ⊢
    exact runCommand_fails_reading hi hreads hrun
  · rw [if_neg hr] at hrun ⊢
    exact runCommand_fails_reading hi hreads hrun

/-! ## The measurement reader -/

/-- Settles O21. -/
theorem forceMeasurementTriggers : Obligations.ForceMeasurementTriggers :=
  fun _ _ _ _ _ hi hm h => exec_forceMeasurement hi hm h

/-- READ of an initialised, idle block runs its job (R155, R156). -/
theorem exec_read_initialized {s : State} {c : CalibrationData} (h0 : s.ctl.initialized = true)
    (hc : s.ctl.calib = some c) : exec .read s = runCommand (.read (decide (s.ctl.mode = .forced)) c) s := by
  simp only [exec, execRead, h0, if_true, hc]

/-- A READ of an idle block whose exchanges come down to the data burst `d`. -/
theorem runCommand_compensates {job : Job} {s : State} {l : List Exchange} {c : CalibrationData} {d : List Byte}
    {w : World} (hi : s.ctl.seq = .idle)
    (h : Steps job job.program s l (.done (.compensate c d)) (s.observed l w)) :
    runCommand job s = .next ((s.observed l (compensate (unpackRaw d) c w).2).finish
      ⟨.ok, (compensate (unpackRaw d) c w).1, none⟩) := by
  rw [runCommand_idle hi, h.run_done]
  rfl

/-- A pipeline whose three stages give these values gives their measurement. -/
theorem compensate_eq {raw : RawSample} {c : CalibrationData} {w w1 w2 w3 : World} {t f p h : Int}
    (hT : stageT raw.adcT c w = ((t, f), w1)) (hP : stageP raw.adcP f c w1 = (p, w2))
    (hH : stageH raw.adcH f c w2 = (h, w3)) :
    compensate raw c w = (.measurement (BitVec.ofInt 32 t) (BitVec.ofInt 32 p) (BitVec.ofInt 32 h), w3) := by
  simp only [compensate, hT, hP, hH]

/-- The outputs of the pipeline: each is its stage's computed result, or lies in its range where the stage overflows. -/
theorem compensate_outputs (raw : RawSample) (c : CalibrationData) (w : World) :
    ∃ t f p h : Int,
      (compensate raw c w).1 = .measurement (BitVec.ofInt 32 t) (BitVec.ofInt 32 p) (BitVec.ofInt 32 h) ∧
      (compT raw.adcT c = some (t, f) ∨
        compT raw.adcT c = none ∧ -4000 ≤ t ∧ t ≤ 8500 ∧ -2147483648 ≤ f ∧ f ≤ 2147483647) ∧
      (compP raw.adcP f c = some p ∨ compP raw.adcP f c = none ∧ 3000000 ≤ p ∧ p ≤ 11000000) ∧
      (compH raw.adcH f c = some h ∨ compH raw.adcH f c = none ∧ 0 ≤ h ∧ h ≤ 102400) := by
  refine ⟨_, (stageT raw.adcT c w).1.2, _, _, rfl, ?_, ?_, ?_⟩
  · obtain ⟨r, hr, e⟩ | ⟨hn, ht, hf⟩ := stageT_spec raw.adcT c w
    · exact .inl (by rw [hr, e])
    · exact .inr ⟨hn, ht.1, ht.2, hf⟩
  · obtain ⟨r, hr, e⟩ | h := stageP_spec raw.adcP (stageT raw.adcT c w).1.2 c (stageT raw.adcT c w).2
    · exact .inl (by rw [hr, e])
    · exact .inr h
  · obtain ⟨r, hr, e⟩ | h := stageH_spec raw.adcH (stageT raw.adcT c w).1.2 c
      (stageP raw.adcP (stageT raw.adcT c w).1.2 c (stageT raw.adcT c w).2).2
    · exact .inl (by rw [hr, e])
    · exact .inr h

/-- Settles O23: the two ways READ comes to its burst, and the pipeline stage by stage. -/
theorem readReturnsMeasurement : Obligations.ReadReturnsMeasurement := by
  refine ⟨fun s c d w hi h0 hm hc h => ?_, fun s c xh xm xc d w hi h0 hm hc h => ?_, fun raw c w =>
    ⟨fun t f p h hT hP hH => ?_, compensate_outputs raw c w, fun t f p h ds hT hP hH hd => ?_⟩⟩
  · rw [exec_read_initialized h0 hc, decide_eq_false hm]
    have hrun : Steps (.read false c) (readProg false c) s _ _ _ := steps_rd h
    exact runCommand_compensates hi hrun
  · rw [exec_read_initialized h0 hc, decide_eq_true hm]
    have hrun : Steps (.read true c) (readProg true c) s _ _ _ :=
      steps_append h (fun _ => steps_forceBody) fun _ _ => steps_rd
    exact runCommand_compensates hi hrun
  · exact compensate_eq (w1 := w) (w2 := w) (by rw [stageT, hT]) (by rw [stageP, hP]) (by rw [stageH, hH])
  · rw [List.append_assoc, List.append_assoc] at hd
    obtain ⟨w1, e1, hd1⟩ := stageT_script (by exact hT) (by exact hd)
    obtain ⟨w2, e2, hd2⟩ := stageP_script (by exact hP) (by exact hd1)
    obtain ⟨w3, e3, hd3⟩ := stageH_script (by exact hH) (by exact hd2)
    rw [compensate_eq e1 e2 e3]
    exact ⟨rfl, hd3⟩

end Sys2Proof.Machine
end

section
/-! PROOFS. The compensation stages: each computes exactly when every value of its pseudocode fits the stage's width
(`44_compensation.md` R171 to R179). -/

namespace Sys2Proof.Machine

theorem fits32_iff {v : Int} : Fits 32 v ↔ -(2 : Int) ^ 31 ≤ v ∧ v ≤ (2 : Int) ^ 31 - 1 := Iff.rfl
theorem fits64_iff {v : Int} : Fits 64 v ↔ -(2 : Int) ^ 63 ≤ v ∧ v ≤ (2 : Int) ^ 63 - 1 := Iff.rfl

/-- Settles O32: the pseudocode's operations, one range test each, in the order of the list. -/
theorem temperatureExactWhenInRange : Obligations.TemperatureExactWhenInRange := by
  intro adcT c r
  unfold compT
  simp only [divW_bind, mulW_bind, subW_bind, addW_bind, ← fits32_iff, List.forall_mem_cons, List.not_mem_nil,
    false_imp_iff, implies_true, true_and, and_assoc, Option.some.injEq, @eq_comm _ r]
  rfl

/-- Settles O34: the same, the quotient that is squared being tested twice in a row. -/
theorem humidityExactWhenInRange : Obligations.HumidityExactWhenInRange := by
  intro adcH tFine c r
  unfold compH
  simp only [divW_bind, mulW_bind, subW_bind, addW_bind, ← fits32_iff, List.forall_mem_cons, List.not_mem_nil,
    false_imp_iff, implies_true, true_and, and_assoc, and_self_left, Option.some.injEq, @eq_comm _ r]
  rfl

/-- A pressure fits u32 and is clamped, or the stage overflows (R176). -/
theorem clampP_iff {p r : Int} :
    clampP p = some r ↔ 0 ≤ p ∧ p ≤ (2 : Int) ^ 32 - 1 ∧ r = min (max p 3000000) 11000000 := by
  unfold clampP fitsU clamp
  split <;> rename_i h <;> rw [Bool.and_eq_true, decide_eq_true_iff, decide_eq_true_iff] at h
  · rw [Option.some_inj, eq_comm]
    exact ⟨fun e => ⟨h.1, h.2, e⟩, fun e => e.2.2⟩
  · exact ⟨nofun, fun e => absurd ⟨e.1, e.2.1⟩ h⟩

/-- The zero denominator ends the stage (R175); else it goes on. -/
theorem zero_denominator_iff {d x r : Int} {y : Option Int} :
    (if d = 0 then some x else y) = some r ↔ (d = 0 ∧ r = x) ∨ (d ≠ 0 ∧ y = some r) := by
  split <;> rename_i h
  · simp [h, eq_comm]
  · simp [h]

/-- Settles O33: the same, with a value met again tested again: the squared `var1`, and the quotient by 8192. -/
theorem pressureExactWhenInRange : Obligations.PressureExactWhenInRange := by
  intro adcP tFine c r
  unfold compP
  simp only [divW_bind, mulW_bind, subW_bind, addW_bind, ← fits64_iff, List.forall_mem_cons, List.not_mem_nil,
    false_imp_iff, implies_true, true_and, and_assoc, zero_denominator_iff, clampP_iff]
  iterate 8 refine and_congr_right fun _ => ?_
  refine (and_iff_right ‹_›).trans ?_
  iterate 8 refine and_congr_right fun _ => ?_
  refine or_congr Iff.rfl (and_congr_right fun _ => ?_)
  iterate 7 refine and_congr_right fun _ => ?_
  exact and_iff_right ‹_›

/-- Settles O35: up to the denominator every value is bounded, and the denominator has the factor 0. -/
theorem zeroPressureCoefficient : Obligations.ZeroPressureCoefficient := by
  intro adcP tFine c hp1 hlo hhi
  have hv : -1128000 ≤ tFine - 128000 ∧ tFine - 128000 ≤ 1128000 := by omega
  have hvv := mul_bounds hv hv
  have hp6 := mul_bounds hvv (toInt_bounds c.p6)
  have hp5 := mul_bounds hv (toInt_bounds c.p5)
  have hp4 := toInt_bounds c.p4
  have hp3 := mul_bounds hvv (toInt_bounds c.p3)
  have hp3' := tdiv_bounds (n := 256) hp3
  have hp2 := mul_bounds hv (toInt_bounds c.p2)
  have hzero (x : Int) : x * (c.p1.toNat : Int) = 0 := by rw [hp1]; exact Int.mul_zero x
  refine (pressureExactWhenInRange adcP tFine c 3000000).2 ⟨?_, .inl ⟨?_, rfl⟩⟩
  · simp only [List.forall_mem_cons, List.not_mem_nil, false_imp_iff, implies_true, and_true, hzero, Int.zero_tdiv]
    push_cast at hp3'
    omega
  · rw [hzero, Int.zero_tdiv]

/-! ## The ranges of the results (R179) -/

theorem compT_range {adcT : Int} {c : CalibrationData} {t f : Int} (h : compT adcT c = some (t, f)) :
    -4000 ≤ t ∧ t ≤ 8500 := by
  obtain ⟨-, e⟩ := (temperatureExactWhenInRange adcT c (t, f)).1 h
  obtain ⟨rfl, -⟩ := Prod.mk.inj e
  exact clamp_range (by decide)

theorem compP_range {adcP f : Int} {c : CalibrationData} {p : Int} (h : compP adcP f c = some p) :
    3000000 ≤ p ∧ p ≤ 11000000 := by
  obtain ⟨-, ⟨-, rfl⟩ | ⟨-, -, -, -, rfl⟩⟩ := (pressureExactWhenInRange adcP f c p).1 h
  · decide
  · exact clamp_range (by decide)

theorem compH_range {adcH f : Int} {c : CalibrationData} {v : Int} (h : compH adcH f c = some v) :
    0 ≤ v ∧ v ≤ 102400 := by
  obtain ⟨-, rfl⟩ := (humidityExactWhenInRange adcH f c v).1 h
  exact ⟨le_min (Int.tdiv_nonneg (le_min (le_max_right _ _) (by decide)) (by decide)) (by decide), min_le_right _ _⟩

/-- Every output of the pipeline, computed or drawn, lies in its range (R179). -/
theorem compensate_range (raw : RawSample) (c : CalibrationData) (w : World) :
    ∃ t p h : Int,
      (compensate raw c w).1 = .measurement (BitVec.ofInt 32 t) (BitVec.ofInt 32 p) (BitVec.ofInt 32 h) ∧
      (-4000 ≤ t ∧ t ≤ 8500) ∧ (3000000 ≤ p ∧ p ≤ 11000000) ∧ 0 ≤ h ∧ h ≤ 102400 := by
  obtain ⟨t, f, p, h, e, hT, hP, hH⟩ := compensate_outputs raw c w
  exact ⟨t, p, h, e, hT.elim compT_range fun h => ⟨h.2.1, h.2.2.1⟩, hP.elim compP_range And.right,
    hH.elim compH_range And.right⟩

theorem ofInt_toInt_of_small {v : Int} (hlo : -4000 ≤ v) (hhi : v ≤ 8500) : (BitVec.ofInt 32 v).toInt = v := by
  rw [BitVec.toInt_ofInt, Int.bmod_eq_of_le (by omega) (by omega)]

theorem ofInt_toNat_of_small {v : Int} (hlo : 0 ≤ v) (hhi : v ≤ 11000000) : ((BitVec.ofInt 32 v).toNat : Int) = v := by
  rw [BitVec.toNat_ofInt, Int.toNat_of_nonneg (by omega)]
  omega

end Sys2Proof.Machine
end

section
/-! PROOFS. What holds of every command whatever the answers: the words it issues, the registers it leaves alone, what it
writes to `ctl`, and how an error ends it (`10_state.md` R21 to R24, R32 to R34, `60_exceptions.md` R221, R226, R227). -/

namespace Sys2Proof.Machine

/-! ## What every part of a pseudocode keeps -/

/-- Settles O26: every line of a trace is one of a micro-operation that the block issues. -/
theorem onlyTableWordsIssued : Obligations.OnlyTableWordsIssued := by
  intro i s t hp h
  have hnone : ∃ l, s.trace = s.trace ++ l ∧
      ∀ e ∈ l, issuedWord e.word ∧ (e.word = 0x000001E0 → e.wdata = [0xB6]) := ⟨[], by simp, by simp⟩
  obtain ⟨-, rfl⟩ | ⟨-, ⟨e, rfl, -⟩ | ⟨j, rfl, -⟩⟩ := exec_command_cases hp h
  · exact hnone
  · exact hnone
  refine run_keeps (P := fun u => ∃ l, u.trace = s.trace ++ l ∧
    ∀ e ∈ l, issuedWord e.word ∧ (e.word = 0x000001E0 → e.wdata = [0xB6])) ?_ ?_ ?_ (job_issues j) hnone
  · intro c u _ hu
    rwa [writeCtl_trace]
  · rintro op v job rs u hop ⟨l, hl, hw⟩
    refine ⟨l ++ [⟨op.word, op.data v, (transact op v u.world).1⟩], ?_, fun e he => ?_⟩
    · rw [perform_trace, issue_trace, hl, List.append_assoc]
      rfl
    · rcases List.mem_append.1 he with he | he
      · exact hw e he
      · rw [List.mem_singleton.1 he]
        exact issued_word hop
  · intro ops e u _ hu
    rwa [(finishWith_frame ops e u).2.2.2.2.2.1]

/-- Of the jobs only INIT's writes anything but the mode. -/
theorem job_writes_mode {j : Job} (hj : j ≠ .init) : j.program.Issues (fun c => ∃ m, c = .mode m) :=
  (job_issues j).imp (fun _ hc => hc.resolve_left hj) (fun _ _ h => h) fun _ h => h

theorem runsJob_init {i : Instr} {j : Job} (h : runsJob i j) (hi : i ≠ .init) : j ≠ .init := by
  rintro rfl
  cases i <;> simp [runsJob] at h hi

/-- Settles O27: no write of another job than INIT's reaches the two fields. -/
theorem onlyInitWritesCalibration : Obligations.OnlyInitWritesCalibration := by
  intro i s t hi h
  cases hp : i.port with
  | microOp =>
    obtain ⟨op, rfl⟩ := exists_microOp hp
    rw [exec_microOp] at h
    cases h
    exact ⟨rfl, rfl⟩
  | command =>
    obtain ⟨-, rfl⟩ | ⟨-, ⟨e, rfl, -⟩ | ⟨j, rfl, hj⟩⟩ := exec_command_cases hp h
    · exact ⟨rfl, rfl⟩
    · exact ⟨rfl, rfl⟩
    refine run_keeps (P := fun u => u.ctl.initialized = s.ctl.initialized ∧ u.ctl.calib = s.ctl.calib) ?_ ?_ ?_
      (job_writes_mode (runsJob_init hj hi)) ⟨rfl, rfl⟩
    · rintro _ u ⟨m, rfl⟩ hu
      exact hu
    · exact fun _ _ _ _ _ _ hu => hu
    · intro ops e u _ hu
      rwa [(finishWith_frame ops e u).1]

/-- Every instruction keeps of the sensor what no activity changes. -/
theorem exec_keeps {i : Instr} {s t : State} (h : exec i s = .next t) : World.Keeps s.world t.world := by
  cases hp : i.port with
  | microOp =>
    obtain ⟨op, rfl⟩ := exists_microOp hp
    rw [exec_microOp] at h
    cases h
    exact transact_keeps op _ _
  | command =>
    obtain ⟨-, rfl⟩ | ⟨-, ⟨e, rfl, -⟩ | ⟨j, rfl, -⟩⟩ := exec_command_cases hp h
    · exact .refl _
    · exact .refl _
    refine run_keeps (P := fun u => World.Keeps s.world u.world) ?_ ?_ ?_ (job_issues j) (.refl _)
    · intro c u _ hu
      rwa [writeCtl_world]
    · exact fun op v _ _ _ _ hu => hu.trans (transact_keeps op v _)
    · exact fun ops e u _ hu => hu.trans (finishWith_frame ops e u).2.2.2.2.2.2

/-- Settles O30. -/
theorem readOnlyRegistersNeverChange : Obligations.ReadOnlyRegistersNeverChange :=
  fun _ _ _ _ hc h ha => ⟨(exec_keeps h).reg hc ha, (exec_keeps h).conforming.trans hc⟩

/-! ## The ends a pseudocode can come to -/

/-- A write to `ctl` as a change of the record. -/
def Ctl.write (c : Ctl) : CtlWrite → Ctl
  | .initialized b => { c with initialized := b }
  | .mode m => { c with mode := m }
  | .calib d => { c with calib := some d }

/-- The status an end answers (R220). -/
def Ending.status : Ending → Status
  | .ok _ => .ok
  | .error st _ => st
  | .compensate _ _ => .ok

theorem finishWith_status (ops : List MicroOp) (e : Ending) (s : State) :
    (finishWith ops e s).host.result.map Result.status = some e.status := by cases e <;> rfl

/-- Every end the pseudocode can come to from this record, whatever the answers, has the property `Q` with the record
then held. -/
def Prog.Ends (Q : Ending → Ctl → Prop) : Prog → Ctl → Prop
  | .done e, c => Q e c
  | .write a next, c => Prog.Ends Q next (c.write a)
  | .uop _ _ k, c => ∀ r, Prog.Ends Q (k r) c

/-- Running a pseudocode comes to one of its ends. -/
theorem run_ends {Q : Ending → Ctl → Prop} {job : Job} {p : Prog} {rs : List Reply} {s : State}
    (h : p.Ends Q { s.ctl with seq := .idle }) :
    ∃ ops e s', Prog.run job p rs s = finishWith ops e s' ∧ Q e (Prog.run job p rs s).ctl := by
  induction p generalizing rs s with
  | done e => exact ⟨_, e, s, rfl, by rw [Prog.run, (finishWith_frame _ e s).1]; exact h⟩
  | write a next ih => exact ih (s := s.writeCtl a) (by cases a <;> exact h)
  | uop op v k ih => exact ih _ (s := perform op (s.issue job rs op.word v)) (h _)

/-- A job of an idle block: the status of the result, and the record, are those of one of its ends. -/
theorem job_ends {Q : Ending → Ctl → Prop} {j : Job} {s : State} (hi : s.ctl.seq = .idle) (h : j.program.Ends Q s.ctl) :
    ∃ e, (Prog.run j j.program [] s).host.result.map Result.status = some e.status ∧
      Q e (Prog.run j j.program [] s).ctl := by
  have hc : { s.ctl with seq := .idle } = s.ctl := by rw [← hi]
  obtain ⟨ops, e, s', hr, hQ⟩ := run_ends (job := j) (rs := []) (s := s) (by rwa [hc])
  exact ⟨e, by rw [hr, finishWith_status], hQ⟩

section
variable {Q : Ending → Ctl → Prop} {c : Ctl}

/-- Every error the pseudocode can end with from this record is allowed. -/
def ErrorsAllowed (Q : Ending → Ctl → Prop) (c : Ctl) : Prop := ∀ e f, e ≠ .ok → Q (.error e f) c

theorem ends_rd {op : MicroOp} {k : List Byte → Prog} (he : ErrorsAllowed Q c) (h : ∀ b, (k b).Ends Q c) :
    (rd op k).Ends Q c
  | .ok b => h b
  | .error => he _ _ (by decide)

theorem ends_wr {op : MicroOp} {v : Byte} {k : Prog} (he : ErrorsAllowed Q c) (h : k.Ends Q c) : (wr op v k).Ends Q c
  | .ok _ => h
  | .error => he _ _ (by decide)

theorem ends_rmw {r o : MicroOp} {m v : Byte} {k : Prog} (he : ErrorsAllowed Q c) (h : k.Ends Q c) :
    (rmw r o m v k).Ends Q c := ends_rd he fun _ => ends_wr he h

theorem ends_settings {st : Settings} {k : Prog} (he : ErrorsAllowed Q c) (h : k.Ends Q c) :
    (writeHum st (writeMeasConfig st k)).Ends Q c := ends_rmw he (ends_rmw he (ends_rmw he h))

theorem ends_readSettings {k : Settings → Byte → Prog} (he : ErrorsAllowed Q c) (h : ∀ st x, (k st x).Ends Q c) :
    (readSettings k).Ends Q c := ends_rd he fun _ => ends_rd he fun _ => ends_rd he fun _ => h _ _

theorem ends_softReset {k : Prog} (he : ErrorsAllowed Q c) (h : k.Ends Q c) : (softReset k).Ends Q c :=
  ends_wr he fun _ => h

theorem ends_sleepBody {k : Prog} (he : ErrorsAllowed Q c) (h : k.Ends Q { c with mode := .sleep }) :
    (sleepBody k).Ends Q c := ends_readSettings he fun _ _ => ends_softReset he (ends_settings he h)

theorem ends_sleepFirst {x : Byte} {k : Prog} (he : ErrorsAllowed Q c) (h : k.Ends Q c)
    (h' : k.Ends Q { c with mode := .sleep }) : (sleepFirst x k).Ends Q c := by
  unfold sleepFirst
  split
  · exact h
  · exact ends_sleepBody he h'

theorem ends_forceBody {k : Prog} (he : ErrorsAllowed Q c) (h : k.Ends Q c) : (forceBody k).Ends Q c :=
  ends_readSettings he fun _ _ => ends_wr he (ends_wr he fun _ => h)

theorem ends_poll {n : Nat} {k : Prog} (he : ErrorsAllowed Q c) (h : k.Ends Q c) : (pollId n k).Ends Q c := by
  induction n with
  | zero => exact he _ _ (by decide)
  | succ n ih =>
    intro r
    dsimp only
    split
    · exact h
    split
    · cases r <;> exact he _ _ (by decide)
    · exact ih

end

/-! ## INIT -/

/-- The record INIT leaves, by its status. -/
def InitLeaves (c0 : Ctl) (e : Ending) (c : Ctl) : Prop :=
  (e.status = .ok → c.initialized = true ∧ c.mode = .sleep ∧ c.calib.isSome = true) ∧
  (e.status ≠ .ok → c.initialized = false ∧ c.mode = c0.mode ∧ c.calib = c0.calib)

theorem initProg_ends (c : Ctl) : initProg.Ends (InitLeaves c) c := by
  have he : ErrorsAllowed (InitLeaves c) { c with initialized := false } :=
    fun e f hne => ⟨fun h => absurd h hne, fun _ => ⟨rfl, rfl, rfl⟩⟩
  exact ends_poll he (ends_softReset he (ends_rd he fun _ => ends_rd he fun _ _ =>
    ⟨fun _ => ⟨rfl, rfl, rfl⟩, fun h => absurd rfl h⟩))

/-- Settles O28: everything that can fail comes before the writes of `calib` and `mode`. -/
theorem initOutcome : Obligations.InitOutcome := by
  intro s t hi h
  have h' : runCommand .init s = .next t := h
  rw [runCommand_idle hi] at h'
  cases h'
  obtain ⟨e, hs, hok, herr⟩ := job_ends (j := .init) hi (initProg_ends s.ctl)
  obtain ⟨r, hr, hst⟩ := Option.map_eq_some_iff.1 hs
  exact ⟨r, hr, fun h => hok (hst.symm.trans h), fun h => herr fun h' => h (hst.trans h')⟩

/-! ## The mode -/

/-- The mode a job leaves, by its status: SET_MODE its own mode after OK, and after an error the old one or Sleep; and so
on (R139, R227). -/
def Job.LeavesMode (m0 : Mode) : Job → Ending → Ctl → Prop
  | .setMode m, e, c => (e.status = .ok → c.mode = m) ∧ (e.status ≠ .ok → c.mode = .sleep ∨ c.mode = m0)
  | .sleep, e, c => (e.status = .ok → c.mode = .sleep) ∧ (e.status ≠ .ok → c.mode = m0)
  | .setSettings _, _, c | .init, _, c => c.mode = .sleep ∨ c.mode = m0
  | .getMode, _, c | .getSettings, _, c | .force, _, c | .read _ _, _, c => c.mode = m0

theorem job_leavesMode (j : Job) (c : Ctl) : j.program.Ends (j.LeavesMode c.mode) c := by
  cases j with
  | init =>
    have he : ErrorsAllowed (Job.LeavesMode c.mode .init) { c with initialized := false } := fun _ _ _ => .inr rfl
    exact ends_poll he (ends_softReset he (ends_rd he fun _ => ends_rd he fun _ _ => .inl rfl))
  | setSettings st =>
    have he : ErrorsAllowed (Job.LeavesMode c.mode (.setSettings st)) c := fun _ _ _ => .inr rfl
    have he' : ErrorsAllowed (Job.LeavesMode c.mode (.setSettings st)) { c with mode := .sleep } := fun _ _ _ => .inl rfl
    exact ends_rd he fun _ => ends_sleepFirst he (ends_settings he (.inr rfl)) (ends_settings he' (.inl rfl))
  | setMode m =>
    have he : ErrorsAllowed (Job.LeavesMode c.mode (.setMode m)) c :=
      fun _ _ hne => ⟨fun h => absurd h hne, fun _ => .inr rfl⟩
    have he' : ErrorsAllowed (Job.LeavesMode c.mode (.setMode m)) { c with mode := .sleep } :=
      fun _ _ hne => ⟨fun h => absurd h hne, fun _ => .inl rfl⟩
    have hdone (c' : Ctl) : Prog.Ends (Job.LeavesMode c.mode (.setMode m)) (.write (.mode m) (.done (.ok .none))) c' :=
      ⟨fun _ => rfl, fun h => absurd rfl h⟩
    exact ends_rd he fun _ => ends_sleepFirst he (ends_rmw he (hdone _)) (ends_rmw he' (hdone _))
  | sleep =>
    have he : ErrorsAllowed (Job.LeavesMode c.mode .sleep) c := fun _ _ hne => ⟨fun h => absurd h hne, fun _ => rfl⟩
    exact ends_sleepBody he ⟨fun _ => rfl, fun h => absurd rfl h⟩
  | getMode => exact ends_rd (fun _ _ _ => rfl) fun _ => rfl
  | getSettings =>
    have he : ErrorsAllowed (Job.LeavesMode c.mode .getSettings) c := fun _ _ _ => rfl
    exact ends_readSettings (k := fun st _ => .done (.ok (.settings st))) he fun _ _ => rfl
  | force => exact ends_forceBody (fun _ _ _ => rfl) rfl
  | read b d =>
    have he : ErrorsAllowed (Job.LeavesMode c.mode (.read b d)) c := fun _ _ _ => rfl
    simp only [Job.program, readProg]
    split
    · exact ends_forceBody he (ends_rd he fun _ => rfl)
    · exact ends_rd he fun _ => rfl

/-- Settles O29: a rejected command leaves the old mode with an error, and a job what `Job.LeavesMode` says. -/
theorem modeWriters : Obligations.ModeWriters := by
  intro i s t hi h
  cases hp : i.port with
  | microOp =>
    obtain ⟨op, rfl⟩ := exists_microOp hp
    rw [exec_microOp] at h
    cases h
    cases op <;> rfl
  | command =>
    obtain ⟨hb, -⟩ | ⟨-, ⟨e, rfl, he⟩ | ⟨j, rfl, hj⟩⟩ := exec_command_cases hp h
    · exact absurd hi hb
    · have hne : (s.raise e none).host.result.map Result.status ≠ some .ok := by
        rcases he with rfl | rfl <;> simp [raise_eq]
      have hm : (s.raise e none).ctl.mode = s.ctl.mode := rfl
      cases i
      case setModeSleep | setModeForced | setModeNormal => exact ⟨fun h => absurd h hne, fun _ => .inr hm⟩
      case sleep => exact ⟨fun h => absurd h hne, fun _ => hm⟩
      case setSettings | init => exact .inr hm
      all_goals exact hm
    · obtain ⟨e, hs, hQ⟩ := job_ends hi (job_leavesMode j s.ctl)
      have hok : (Prog.run j j.program [] s).host.result.map Result.status = some .ok ↔ e.status = .ok := by
        rw [hs, Option.some_inj]
      cases i
      case read => obtain ⟨b, d, rfl⟩ := hj; exact hQ
      case setModeSleep | setModeForced | setModeNormal | sleep =>
        cases hj
        exact ⟨fun h => hQ.1 (hok.1 h), fun h => hQ.2 (mt hok.2 h)⟩
      case init | setSettings | getMode | getSettings | forceMeasurement => cases hj; exact hQ
      all_goals exact hj.elim

/-! ## READ's result -/

/-- READ ends with an error or with the compensation of a burst. -/
theorem readProg_ends (b : Bool) (d : CalibrationData) (c : Ctl) :
    (readProg b d).Ends (fun e _ => e.status = .ok → ∃ l, e = .compensate d l) c := by
  have he : ErrorsAllowed (fun e _ => e.status = .ok → ∃ l, e = .compensate d l) c := fun _ _ hne h => absurd h hne
  unfold readProg
  split
  · exact ends_forceBody he (ends_rd he fun l _ => ⟨l, rfl⟩)
  · exact ends_rd he fun l _ => ⟨l, rfl⟩

/-- An OK of READ carries the outputs of the pipeline. -/
theorem read_ok_result {b : Bool} {c : CalibrationData} {s : State}
    (h : (Prog.run (.read b c) (Job.program (.read b c)) [] s).okResult) :
    ∃ raw w, (Prog.run (.read b c) (Job.program (.read b c)) [] s).host.result =
      some ⟨.ok, (compensate raw c w).1, none⟩ := by
  obtain ⟨ops, e, s', hr, hQ⟩ := run_ends (job := .read b c) (p := Job.program (.read b c)) (rs := []) (s := s)
    (readProg_ends b c _)
  rw [hr, State.okResult, finishWith_status, Option.some_inj] at h
  obtain ⟨l, rfl⟩ := hQ h
  exact ⟨unpackRaw l, s'.world, by rw [hr]; rfl⟩

/-- Settles O36: the outputs of the pipeline lie in their ranges. -/
theorem measurementInRange : Obligations.MeasurementInRange := by
  intro s t tOut pOut hOut f hi h hres
  rcases execRead_next hi h with rfl | ⟨c, rfl⟩
  · simp [raise_eq] at hres
  obtain ⟨raw, w, hraw⟩ := read_ok_result (by rw [State.okResult, hres]; rfl)
  obtain ⟨x, p, v, hout, hx, hp, hv⟩ := compensate_range raw c w
  rw [hraw, hout] at hres
  simp only [Option.some.injEq, Result.mk.injEq, Payload.measurement.injEq] at hres
  obtain ⟨-, ⟨rfl, rfl, rfl⟩, -⟩ := hres
  have hpNat := ofInt_toNat_of_small (v := p) (by omega) hp.2
  have hvNat := ofInt_toNat_of_small (v := v) hv.1 (by omega)
  rw [ofInt_toInt_of_small hx.1 hx.2]
  omega

end Sys2Proof.Machine
end

section
/-! PROOFS. Short-circuit: the first failing micro-operation is its command's last one, but for INIT's identity poll
(`60_exceptions.md` R221, R226). -/

namespace Sys2Proof.Machine

/-- Every command's pseudocode is built of its primitives and the poll: a property that each of them keeps holds of it. -/
theorem job_of_closed {P : Prog → Prop} (j : Job) (hdone : ∀ e, P (.done e)) (hwrite : ∀ c k, P k → P (.write c k))
    (hrd : ∀ op k, (∀ b, P (k b)) → P (rd op k)) (hwr : ∀ op v k, P k → P (wr op v k))
    (hwait : ∀ ms k, P k → P (waitMs ms k)) (hpoll : j = .init → ∀ n k, P k → P (pollId n k)) : P j.program := by
  have hrmw (r o m v k) (h : P k) : P (rmw r o m v k) := hrd _ _ fun _ => hwr _ _ _ h
  have hsettings (st k) (h : P k) : P (writeHum st (writeMeasConfig st k)) :=
    hrmw _ _ _ _ _ (hrmw _ _ _ _ _ (hrmw _ _ _ _ _ h))
  have hread (k : Settings → Byte → Prog) (h : ∀ st x, P (k st x)) : P (readSettings k) :=
    hrd _ _ fun _ => hrd _ _ fun _ => hrd _ _ fun _ => h _ _
  have hreset (k) (h : P k) : P (softReset k) := hwr _ _ _ (hwait _ _ h)
  have hfirst (x k) (h : P k) : P (sleepFirst x k) := by
    unfold sleepFirst
    split
    · exact h
    · exact hread _ fun _ _ => hreset _ (hsettings _ _ (hwrite _ _ h))
  have hforce (k) (h : P k) : P (forceBody k) := hread _ fun _ _ => hwr _ _ _ (hwr _ _ _ (hwait _ _ h))
  cases j with
  | init =>
    simp only [Job.program, initProg, loadCalib]
    exact hwrite _ _ (hpoll rfl _ _ (hreset _ (hrd _ _ fun _ => hrd _ _ fun _ => hwrite _ _ (hwait _ _
      (hwrite _ _ (hwrite _ _ (hdone _)))))))
  | setSettings st =>
    simp only [Job.program, setSettingsProg]
    exact hrd _ _ fun _ => hfirst _ _ (hsettings _ _ (hdone _))
  | setMode m =>
    simp only [Job.program, setModeProg]
    exact hrd _ _ fun _ => hfirst _ _ (hrmw _ _ _ _ _ (hwrite _ _ (hdone _)))
  | sleep =>
    simp only [Job.program, sleepProg, sleepBody]
    exact hread _ fun _ _ => hreset _ (hsettings _ _ (hwrite _ _ (hdone _)))
  | getMode =>
    simp only [Job.program, getModeProg]
    exact hrd _ _ fun _ => hdone _
  | getSettings =>
    simp only [Job.program, getSettingsProg]
    exact hread _ fun _ _ => hdone _
  | force =>
    simp only [Job.program, forceProg]
    exact hforce _ (hdone _)
  | read b c =>
    have hburst : P (rd .rdData fun d => .done (.compensate c d)) := hrd _ _ fun _ => hdone _
    simp only [Job.program, readProg]
    split
    · exact hforce _ hburst
    · exact hburst

/-- A pseudocode that stands at a micro-operation. -/
def Prog.AtMicroOp : Prog → Prop
  | .uop _ _ _ => True
  | .done _ | .write _ _ => False

/-- A failing micro-operation ends the pseudocode with `BusError` and its own word; where `poll` holds, one that reads the
identity register may go on to another micro-operation instead. -/
def Prog.FailsAtOnce (poll : Prop) : Prog → Prop
  | .done _ => True
  | .write _ next => Prog.FailsAtOnce poll next
  | .uop op _ k =>
    (k .error = .done (.error .busError (some op.word)) ∨ (poll ∧ op = .rdId ∧ (k .error).AtMicroOp) ∨ op.onBus = false) ∧
      ∀ r, Prog.FailsAtOnce poll (k r)

theorem poll_failsAtOnce {n : Nat} {k : Prog} (h : k.FailsAtOnce True) : (pollId n k).FailsAtOnce True := by
  induction n with
  | zero => trivial
  | succ n ih =>
    refine ⟨?_, fun r => ?_⟩
    · cases n with
      | zero => exact .inl rfl
      | succ n => exact .inr (.inl ⟨trivial, rfl, trivial⟩)
    · dsimp only
      split
      · exact h
      split
      · cases r <;> trivial
      · exact ih

theorem job_failsAtOnce (j : Job) : j.program.FailsAtOnce (j = .init) := by
  refine job_of_closed j (fun _ => trivial) (fun _ _ h => h) (fun op k h => ⟨.inl rfl, ?_⟩)
    (fun op v k h => ⟨.inl rfl, ?_⟩) (fun ms k h => ⟨.inr (.inr rfl), fun _ => h⟩) fun hj n k h => ?_
  · rintro (b | _)
    · exact h b
    · trivial
  · rintro (b | _)
    · exact h
    · trivial
  · rw [eq_true hj] at h ⊢
    exact poll_failsAtOnce h

/-- Lines of a trace of which none but the last is a failure, and a failing last one ended the command; where `poll` holds,
reads of the identity register may fail before. -/
structure ShortCircuited (poll : Prop) (l : List TraceEntry) (t : State) : Prop where
  before : ∀ e ∈ l.dropLast, e.reply = .error → poll ∧ e.word = MicroOp.rdId.word
  last   : ∀ e, l.getLast? = some e → e.reply = .error → t.host.result = some ⟨.busError, .none, some e.word⟩

/-- A line before others: if it is a failure, it is one of the poll. -/
theorem ShortCircuited.cons {poll : Prop} {e : TraceEntry} {l : List TraceEntry} {t : State}
    (h : ShortCircuited poll l t) (hl : l ≠ []) (he : e.reply = .error → poll ∧ e.word = MicroOp.rdId.word) :
    ShortCircuited poll (e :: l) t := by
  obtain ⟨a, l, rfl⟩ := List.exists_cons_of_ne_nil hl
  refine ⟨fun e' he' => ?_, fun e' he' => h.last e' (by rwa [List.getLast?_cons_cons] at he')⟩
  rw [List.dropLast_cons_of_ne_nil hl] at he'
  rcases List.mem_cons.1 he' with rfl | he'
  · exact he
  · exact h.before e' he'

/-- The last line. -/
theorem ShortCircuited.single {poll : Prop} {e : TraceEntry} {t : State}
    (he : e.reply = .error → t.host.result = some ⟨.busError, .none, some e.word⟩) : ShortCircuited poll [e] t := by
  refine ⟨fun e' he' => by simp at he', fun e' he' => ?_⟩
  obtain rfl : e = e' := by simpa using he'
  exact he

/-- A line that is no failure, before others or not. -/
theorem ShortCircuited.cons_ok {poll : Prop} {e : TraceEntry} {l : List TraceEntry} {t : State}
    (h : ShortCircuited poll l t) (he : e.reply ≠ .error) : ShortCircuited poll (e :: l) t := by
  by_cases hl : l = []
  · subst hl
    exact .single fun h => absurd h he
  · exact h.cons hl fun h => absurd h he

/-- A WAIT cannot fail (R204). -/
theorem transact_onBus {op : MicroOp} {v : Byte} {w : World} (h : (transact op v w).1 = .error) : op.onBus = true := by
  cases op
  case wait ms => simp [transact] at h
  all_goals rfl

theorem run_done_trace (job : Job) (e : Ending) (rs : List Reply) (s : State) :
    (Prog.run job (.done e) rs s).trace = s.trace := (finishWith_frame _ e s).2.2.2.2.2.1

/-- By induction over the pseudocode: a failure that does not end it is one of the poll, and others follow it. -/
theorem run_shortCircuited {poll : Prop} {job : Job} {p : Prog} {rs : List Reply} {s : State} (h : p.FailsAtOnce poll) :
    ∃ l, (Prog.run job p rs s).trace = s.trace ++ l ∧ ShortCircuited poll l (Prog.run job p rs s) ∧
      (p.AtMicroOp → l ≠ []) := by
  induction p generalizing rs s with
  | done e => exact ⟨[], by rw [run_done_trace, List.append_nil], ⟨by simp, by simp⟩, False.elim⟩
  | write c next ih =>
    obtain ⟨l, ht, hl, -⟩ := ih (rs := rs) (s := s.writeCtl c) h
    exact ⟨l, by rw [Prog.run, ht, writeCtl_trace], hl, False.elim⟩
  | uop op v k ih =>
    obtain ⟨hfail, hk⟩ := h
    have hrun : Prog.run job (.uop op v k) rs s =
        Prog.run job (k (transact op v s.world).1) (rs ++ [(transact op v s.world).1])
          (perform op (s.issue job rs op.word v)) := rfl
    have hp : (perform op (s.issue job rs op.word v)).trace =
        s.trace ++ [⟨op.word, op.data v, (transact op v s.world).1⟩] := rfl
    obtain ⟨l, ht, hl, hne⟩ := ih (transact op v s.world).1 (hk _) (rs := rs ++ [(transact op v s.world).1])
      (s := perform op (s.issue job rs op.word v))
    rw [hrun]
    refine ⟨⟨op.word, op.data v, (transact op v s.world).1⟩ :: l, by rw [ht, hp, List.append_assoc]; rfl, ?_,
      fun _ => List.cons_ne_nil _ _⟩
    by_cases hr : (transact op v s.world).1 = .error
    swap
    · exact hl.cons_ok hr
    rcases hfail with hend | ⟨hpoll, rfl, hat⟩ | hbus
    · rw [hr, hend] at ht ⊢
      rw [run_done_trace] at ht
      obtain rfl : l = [] := List.append_right_eq_self.1 ht.symm
      exact .single fun _ => rfl
    · exact hl.cons (hne (by rw [hr]; exact hat)) fun _ => ⟨hpoll, rfl⟩
    · rw [transact_onBus hr] at hbus
      cases hbus

theorem runsJob_of_init {i : Instr} (h : runsJob i .init) : i = .init := by
  cases i <;> simp [runsJob] at h ⊢

/-- Settles O25: of the jobs only INIT's holds the poll. -/
theorem firstFailureEndsCommand : Obligations.FirstFailureEndsCommand := by
  intro i s t hp hi h
  obtain ⟨hb, -⟩ | ⟨-, ⟨e, rfl, -⟩ | ⟨j, rfl, hj⟩⟩ := exec_command_cases hp h
  · exact absurd hi hb
  · exact ⟨[], by simp [raise_eq], by simp, by simp⟩
  · obtain ⟨l, ht, hl, -⟩ := run_shortCircuited (job := j) (rs := []) (s := s) (job_failsAtOnce j)
    refine ⟨l, ht, fun e he hr => ?_, hl.last⟩
    obtain ⟨rfl, hw⟩ := hl.before e he hr
    exact ⟨runsJob_of_init hj, hw⟩

end Sys2Proof.Machine
end

section
/-! PROOFS. The sensor's side of the micro-operations: what its own conversions come to before a transaction, and each read
and write on it (`45_bus_port.md` R190 to R204). -/

namespace Sys2Proof.Machine

/-! ## What the sensor's own activity comes to -/

theorem perform_port (op : MicroOp) (s : State) :
    (perform op s).port = ⟨none, s.port.wdata, some (transact op s.port.wdata s.world).1⟩ := rfl

section
variable {w : World}

/-- A forced conversion of a known sensor goes on, before its bound only, or has ended with its sample (R199). -/
theorem evolve_forced {bound deadline : Nat} (hc : w.sen.conforming = true) (hk : w.sen.wild = false)
    (hw : w.sen.regs.wf = true) (h : w.sen.activity = .forced bound deadline) :
    (w.sen.clock < deadline ∧ w.evolve.sen = w.sen ∧ w.evolve.env.samples = w.env.samples) ∨
      (w.evolve.sen.activity = .idle ∧ w.evolve.sen.ctrlMeas = w.sen.ctrlMeas &&& 0xFC ∧
        w.env.sampleIs 0 w.evolve.sen.data) := by
  rw [evolve_advance hc hk]
  refine (advance_forced h).imp id ?_
  rintro ⟨x, hx, hs, hsam⟩
  have hxw : x.sen.regs.wf = true := by rw [hs]; exact hw
  rw [hx]
  refine ⟨rfl, ?_, (sampleIs_congr hsam).1 (endForced_data hxw)⟩
  rw [← hs]
  exact endForced_reg hxw (a := Config.regCtrlMeas) (by decide)

/-- A known sensor in Normal stays there, with its control byte, and with its data or the next sample (R200). -/
theorem evolve_normal {c : Bool} {f : Option Nat} (hc : w.sen.conforming = true) (hk : w.sen.wild = false)
    (hw : w.sen.regs.wf = true) (h : w.sen.activity = .normal c f) :
    (∃ c' f', w.evolve.sen.activity = .normal c' f' ∧ (f' = f ∨ f' = none)) ∧
      w.evolve.sen.ctrlMeas = w.sen.ctrlMeas ∧
      (w.evolve.sen.data = w.sen.data ∨ w.env.sampleIs 0 w.evolve.sen.data) := by
  rw [evolve_advance hc hk]
  obtain ⟨hact, hreg⟩ := advance_normal h
  exact ⟨hact, hreg _ (by decide), (advance_data hw).imp And.left And.left⟩

theorem evolve_humEff (hc : w.sen.conforming = true) (hk : w.sen.wild = false) : w.evolve.sen.humEff = w.sen.humEff := by
  rw [evolve_advance hc hk]
  exact (advance_times w).2.2.2

/-! ## One byte stored -/

theorem store_reg {a b : Nat} {v : Byte} (hw : w.sen.regs.wf = true) (ha : a ≠ Config.regId) :
    (w.store a v).sen.reg b = if b = a then v else w.sen.reg b := reg_write hw ha rfl rfl

theorem store_reg_other {a b : Nat} {v : Byte} (h : b ≠ a) : (w.store a v).sen.reg b = w.sen.reg b :=
  reg_congr rfl (Memory.read_write_other h)

/-- A write below the data registers leaves the data. -/
theorem data_of_write {sen sen' : Sensor} {a : Nat} {v : Byte} (ha : a < Config.regData)
    (hc : sen'.conforming = sen.conforming) (h : sen'.regs = sen.regs.write a v) : sen'.data = sen.data :=
  burst_congr fun j hj _ => reg_congr hc (by rw [h, Memory.read_write_other (by omega)])

theorem store_data {a : Nat} {v : Byte} (ha : a < Config.regData) : (w.store a v).sen.data = w.sen.data :=
  data_of_write ha rfl rfl

/-- The write of `config` is ignored or stored, and in Sleep it is stored (R201). -/
theorem storeConfig_cases (v : Byte) (w : World) :
    (w.sen.asleep = false ∧ (w.storeConfig v).sen = w.sen) ∨
      (w.storeConfig v).sen = (w.store Config.regConfig v).sen := by
  unfold World.storeConfig
  split
  case isTrue => exact .inr rfl
  case isFalse h =>
    split
    · exact .inr (by simp [World.store])
    · exact .inl ⟨by simpa using h, drawBool_sen w⟩

end

/-! ## Reads -/

/-- The READ of each of the seven read micro-operations, at its address and of its length (R77). -/
def MicroOp.readsAt (op : MicroOp) (a n : Nat) : Prop :=
  (op, a, n) ∈ [(MicroOp.rdId, 0xD0, 1), (.rdCalibTp, 0x88, 26), (.rdCalibH, 0xE1, 7), (.rdCtrlHum, 0xF2, 1),
    (.rdCtrlMeas, 0xF4, 1), (.rdConfig, 0xF5, 1), (.rdData, 0xF7, 8)]

theorem MicroOp.readsAt.cases {op : MicroOp} {a n : Nat} (h : op.readsAt a n) (v : Byte) (w : World) :
    op.data v = [] ∧ (op = .rdId → a = 0xD0 ∧ n = 1) ∧
      (transact op v w = w.readBurst a n ∨ transact op v w = w.readData ∧ a = Config.regData ∧ n = Config.lenData) := by
  simp only [MicroOp.readsAt, List.mem_cons, Prod.mk.injEq, List.not_mem_nil, or_false] at h
  obtain ⟨rfl, rfl, rfl⟩ | ⟨rfl, rfl, rfl⟩ | ⟨rfl, rfl, rfl⟩ | ⟨rfl, rfl, rfl⟩ | ⟨rfl, rfl, rfl⟩ | ⟨rfl, rfl, rfl⟩ |
    ⟨rfl, rfl, rfl⟩ := h
  case inr.inr.inr.inr.inr.inr => exact ⟨rfl, nofun, .inr ⟨rfl, rfl, rfl⟩⟩
  case inl => exact ⟨rfl, fun _ => ⟨rfl, rfl⟩, .inl rfl⟩
  all_goals exact ⟨rfl, nofun, .inl rfl⟩

/-- A read micro-operation of a sensor at rest that does not fail: its registers, and the sensor unchanged. -/
theorem transact_read_quiet {op : MicroOp} {a n : Nat} {v : Byte} {w : World} (h : op.readsAt a n)
    (hq : w.sen.quiet = true) (ho : w.env.okFor 1) :
    (transact op v w).1 = .ok (w.sen.burst a n) ∧ (transact op v w).2.sen = w.sen := by
  obtain ⟨w', e, hs, -⟩ := readBurst_quiet_ok (a := a) (n := n) hq ho
  obtain ⟨-, -, ht | ⟨ht, rfl, rfl⟩⟩ := h.cases v w
  · rw [ht, e]; exact ⟨rfl, hs⟩
  · rw [ht, readData_quiet hq, e]; exact ⟨rfl, hs⟩

/-- The identity register of a conforming sensor, read alone (R32, R193). -/
theorem burst_id {sen : Sensor} (h : sen.conforming = true) : sen.burst 0xD0 1 = [0x60] :=
  congrArg (· :: []) (reg_id h)

/-- A burst of registers that the sensor's own activity keeps. -/
theorem evolve_burst {w : World} {a n : Nat} (hc : w.sen.conforming = true) (hk : w.sen.wild = false)
    (hw : w.sen.regs.wf = true) (ha : a + n ≤ Config.regCtrlMeas ∨ Config.regCtrlMeas < a ∧ a + n ≤ Config.regData) :
    w.evolve.sen.burst a n = w.sen.burst a n := by
  refine burst_congr fun j h1 h2 => evolve_reg hc hk hw ?_ ?_
  · omega
  · left
    have : Config.regCtrlMeas < Config.regData := by decide
    omega

/-- RD_DATA of a conforming, settled sensor that does not fail: with a conversion running after the sensor has gone on,
it may end inside the burst, whose bytes are then mixed (R57, R203). -/
theorem readData_settled_ok {w : World} (hc : w.sen.conforming = true) (hs : w.sen.settled = true)
    (ho : w.env.okFor 1) :
    ∃ w2 : World, w2.sen = w.evolve.sen ∧ w2.env.samples = w.evolve.env.samples ∧
      (w2.sen.activity = .idle → w.readData = (.ok w2.sen.data, w2)) ∧
      (w2.sen.activity ≠ .idle →
        w.readData = (.ok (mixBytes w2.advance.draw.1 w2.sen.data w2.advance.sen.data), w2.advance.draw.2)) := by
  obtain ⟨⟨b, hb, -⟩, -⟩ := outcome_ok (k := 0) (n := Config.lenData) (okFor_of_same (evolve_same w) ho)
  have hsen := outcome_sen Config.lenData w.evolve
  have ha : (w.evolve.outcome Config.lenData).2.sen.answers = true := by
    rw [hsen, Sensor.answers, (evolve_keeps w).conforming.trans hc, evolve_settled hs, Bool.and_self]
  refine ⟨(w.evolve.outcome Config.lenData).2, hsen, outcome_samples _ _, fun hi => ?_, fun hi => ?_⟩
  · unfold World.readData
    dsimp only
    split <;> rename_i heq <;> rw [heq] at hb ha hi ⊢
    · cases hb
    · dsimp only at ha hi ⊢
      rw [if_pos ha, hi]
  · unfold World.readData
    dsimp only
    split <;> rename_i heq <;> rw [heq] at hb ha hi ⊢
    · cases hb
    · dsimp only at ha hi ⊢
      rw [if_pos ha]
      split
      · exact absurd ‹_› hi
      · rfl
      · rfl

theorem data_length (sen : Sensor) : sen.data.length = 8 := Sensor.burst_length _ _ _

/-- The burst of a known sensor with a forced conversion running (R199, R203): it goes on, or it has ended before the burst
or inside it. -/
theorem readData_forced {w : World} {bound deadline : Nat} (hc : w.sen.conforming = true) (hk : w.sen.wild = false)
    (hs : w.sen.settled = true) (hw : w.sen.regs.wf = true) (ho : w.env.okFor 1)
    (h : w.sen.activity = .forced bound deadline) :
    ∃ b, w.readData.1 = .ok b ∧
      ((w.sen.clock < deadline ∧ w.readData.2.sen = w.sen ∧ b = w.sen.data) ∨
        (w.readData.2.sen.activity = .idle ∧ w.env.sampleIs 0 w.readData.2.sen.data ∧
          ∀ j, j < 8 → b[j]? = w.sen.data[j]? ∨ b[j]? = w.readData.2.sen.data[j]?)) := by
  obtain ⟨w2, hs2, hsam2, hidle, hbusy⟩ := readData_settled_ok hc hs ho
  rcases evolve_forced hc hk hw h with ⟨hd, hsen, hsam⟩ | ⟨hact, -, hdata⟩
  · rw [hsen] at hs2
    rw [hsam] at hsam2
    have hact2 : w2.sen.activity = .forced bound deadline := by rw [hs2, h]
    rw [hbusy (by rw [hact2]; exact nofun)]
    refine ⟨_, rfl, ?_⟩
    dsimp only
    rw [draw_sen]
    rcases advance_forced hact2 with ⟨-, hsen3, -⟩ | ⟨x, hx, hxs, hxsam⟩
    · rw [hsen3, hs2, mixBytes_self]
      exact .inl ⟨hd, rfl, rfl⟩
    · rw [hx, hs2]
      refine .inr ⟨rfl, ?_, fun j _ => mixBytes_get (by rw [data_length, data_length]) j⟩
      exact (sampleIs_congr (hxsam.trans hsam2)).1 (endForced_data (by rw [hxs, hs2]; exact hw))
  · rw [← hs2] at hact hdata
    rw [hidle hact]
    exact ⟨_, rfl, .inr ⟨hact, hdata, fun j _ => .inr rfl⟩⟩

/-- The burst of a known sensor in Normal (R200, R203): a sample may come before it and another inside it. -/
theorem readData_normal {w : World} {c : Bool} {f : Option Nat} (hc : w.sen.conforming = true) (hk : w.sen.wild = false)
    (hs : w.sen.settled = true) (hw : w.sen.regs.wf = true) (ho : w.env.okFor 1) (h : w.sen.activity = .normal c f) :
    ∃ b, w.readData.1 = .ok b ∧
      ∃ (k : Nat) (d : List Byte), (k = 0 ∧ d = w.sen.data ∨ k = 1 ∧ w.env.sampleIs 0 d) ∧
        (w.readData.2.sen.data = d ∨ w.env.sampleIs k w.readData.2.sen.data) ∧
        ∀ j, j < 8 → b[j]? = d[j]? ∨ b[j]? = w.readData.2.sen.data[j]? := by
  obtain ⟨w2, hs2, hsam2, -, hbusy⟩ := readData_settled_ok hc hs ho
  rw [evolve_advance hc hk] at hs2 hsam2
  obtain ⟨⟨c', f', hact, -⟩, -⟩ := advance_normal h
  have hw2 : w2.sen.regs.wf = true := by rw [hs2]; exact (advance_keeps w).wf hw
  have hmix (j : Nat) : (mixBytes w2.advance.draw.1 w2.sen.data w2.advance.sen.data)[j]? = w2.sen.data[j]? ∨
      (mixBytes w2.advance.draw.1 w2.sen.data w2.advance.sen.data)[j]? = w2.advance.sen.data[j]? :=
    mixBytes_get (by rw [data_length, data_length]) j
  rw [hbusy (by rw [hs2, hact]; exact nofun)]
  refine ⟨_, rfl, ?_⟩
  dsimp only
  rw [draw_sen]
  have hinside := advance_data hw2
  rcases advance_data hw with ⟨hd, hsam⟩ | ⟨hd, hrest⟩
  · refine ⟨0, w2.sen.data, .inl ⟨rfl, by rw [hs2, hd]⟩, ?_, fun j _ => hmix j⟩
    exact hinside.imp And.left fun h => (sampleIs_congr (hsam2.trans hsam)).1 h.1
  · refine ⟨1, w2.sen.data, .inr ⟨rfl, by rw [hs2]; exact hd⟩, ?_, fun j _ => hmix j⟩
    exact hinside.imp And.left fun h => hrest 0 _ ((sampleIs_congr hsam2).1 h.1)

/-- Settles O47: at rest every READ; in any known state the registers that no conversion changes, then 0xF4, then the data,
by what the sensor is doing. -/
theorem sensorAnswersItsRegisters : Obligations.SensorAnswersItsRegisters := by
  refine ⟨fun op a n s hq ho hop => ?_, fun op a n s hc hk hs hw ho hop => ?_, fun s hc hk hs hw ho => ?_,
    fun s hc hk hs hw ho => ?_⟩
  · have hreads : op.readsAt a n := hop
    obtain ⟨ht, hsen⟩ := transact_read_quiet (v := s.port.wdata) hreads hq ho
    obtain ⟨hdata, hid, -⟩ := hreads.cases s.port.wdata s.world
    refine ⟨_, _, exec_microOp op s, by rw [perform_port, ht], Sensor.burst_length _ _ _,
      fun j hj => Sensor.burst_get _ _ _ _ hj, fun e => ?_, hsen, rfl, rfl, by rw [perform_trace, ht, hdata]⟩
    obtain ⟨rfl, rfl⟩ := hid e
    exact burst_id (quiet_iff.1 hq).1
  · have hreads : transact op s.port.wdata s.world = s.world.readBurst a n ∧
        (a + n ≤ Config.regCtrlMeas ∨ Config.regCtrlMeas < a ∧ a + n ≤ Config.regData) := by
      simp only [List.mem_cons, Prod.mk.injEq, List.not_mem_nil, or_false] at hop
      obtain ⟨rfl, rfl, rfl⟩ | ⟨rfl, rfl, rfl⟩ | ⟨rfl, rfl, rfl⟩ | ⟨rfl, rfl, rfl⟩ | ⟨rfl, rfl, rfl⟩ := hop <;>
        exact ⟨rfl, by decide⟩
    obtain ⟨ht, hrange⟩ := hreads
    obtain ⟨w', e, -, -⟩ := readBurst_settled_ok (k := 0) (a := a) (n := n) hc hs ho
    rw [evolve_burst hc hk hw hrange] at e
    exact ⟨_, _, exec_microOp op s, by rw [perform_port, ht, e], Sensor.burst_length _ _ _,
      fun j hj => Sensor.burst_get _ _ _ _ hj⟩
  · obtain ⟨w', e, hsen, -⟩ := readBurst_settled_ok (k := 0) (a := Config.regCtrlMeas) (n := 1) hc hs ho
    have ht : transact .rdCtrlMeas s.port.wdata s.world = (.ok [s.world.evolve.sen.ctrlMeas], w') := e
    refine ⟨_, _, exec_microOp .rdCtrlMeas s, by rw [perform_port, ht], fun c f h => (evolve_normal hc hk hw h).2.1,
      fun bound deadline h => ?_⟩
    rw [perform_world, ht, hsen]
    rcases evolve_forced hc hk hw h with ⟨hd, hsame, -⟩ | ⟨hact, hmeas, -⟩
    · rw [hsame]
      exact .inl ⟨hd, h, rfl⟩
    · exact .inr ⟨hact, hmeas⟩
  · obtain ⟨⟨b, hb, hl⟩, -⟩ := readData_ok (k := 0) ho
    have ht : (transact .rdData s.port.wdata s.world).1 = .ok b := hb
    refine ⟨_, b, exec_microOp .rdData s, by rw [perform_port, ht], hl, fun hi => ?_, fun bound deadline h => ?_,
      fun c f h => ?_⟩
    · have hq := quiet_iff.2 ⟨hc, hk, hs, hi⟩
      have hread : MicroOp.rdData.readsAt 0xF7 8 := by simp [MicroOp.readsAt]
      obtain ⟨hans, hsen⟩ := transact_read_quiet (v := s.port.wdata) hread hq ho
      exact ⟨hsen, Reply.ok.inj (ht.symm.trans hans)⟩
    · obtain ⟨b', hb', hcases⟩ := readData_forced hc hk hs hw ho h
      obtain rfl := Reply.ok.inj (hb.symm.trans hb')
      exact hcases
    · obtain ⟨b', hb', hcases⟩ := readData_normal hc hk hs hw ho h
      obtain rfl := Reply.ok.inj (hb.symm.trans hb')
      exact hcases

end Sys2Proof.Machine
end

section
/-! PROOFS. The four WRITEs on a conforming sensor (`45_bus_port.md` R194, R197, R198, R199, R201). -/

namespace Sys2Proof.Machine

section
variable {w : World}

/-! ## `ctrl_hum` and `config` -/

/-- A WRITE that is accepted: the sensor evolves, and the write has its effect. -/
theorem transact_write_settled {op : MicroOp} {v : Byte} {a : Nat} {effect : World → World}
    (hop : transact op v w = w.writeByte a effect) (hc : w.sen.conforming = true) (hs : w.sen.settled = true)
    (ho : w.env.okFor 1) :
    ∃ x : World, (transact op v w).1 = .ok [] ∧ (transact op v w).2 = effect x ∧ x.sen = w.evolve.sen := by
  obtain ⟨x, e, hx, -⟩ := writeByte_settled_ok (k := 0) (a := a) (effect := effect) hc hs ho
  exact ⟨x, by rw [hop, e], by rw [hop, e], hx⟩

/-! What a stored `ctrl_hum` leaves of the sensor. -/

theorem storeCtrlHum_stores {v : Byte} (hw : w.sen.regs.wf = true) : (w.storeCtrlHum v).sen.ctrlHum = v :=
  (store_reg hw (by decide)).trans (if_pos rfl)
theorem storeCtrlHum_reg {v : Byte} {a : Nat} (ha : a ≠ Config.regCtrlHum) :
    (w.storeCtrlHum v).sen.reg a = w.sen.reg a := store_reg_other ha
theorem storeCtrlHum_ctrlMeas {v : Byte} : (w.storeCtrlHum v).sen.ctrlMeas = w.sen.ctrlMeas :=
  storeCtrlHum_reg (by decide)
theorem storeCtrlHum_data {v : Byte} : (w.storeCtrlHum v).sen.data = w.sen.data := store_data (by decide)
theorem storeCtrlHum_humEff {v : Byte} : (w.storeCtrlHum v).sen.humEff = w.sen.humEff := rfl
theorem storeCtrlHum_activity {v : Byte} : (w.storeCtrlHum v).sen.activity = w.sen.activity := rfl
theorem storeCtrlHum_clock {v : Byte} : (w.storeCtrlHum v).sen.clock = w.sen.clock := rfl

end

/-- Settles O48: the byte is stored in the sensor as it is when the transaction comes. -/
theorem humidityControlStored : Obligations.HumidityControlStored := by
  refine ⟨fun s hq hw ho => ?_, fun s hc hs hw ho => ?_⟩
  · obtain ⟨hc, -, hs, -⟩ := quiet_iff.1 hq
    obtain ⟨x, hr, hx, hsen⟩ := transact_write_settled (op := .wrCtrlHum) (v := s.port.wdata) rfl hc hs ho
    rw [evolve_quiet hq] at hsen
    refine ⟨_, exec_microOp .wrCtrlHum s, by rw [perform_port, hr], ?_, fun a ha => ?_, ?_, ?_, rfl, rfl,
      by rw [perform_trace, hr]; rfl⟩ <;> rw [perform_world, hx]
    · exact storeCtrlHum_stores (by rw [hsen]; exact hw)
    · exact (storeCtrlHum_reg ha).trans (by rw [hsen])
    · rw [storeCtrlHum_humEff, hsen]
    · rw [storeCtrlHum_activity, hsen]
  · obtain ⟨x, hr, hx, hsen⟩ := transact_write_settled (op := .wrCtrlHum) (v := s.port.wdata) rfl hc hs ho
    refine ⟨_, exec_microOp .wrCtrlHum s, by rw [perform_port, hr], ?_, ?_, rfl, rfl, by rw [perform_trace, hr]; rfl,
      fun hk => ⟨?_, fun a h2 h4 ha => ?_, fun bound deadline h => ?_, fun c f h => ?_⟩⟩ <;> rw [perform_world, hx]
    · exact storeCtrlHum_stores (by rw [hsen]; exact (evolve_keeps _).wf hw)
    · rw [storeCtrlHum_clock, hsen, (evolve_times _).1]
    · rw [storeCtrlHum_humEff, hsen, evolve_humEff hc hk]
    · exact (storeCtrlHum_reg h2).trans (by rw [hsen]; exact evolve_reg hc hk hw h4 ha)
    · rw [storeCtrlHum_data, storeCtrlHum_activity, storeCtrlHum_ctrlMeas, hsen]
      refine (evolve_forced hc hk hw h).imp (fun ⟨hd, hsame, _⟩ => ?_) id
      rw [hsame]
      exact ⟨hd, h, rfl, rfl⟩
    · rw [storeCtrlHum_data, storeCtrlHum_activity, storeCtrlHum_ctrlMeas, hsen]
      obtain ⟨hact, hmeas, hd⟩ := evolve_normal hc hk hw h
      exact ⟨hmeas, hd, hact⟩

section
variable {w : World}

/-- Asleep: the mode bits read Sleep and no conversion runs. -/
theorem asleep_of_idle {sen : Sensor} (hm : modeBits sen.ctrlMeas = 0b00) (hi : sen.activity = .idle) :
    sen.asleep = true := by
  rw [Sensor.asleep, Sensor.busy, hi, hm]
  rfl

theorem storeConfig_asleep {v : Byte} (h : w.sen.asleep = true) : w.storeConfig v = w.store Config.regConfig v :=
  if_pos h

/-- Stored or ignored, `config` is the only register that its write reaches. -/
theorem storeConfig_reg {v : Byte} {a : Nat} (ha : a ≠ Config.regConfig) :
    (w.storeConfig v).sen.reg a = w.sen.reg a := by
  rcases storeConfig_cases v w with ⟨-, h⟩ | h <;> rw [h]
  exact store_reg_other ha

theorem storeConfig_config {v : Byte} (hw : w.sen.regs.wf = true) :
    (w.storeConfig v).sen.config = v ∨ (w.storeConfig v).sen.config = w.sen.config := by
  rcases storeConfig_cases v w with ⟨-, h⟩ | h <;> rw [h]
  · exact .inr rfl
  · exact .inl (store_reg hw (by decide))

theorem storeConfig_humEff {v : Byte} : (w.storeConfig v).sen.humEff = w.sen.humEff := by
  rcases storeConfig_cases v w with ⟨-, h⟩ | h <;> rw [h]
  rfl

end

/-- Settles O49: in Sleep the write's branch is the storing one; outside it is one of the two. -/
theorem configStoredInSleep : Obligations.ConfigStoredInSleep := by
  refine ⟨fun s hq hw hm ho => ?_, fun w v hc hw ha => ⟨storeConfig_config hw, fun a h => storeConfig_reg h⟩,
    fun s hc hk hs hw ha ho => ?_⟩
  · obtain ⟨hc, -, hs, hi⟩ := quiet_iff.1 hq
    obtain ⟨x, hr, hx, hsen⟩ := transact_write_settled (op := .wrConfig) (v := s.port.wdata) rfl hc hs ho
    rw [evolve_quiet hq] at hsen
    rw [storeConfig_asleep (by rw [hsen]; exact asleep_of_idle hm hi)] at hx
    have hxw : x.sen.regs.wf = true := by rw [hsen]; exact hw
    refine ⟨_, exec_microOp .wrConfig s, by rw [perform_port, hr], ?_, fun a ha => ?_, ?_, ?_, rfl, rfl,
      by rw [perform_trace, hr]; rfl⟩ <;> rw [perform_world, hx]
    · exact (store_reg hxw (by decide)).trans (if_pos rfl)
    · exact (store_reg_other (a := Config.regConfig) ha).trans (by rw [hsen])
    · rw [← hsen]; rfl
    · rw [← hsen]; rfl
  · obtain ⟨x, hr, hx, hsen⟩ := transact_write_settled (op := .wrConfig) (v := s.port.wdata) rfl hc hs ho
    have hxw : x.sen.regs.wf = true := by rw [hsen]; exact (evolve_keeps _).wf hw
    obtain ⟨-, hconfig, hmeas⟩ := advance_controls hw
    rw [← evolve_advance hc hk] at hconfig hmeas
    refine ⟨_, exec_microOp .wrConfig s, by rw [perform_port, hr], ?_, ?_, ?_, fun a h5 h4 ha => ?_, rfl, rfl,
      by rw [perform_trace, hr]; rfl⟩ <;> rw [perform_world, hx]
    · rw [← hconfig, ← hsen]
      exact storeConfig_config hxw
    · rw [← hmeas, ← hsen]
      exact congrArg (· &&& 0xFC) (storeConfig_reg (by decide))
    · rw [storeConfig_humEff, hsen, evolve_humEff hc hk]
    · exact (storeConfig_reg h5).trans (by rw [hsen]; exact evolve_reg hc hk hw h4 ha)

/-! ## The mode write -/

section
variable {w : World}

/-! The registers after a mode write, whatever it finds (R198). -/

theorem storeCtrlMeas_ctrlMeas {v : Byte} (hw : w.sen.regs.wf = true) : (w.storeCtrlMeas v).sen.ctrlMeas = v :=
  (reg_write hw (by decide) (storeCtrlMeas_keeps v w).conforming (storeCtrlMeas_stores v w).2).trans (if_pos rfl)

theorem storeCtrlMeas_reg {v : Byte} {a : Nat} (ha : a ≠ Config.regCtrlMeas) :
    (w.storeCtrlMeas v).sen.reg a = w.sen.reg a :=
  reg_congr (storeCtrlMeas_keeps v w).conforming
    (by rw [(storeCtrlMeas_stores v w).2, Memory.read_write_other ha])

theorem storeCtrlMeas_data {v : Byte} : (w.storeCtrlMeas v).sen.data = w.sen.data :=
  data_of_write (by decide) (storeCtrlMeas_keeps v w).conforming (storeCtrlMeas_stores v w).2

/-- On a sensor idle in Sleep what the byte asks for starts (R198). -/
theorem storeCtrlMeas_asleep {v : Byte} (h : w.sen.asleep = true) :
    (w.storeCtrlMeas v).sen.activity =
      startedActivity v (modeWriteTicks v (byteField w.sen.ctrlHum 0 3)) w.sen.clock := by
  unfold World.storeCtrlMeas
  rw [if_pos h]
  rfl

theorem busy_of_forced {sen : Sensor} {bound deadline : Nat} (h : sen.activity = .forced bound deadline) :
    sen.asleep = false := by
  rw [Sensor.asleep, Sensor.busy, h, Bool.not_true, Bool.and_false]

/-- During a forced conversion: it goes on, or what the byte asks for starts, with the larger bound (R199). -/
theorem storeCtrlMeas_forced {v : Byte} {bound deadline : Nat} (h : w.sen.activity = .forced bound deadline) :
    (w.storeCtrlMeas v).sen.activity =
        .forced (max bound (modeWriteTicks v (byteField w.sen.ctrlHum 0 3)))
          (w.sen.clock + max bound (modeWriteTicks v (byteField w.sen.ctrlHum 0 3))) ∨
      (w.storeCtrlMeas v).sen.activity =
        startedActivity v (max bound (modeWriteTicks v (byteField w.sen.ctrlHum 0 3))) w.sen.clock := by
  unfold World.storeCtrlMeas
  dsimp only
  rw [if_neg (by rw [busy_of_forced h]; exact nofun), h]
  dsimp only
  split
  · exact .inr rfl
  · exact .inl rfl

end

theorem startedActivity_of_sleep {v : Byte} {bound clock : Nat} (h : decodeMode (modeBits v) = .sleep) :
    startedActivity v bound clock = .idle := by rw [startedActivity, h]
theorem startedActivity_of_forced {v : Byte} {bound clock : Nat} (h : decodeMode (modeBits v) = .forced) :
    startedActivity v bound clock = .forced bound (clock + bound) := by rw [startedActivity, h]
theorem startedActivity_of_normal {v : Byte} {bound clock : Nat} (h : decodeMode (modeBits v) = .normal) :
    startedActivity v bound clock = .normal true (some (clock + bound)) := by rw [startedActivity, h]

/-- Settles O50: a sensor at rest with mode bits 0b00 is idle in Sleep. -/
theorem modeWriteOnIdleSensor : Obligations.ModeWriteOnIdleSensor := by
  intro s hq hw hm ho
  obtain ⟨hc, -, hs, hi⟩ := quiet_iff.1 hq
  obtain ⟨x, hr, hx, hsen⟩ := transact_write_settled (op := .wrCtrlMeas) (v := s.port.wdata) rfl hc hs ho
  rw [evolve_quiet hq] at hsen
  have hact := storeCtrlMeas_asleep (w := x) (v := s.port.wdata) (by rw [hsen]; exact asleep_of_idle hm hi)
  rw [hsen] at hact
  refine ⟨_, exec_microOp .wrCtrlMeas s, by rw [perform_port, hr], ?_, fun a ha => ?_, ?_, rfl, rfl,
    by rw [perform_trace, hr]; rfl, fun hb => ?_, fun hb => ?_, fun hb => ?_⟩ <;> rw [perform_world, hx]
  · exact storeCtrlMeas_ctrlMeas (by rw [hsen]; exact hw)
  · exact (storeCtrlMeas_reg ha).trans (by rw [hsen])
  · rw [(storeCtrlMeas_stores _ _).1, hsen]
  · exact hact.trans (startedActivity_of_sleep (by rw [hb]; rfl))
  · exact hact.trans (startedActivity_of_forced (by rcases hb with hb | hb <;> rw [hb] <;> rfl))
  · exact hact.trans (startedActivity_of_normal (by rw [hb]; rfl))

/-- Settles O51: the effect on a busy sensor, and the instruction, before which the conversion may have ended. -/
theorem modeWriteDuringForcedConversion : Obligations.ModeWriteDuringForcedConversion := by
  refine ⟨fun w v bound0 deadline hc hw h =>
    ⟨storeCtrlMeas_ctrlMeas hw, fun a ha => storeCtrlMeas_reg ha, storeCtrlMeas_forced h⟩,
    fun s bound0 deadline hc hk hs hw h ho => ?_⟩
  obtain ⟨x, hr, hx, hsen⟩ := transact_write_settled (op := .wrCtrlMeas) (v := s.port.wdata) rfl hc hs ho
  have hhum : x.sen.ctrlHum = s.world.sen.ctrlHum := by rw [hsen]; exact evolve_reg hc hk hw (by decide) (by decide)
  have hclock : x.sen.clock = s.world.sen.clock := by rw [hsen, (evolve_times _).1]
  refine ⟨_, exec_microOp .wrCtrlMeas s, by rw [perform_port, hr], ?_, ?_, fun a h4 ha => ?_, rfl, rfl,
    by rw [perform_trace, hr]; rfl, ?_⟩ <;> rw [perform_world, hx]
  · exact storeCtrlMeas_ctrlMeas (by rw [hsen]; exact (evolve_keeps _).wf hw)
  · rw [(storeCtrlMeas_stores _ _).1, hhum]
  · exact (storeCtrlMeas_reg h4).trans (by rw [hsen]; exact evolve_reg hc hk hw h4 ha)
  · rcases evolve_forced hc hk hw h with ⟨hd, hsame, -⟩ | ⟨hidle, hmeas, -⟩
    · rw [hsame] at hsen
      have hact := storeCtrlMeas_forced (w := x) (v := s.port.wdata) (by rw [hsen]; exact h)
      rw [hhum, hclock] at hact
      exact .inr ⟨hd, by rw [storeCtrlMeas_data, hsen], hact⟩
    · have hasleep : x.sen.asleep = true := by
        rw [hsen]
        exact asleep_of_idle (by rw [hmeas]; exact modeBits_cleared _) hidle
      have hact := storeCtrlMeas_asleep (v := s.port.wdata) hasleep
      rw [hhum, hclock] at hact
      exact .inl hact

/-! ## The reset write -/

/-- An accepted reset write, on every conforming sensor. -/
theorem transact_wrReset_ok {v : Byte} {w : World} (hc : w.sen.conforming = true) (ho : w.env.okFor 1) :
    ∃ x : World, (transact .wrReset v w).1 = .ok [] ∧ (transact .wrReset v w).2 = x.softReset v ∧
      x.sen = w.evolve.sen := by
  obtain ⟨x, e, hx, -⟩ := writeByte_accepted_ok (k := 0) (a := Config.regReset) (effect := World.softReset v) hc
    (.inl rfl) ho
  have ht : transact .wrReset v w = (.ok [], x.softReset v) := e
  exact ⟨x, by rw [ht], by rw [ht], hx⟩

/-- Settles O52: the reset command sets every changeable register and the hidden state; another byte does nothing. -/
theorem softResetOfSensor : Obligations.SoftResetOfSensor := by
  refine ⟨fun s hc hw ho hv => ?_, fun s hc ho hv => ?_⟩
  · obtain ⟨x, hr, hx, hsen⟩ := transact_wrReset_ok (v := s.port.wdata) hc ho
    have hkeep := transact_keeps .wrReset s.port.wdata s.world
    rw [hv] at hr hx hkeep
    rw [hx] at hkeep
    obtain ⟨hhum, hmeas, hconfig, hdata⟩ := softReset_regs (w := x) (by rw [hsen]; exact (evolve_keeps _).wf hw)
    have hclock : x.sen.clock = s.world.sen.clock := (congrArg Sensor.clock hsen).trans (evolve_times _).1
    refine ⟨_, exec_microOp .wrReset s, by rw [perform_port, hv, hr], rfl, rfl, by rw [perform_trace, hv, hr]; rfl, ?_⟩
    rw [perform_world, hv, hx]
    exact ⟨hhum, hmeas, hconfig, hdata, rfl, rfl, rfl, congrArg (· + 80) hclock, fun a ha => hkeep.reg hc ha⟩
  · obtain ⟨x, hr, hx, hsen⟩ := transact_wrReset_ok (v := s.port.wdata) hc ho
    have hnone : x.softReset s.port.wdata = x := if_neg hv
    rw [hnone] at hx
    have ht : (perform .wrReset s).world.sen = s.world.evolve.sen := by rw [perform_world, hx, hsen]
    exact ⟨_, exec_microOp .wrReset s, by rw [perform_port, hr], rfl, rfl, by rw [perform_trace, hr]; rfl, ht,
      fun hq => ht.trans (by rw [evolve_quiet hq])⟩

end Sys2Proof.Machine
end

section
/-! PROOFS. Failures, draws and time on the sensor's side: failed WRITEs, a sensor of which nothing is assumed, waits, and
Normal mode (`45_bus_port.md` R190, R198 to R205, `93_implementation_defined.md` U1). -/

namespace Sys2Proof.Machine

/-! ## Failed writes -/

theorem outcome_draws (n : Nat) (w : World) : (w.outcome n).2.env.draws = w.env.draws := by
  unfold World.outcome; split <;> rfl

/-- A transaction that the oracle fails, by its script or by its free value (R190). -/
theorem outcome_error {w : World} {n : Nat} (h : w.env.okAt 0 = false) : (w.outcome n).1 = .error := by
  unfold World.outcome
  unfold Env.okAt at h
  cases hr : w.env.replies with
  | nil =>
    rw [hr] at h
    have hf : Config.busFails w.env.nReplies = true := by simpa using h
    exact if_pos hf
  | cons r rs =>
    rw [hr] at h
    obtain rfl : r = .error := by simpa using h
    rfl

theorem okAt_of_same {w w' : World} (h : SameReplies w w') (k : Nat) : w'.env.okAt k = w.env.okAt k := by
  simp only [Env.okAt, h.1, h.2]

/-- A failed write to a conforming sensor: by the next draw it has had its effect or not (R205). -/
theorem writeByte_failed {w : World} {a : Nat} {effect : World → World} (hc : w.sen.conforming = true)
    (h : w.env.okAt 0 = false) :
    ∃ x : World, x.sen = w.evolve.sen ∧ x.env.draws = w.evolve.env.draws ∧
      w.writeByte a effect = (.error, if x.drawBool.1 then effect x.drawBool.2 else x.drawBool.2) := by
  refine ⟨(w.evolve.outcome 0).2, outcome_sen 0 _, outcome_draws 0 _, ?_⟩
  have hcw : (w.evolve.outcome 0).2.sen.conforming = true := by
    rw [outcome_sen, (evolve_keeps w).conforming, hc]
  have herr : (w.evolve.outcome 0).1 = .error := outcome_error (by rw [okAt_of_same (evolve_same w), h])
  unfold World.writeByte
  dsimp only
  rw [if_pos hcw, herr]
  rfl

theorem drawBool_script {w : World} {d : Nat} {ds : List Nat} (h : w.env.draws = d :: ds) :
    w.drawBool.1 = decide (d % 2 = 1) ∧ w.drawBool.2.env.draws = ds := by
  simp [World.drawBool, World.draw, h]

/-- The four WRITEs and their effects. -/
theorem transact_write {op : MicroOp} {effect : World → World} {v : Byte}
    (h : (op, effect) ∈ [(MicroOp.wrReset, World.softReset v), (.wrCtrlHum, World.storeCtrlHum v),
      (.wrCtrlMeas, World.storeCtrlMeas v), (.wrConfig, World.storeConfig v)]) :
    op.data v = [v] ∧ ∃ a, ∀ w, transact op v w = w.writeByte a effect := by
  simp only [List.mem_cons, Prod.mk.injEq, List.not_mem_nil, or_false] at h
  obtain ⟨rfl, rfl⟩ | ⟨rfl, rfl⟩ | ⟨rfl, rfl⟩ | ⟨rfl, rfl⟩ := h <;> exact ⟨rfl, _, fun _ => rfl⟩

/-- The first clause of O53. -/
theorem failedWrite_mayHaveTakenEffect {op : MicroOp} {effect : World → World} {s : State}
    (hc : s.world.sen.conforming = true) (h : s.world.env.okAt 0 = false)
    (hop : (op, effect) ∈ [(MicroOp.wrReset, World.softReset s.port.wdata), (.wrCtrlHum, World.storeCtrlHum s.port.wdata),
      (.wrCtrlMeas, World.storeCtrlMeas s.port.wdata), (.wrConfig, World.storeConfig s.port.wdata)]) :
    ∃ t, exec op.instr s = .next t ∧ t.port = ⟨none, s.port.wdata, some .error⟩ ∧ t.ctl = s.ctl ∧ t.host = s.host ∧
      t.trace = s.trace ++ [⟨op.word, [s.port.wdata], .error⟩] ∧
      (let w0 := s.world.evolve
       (s.world.sen.quiet = true → w0 = s.world) ∧
       (t.world.sen = w0.sen ∨ ∃ w, w.sen = w0.sen ∧ t.world.sen = (effect w).sen) ∧
       (∀ ds, w0.env.draws = 0 :: ds → t.world.sen = w0.sen) ∧
       (∀ ds, w0.env.draws = 1 :: ds → ∃ w, w.sen = w0.sen ∧ w.env.draws = ds ∧ t.world.sen = (effect w).sen)) := by
  obtain ⟨hdata, a, ht⟩ := transact_write hop
  obtain ⟨x, hsen, hdraws, e⟩ := writeByte_failed (a := a) (effect := effect) hc h
  rw [← ht] at e
  refine ⟨_, exec_microOp op s, by rw [perform_port, e], rfl, rfl, by rw [perform_trace, e, hdata], evolve_quiet, ?_,
    fun ds hds => ?_, fun ds hds => ?_⟩ <;> rw [perform_world, e]
  · dsimp only
    split
    · exact .inr ⟨_, (drawBool_sen x).trans hsen, rfl⟩
    · exact .inl ((drawBool_sen x).trans hsen)
  · obtain ⟨hb, -⟩ := drawBool_script (hdraws.trans hds)
    dsimp only
    rw [if_neg (by rw [hb]; decide), drawBool_sen, hsen]
  · obtain ⟨hb, hrest⟩ := drawBool_script (hdraws.trans hds)
    dsimp only
    rw [if_pos (by rw [hb]; decide)]
    exact ⟨_, (drawBool_sen x).trans hsen, hrest, rfl⟩

/-! ## What a failed command leaves open -/

theorem drawRegister_reg_other {w : World} {a b : Nat} (h : b ≠ a) : (w.drawRegister a).sen.reg b = w.sen.reg b := by
  refine (store_reg_other h).trans ?_
  rw [draw_sen]

theorem drawRegister_data {w : World} {a : Nat} (h : a < Config.regData) :
    (w.drawRegister a).sen.data = w.sen.data := by
  refine (store_data h).trans ?_
  rw [draw_sen]

theorem drawRegister_hidden {w : World} {a : Nat} :
    (w.drawRegister a).sen.humEff = w.sen.humEff ∧ (w.drawRegister a).sen.activity = w.sen.activity := by
  simp [World.drawRegister, World.store]

/-- A property of the sensor that the unsettling of each of these micro-operations keeps. -/
theorem unsettled_keeps_of {α : Type} {f : World → α} {ops : List MicroOp} (h : ∀ op ∈ ops, ∀ w, f (op.unsettle w) = f w)
    (w : World) : f (w.unsettled ops) = f w := by
  induction ops generalizing w with
  | nil => rfl
  | cons op ops ih =>
    rw [unsettled_cons, ih (fun o ho => h o (.tail _ ho))]
    exact h op (.head _) w

/-- The second clause of O53: a command's trace, and how it leaves the world. -/
theorem command_leaves_world {i : Instr} {s t : State} (hp : i.port = .command) (hi : s.ctl.seq = .idle)
    (h : exec i s = .next t) :
    ∃ (l : List Exchange) (w : World) (r : Result), follow l s.world = some w ∧
      t.trace = s.trace ++ l.map Exchange.entry ∧ t.host.result = some r ∧
      (r.status ≠ .ok → t.world = w.unsettled (l.map Exchange.op)) ∧ (r.status = .ok → t.world.sen = w.sen) := by
  obtain ⟨hb, -⟩ | ⟨-, ⟨e, rfl, -⟩ | ⟨j, rfl, -⟩⟩ := exec_command_cases hp h
  · exact absurd hi hb
  · exact ⟨[], s.world, _, rfl, by simp [raise_eq], finish_result _ _, fun _ => rfl, fun _ => rfl⟩
  · obtain ⟨l, e, s', hrun, hproper, hfollow, htrace, hissued⟩ := run_exchanges (job_issues j) [] s
    rw [List.nil_append, hissued] at hrun
    rw [hrun]
    have htr := (finishWith_frame (l.map Exchange.op) e s').2.2.2.2.2.1
    rw [htrace] at htr
    cases e with
    | ok p => exact ⟨l, s'.world, _, hfollow, htr, rfl, fun hne => absurd rfl hne, fun _ => rfl⟩
    | error st f => exact ⟨l, s'.world, _, hfollow, htr, rfl, fun _ => rfl, fun hok => absurd hok hproper⟩
    | compensate c d =>
      exact ⟨l, s'.world, _, hfollow, htr, rfl, fun hne => absurd rfl hne, fun _ => compensate_sen _ _ _⟩

/-- The third clause of O53: a control register that no WRITE of these named, and without a mode write the data and the
hidden state, are as before; and the read-only registers always are. -/
theorem unsettled_frame {ops : List MicroOp} {w : World} (hc : w.sen.conforming = true) :
    ((∀ op ∈ ops, op.data 0 = []) → w.unsettled ops = w) ∧
    (MicroOp.wrReset ∉ ops →
      (MicroOp.wrCtrlHum ∉ ops → (w.unsettled ops).sen.ctrlHum = w.sen.ctrlHum) ∧
      (MicroOp.wrConfig ∉ ops → (w.unsettled ops).sen.config = w.sen.config) ∧
      (MicroOp.wrCtrlMeas ∉ ops → (w.unsettled ops).sen.ctrlMeas = w.sen.ctrlMeas ∧
        (w.unsettled ops).sen.data = w.sen.data ∧ (w.unsettled ops).sen.humEff = w.sen.humEff ∧
        (w.unsettled ops).sen.activity = w.sen.activity)) ∧
    (∀ a, changeable a = false → (w.unsettled ops).sen.reg a = w.sen.reg a) := by
  refine ⟨fun h => unsettled_reads h w, fun hr => ⟨fun hn => ?_, fun hn => ?_, fun hn => ?_⟩,
    fun a ha => (unsettled_keeps ops w).reg hc ha⟩
  · refine unsettled_keeps_of (f := fun x => x.sen.ctrlHum) (fun op hop x => ?_) w
    cases op
    case wrReset => exact absurd hop hr
    case wrCtrlHum => exact absurd hop hn
    case wrCtrlMeas => exact (drawConversion_reg (by decide)).trans (drawRegister_reg_other (by decide))
    case wrConfig => exact drawRegister_reg_other (by decide)
    all_goals rfl
  · refine unsettled_keeps_of (f := fun x => x.sen.config) (fun op hop x => ?_) w
    cases op
    case wrReset => exact absurd hop hr
    case wrConfig => exact absurd hop hn
    case wrCtrlMeas => exact (drawConversion_reg (by decide)).trans (drawRegister_reg_other (by decide))
    case wrCtrlHum => exact drawRegister_reg_other (by decide)
    all_goals rfl
  · have hone {op : MicroOp} (hop : op ∈ ops) (x : World) :
        ((op.unsettle x).sen.ctrlMeas, (op.unsettle x).sen.data, (op.unsettle x).sen.humEff,
          (op.unsettle x).sen.activity) = (x.sen.ctrlMeas, x.sen.data, x.sen.humEff, x.sen.activity) := by
      have hreg {a : Nat} (ha : a ≠ Config.regCtrlMeas) (hd : a < Config.regData) :
          ((x.drawRegister a).sen.ctrlMeas, (x.drawRegister a).sen.data, (x.drawRegister a).sen.humEff,
            (x.drawRegister a).sen.activity) = (x.sen.ctrlMeas, x.sen.data, x.sen.humEff, x.sen.activity) := by
        obtain ⟨hhum, hact⟩ := drawRegister_hidden (w := x) (a := a)
        rw [drawRegister_data hd, hhum, hact, Sensor.ctrlMeas, drawRegister_reg_other ha.symm]
        rfl
      cases op
      case wrReset => exact absurd hop hr
      case wrCtrlMeas => exact absurd hop hn
      case wrCtrlHum => exact hreg (by decide) (by decide)
      case wrConfig => exact hreg (by decide) (by decide)
      all_goals rfl
    have h := unsettled_keeps_of (f := fun x => (x.sen.ctrlMeas, x.sen.data, x.sen.humEff, x.sen.activity))
      (fun op hop x => hone hop x) w
    simpa using h

theorem draw_script {w : World} {d : Nat} {ds : List Nat} (h : w.env.draws = d :: ds) :
    w.draw.1 = d ∧ w.draw.2.env.draws = ds := by
  simp [World.draw, h]

theorem drawRegister_script {w : World} {a : Nat} {v : Byte} {ds : List Nat} (hw : w.sen.regs.wf = true)
    (ha : a ≠ Config.regId) (h : w.env.draws = v.toNat :: ds) : (w.drawRegister a).sen.reg a = v := by
  rw [drawRegister_reg hw ha, if_pos rfl, (draw_script h).1, BitVec.ofNat_toNat, BitVec.setWidth_eq]

/-- Settles O53: the four clauses. -/
theorem failedWriteMayHaveTakenEffect : Obligations.FailedWriteMayHaveTakenEffect :=
  ⟨fun _ _ _ hc h hop => failedWrite_mayHaveTakenEffect hc h hop, fun _ _ _ hp hi h => command_leaves_world hp hi h,
    fun _ _ hc => unsettled_frame hc, fun _ _ _ _ hw hd => ⟨drawRegister_script hw (by decide) hd,
      drawRegister_script hw (by decide) hd,
      (drawConversion_reg (by decide)).trans (drawRegister_script hw (by decide) hd)⟩⟩

/-! ## A sensor of which nothing is assumed -/

theorem outcome_script {w : World} {n : Nat} {r : Reply} {rs : List Reply} (h : w.env.replies = r :: rs) :
    (w.outcome n).1 = fitReply n r := by
  simp [World.outcome, h]

section
variable {w : World} {r : Reply} {rs : List Reply}

theorem evolve_outcome_script (n : Nat) (h : w.env.replies = r :: rs) : (w.evolve.outcome n).1 = fitReply n r :=
  outcome_script ((evolve_same w).1.trans h)

theorem not_answers (n : Nat) (hc : w.sen.conforming = false) : (w.evolve.outcome n).2.sen.answers = false := by
  rw [outcome_sen, Sensor.answers, (evolve_keeps w).conforming, hc, Bool.false_and]

/-- A READ is answered with what the oracle gives (R190, R40). -/
theorem readBurst_nonconforming (a n : Nat) (hc : w.sen.conforming = false) (h : w.env.replies = r :: rs) :
    (w.readBurst a n).1 = fitReply n r := by
  have hout := evolve_outcome_script n h
  have ha := not_answers n hc
  unfold World.readBurst
  dsimp only
  split <;> rename_i heq <;> rw [heq] at hout ha
  · exact hout
  · rw [← hout, if_neg (by rw [ha]; exact nofun)]

theorem readData_nonconforming (hc : w.sen.conforming = false) (h : w.env.replies = r :: rs) :
    w.readData.1 = fitReply 8 r := by
  have hout : _ = fitReply 8 r := evolve_outcome_script Config.lenData h
  have ha := not_answers Config.lenData hc
  unfold World.readData
  dsimp only
  split <;> rename_i heq <;> rw [heq] at hout ha
  · exact hout
  · rw [if_neg (by rw [ha]; exact nofun)]
    exact hout

end

/-- Settles O54. -/
theorem oracleAnswersAnything : Obligations.OracleAnswersAnything := by
  intro s r rs hc h
  have hread {op : MicroOp} {n : Nat} (ht : (transact op s.port.wdata s.world).1 = fitReply n r) :
      ∃ t, exec op.instr s = .next t ∧ t.port.reply = some (fitReply n r) :=
    ⟨_, exec_microOp op s, by rw [perform_port, ht]⟩
  have hburst (a n : Nat) := readBurst_nonconforming a n hc h
  exact ⟨hread (op := .rdId) (hburst _ _), hread (op := .rdCalibTp) (hburst _ _), hread (op := .rdCalibH) (hburst _ _),
    hread (op := .rdCtrlHum) (hburst _ _), hread (op := .rdCtrlMeas) (hburst _ _), hread (op := .rdConfig) (hburst _ _),
    hread (op := .rdData) (readData_nonconforming hc h)⟩

/-! ## Waits -/

/-- The world when a wait's time has passed and before the sensor has gone on. -/
def World.later (ms : Nat) (w : World) : World :=
  { w.delay.2 with sen := { w.sen with clock := w.sen.clock + (ms * 40 + w.delay.1) } }

theorem wait_eq (ms : Nat) (w : World) : w.wait ms = (w.later ms).evolve := by
  unfold World.wait World.later
  dsimp only
  rw [delay_sen]
  rfl

theorem later_samples (ms : Nat) (w : World) : (w.later ms).env.samples = w.env.samples := delay_samples w

theorem later_clock (ms : Nat) (w : World) : w.sen.clock + 40 * ms ≤ (w.later ms).sen.clock := by
  show w.sen.clock + 40 * ms ≤ w.sen.clock + (ms * 40 + w.delay.1)
  omega

/-- Settles O55. -/
theorem waitAdvancesTime : Obligations.WaitAdvancesTime := by
  intro ms s
  obtain ⟨hreplies, hn⟩ := wait_same ms s.world
  refine ⟨_, exec_microOp (.wait ms) s, rfl, rfl, rfl, ?_, rfl, hreplies, hn, fun hq a => ?_⟩
  · show _ ≤ (s.world.wait ms).sen.clock
    rw [wait_eq, (evolve_times _).1]
    exact later_clock ms s.world
  · show (s.world.wait ms).sen.reg a = _
    rw [(wait_quiet ms hq).1]
    exact reg_congr rfl rfl

/-- Once its bound has elapsed a forced conversion has ended (R199). -/
theorem advance_forced_due {w : World} {bound deadline : Nat} (h : w.sen.activity = .forced bound deadline)
    (hd : deadline ≤ w.sen.clock) : w.advance = w.endForced := by
  rw [World.advance, h]
  exact if_pos hd

/-- Settles O56: after the wait the bound has elapsed. -/
theorem forcedConversionEndsInTime : Obligations.ForcedConversionEndsInTime := by
  intro s bound deadline ms hc hk hw h hd
  have hend : (s.world.wait ms) = (s.world.later ms).endForced := by
    rw [wait_eq, evolve_advance (w := s.world.later ms) hc hk]
    exact advance_forced_due h (hd.trans (later_clock ms s.world))
  have hreg (a : Nat) (ha : a < Config.regData ∨ Config.regData + 8 ≤ a) :=
    endForced_reg (w := s.world.later ms) hw ha
  refine ⟨_, exec_microOp (.wait ms) s, ?_, ?_, ?_, fun a h4 ha => ?_⟩ <;>
    rw [perform_world, show transact (.wait ms) s.port.wdata s.world = (.ok [], s.world.wait ms) from rfl, hend]
  · rfl
  · exact (hreg Config.regCtrlMeas (by decide)).trans (if_pos rfl)
  · exact (sampleIs_congr (later_samples ms s.world)).1 (endForced_data hw)
  · exact ((hreg a ha).trans (if_neg h4)).trans (reg_congr rfl rfl)

end Sys2Proof.Machine
end

section
/-! PROOFS. Normal mode (`45_bus_port.md` R200), and the open contents after a mode write there (R198). -/

namespace Sys2Proof.Machine

/-! ## What a transaction can make of the sensor -/

/-- A READ of the data leaves the sensor as it has gone on before it, or as it has gone on inside it too. -/
theorem readData_sen (w : World) :
    w.readData.2.sen = w.evolve.sen ∨ ∃ x : World, x.sen = w.evolve.sen ∧ w.readData.2.sen = x.advance.sen := by
  have hsen := outcome_sen Config.lenData w.evolve
  unfold World.readData
  dsimp only
  split <;> rename_i heq <;> rw [heq] at hsen
  · exact .inl hsen
  · split
    · split
      · exact .inl hsen
      · exact .inr ⟨_, hsen, draw_sen _⟩
      · exact .inr ⟨_, hsen, draw_sen _⟩
    · exact .inl hsen

/-- A WRITE leaves the sensor as it has gone on before it, or as the register effect then makes it. -/
theorem writeByte_sen (a : Nat) (effect : World → World) (w : World) :
    (w.writeByte a effect).2.sen = w.evolve.sen ∨
      ∃ x : World, x.sen = w.evolve.sen ∧ (w.writeByte a effect).2.sen = (effect x).sen := by
  have hsen := outcome_sen 0 w.evolve
  have htook := (tookEffect_sen a (w.evolve.outcome 0).1 (w.evolve.outcome 0).2).trans hsen
  unfold World.writeByte
  dsimp only
  split
  · split
    · exact .inr ⟨_, htook, rfl⟩
    · exact .inl htook
  · exact .inl hsen

/-- A property of sensors that their own activity, the passing of time and the register effects of `op` keep is kept by
the transaction of `op`. -/
theorem transact_keeps_of {P : Sensor → Prop} {op : MicroOp} {v : Byte} (hevolve : ∀ w : World, P w.sen → P w.evolve.sen)
    (hadvance : ∀ w : World, P w.sen → P w.advance.sen) (htime : ∀ sen n, P sen → P { sen with clock := n })
    (hreset : op = .wrReset → ∀ w : World, P w.sen → P (w.softReset v).sen)
    (hhum : ∀ w : World, P w.sen → P (w.storeCtrlHum v).sen)
    (hmeas : op = .wrCtrlMeas → ∀ w : World, P w.sen → P (w.storeCtrlMeas v).sen)
    (hconfig : ∀ w : World, P w.sen → P (w.storeConfig v).sen) {w : World} (h : P w.sen) :
    P (transact op v w).2.sen := by
  have hread (a n : Nat) : P (w.readBurst a n).2.sen := by
    rw [readBurst_world, outcome_sen]
    exact hevolve w h
  have hwrite {a : Nat} {effect : World → World} (he : ∀ x : World, P x.sen → P (effect x).sen) :
      P (w.writeByte a effect).2.sen := by
    rcases writeByte_sen a effect w with e | ⟨x, hx, e⟩ <;> rw [e]
    · exact hevolve w h
    · exact he x (by rw [hx]; exact hevolve w h)
  cases op
  case wrReset => exact hwrite (hreset rfl)
  case wrCtrlHum => exact hwrite hhum
  case wrCtrlMeas => exact hwrite (hmeas rfl)
  case wrConfig => exact hwrite hconfig
  case rdData =>
    show P w.readData.2.sen
    rcases readData_sen w with e | ⟨x, hx, e⟩ <;> rw [e]
    · exact hevolve w h
    · exact hadvance x (by rw [hx]; exact hevolve w h)
  case wait ms =>
    show P (w.wait ms).sen
    rw [wait_eq]
    exact hevolve _ (htime _ _ h)
  all_goals exact hread _ _

/-! ## A known sensor in Normal -/

/-- In Normal with known contents, with this control byte, and with this bound on the first sample or after it. -/
structure Sensor.InNormal (firstBy : Option Nat) (m : Byte) (sen : Sensor) : Prop where
  conforming : sen.conforming = true
  known      : sen.wild = false
  wf         : sen.regs.wf = true
  activity   : ∃ c f, sen.activity = .normal c f ∧ (f = firstBy ∨ f = none)
  ctrlMeas   : sen.ctrlMeas = m

section
variable {firstBy : Option Nat} {m v : Byte} {w : World}

theorem advance_inNormal (h : w.sen.InNormal firstBy m) : w.advance.sen.InNormal firstBy m := by
  obtain ⟨c, f, hact, hf⟩ := h.activity
  obtain ⟨⟨c', f', hact', hf'⟩, hreg⟩ := advance_normal hact
  refine ⟨(advance_keeps w).conforming.trans h.conforming, (advance_times w).2.2.1.trans h.known, (advance_keeps w).wf h.wf,
    ⟨c', f', hact', ?_⟩, (hreg _ (by decide)).trans h.ctrlMeas⟩
  rcases hf' with rfl | rfl
  · exact hf
  · exact .inr rfl

theorem evolve_inNormal (h : w.sen.InNormal firstBy m) : w.evolve.sen.InNormal firstBy m := by
  rw [evolve_advance h.conforming h.known]
  exact advance_inNormal h

/-- A register stored that is not the control byte of the mode. -/
theorem store_inNormal {a : Nat} (ha : a ≠ Config.regCtrlMeas) (hb : a < 256) (h : w.sen.InNormal firstBy m) :
    (w.store a v).sen.InNormal firstBy m :=
  ⟨h.conforming, h.known, Memory.write_wf h.wf hb, h.activity, (store_reg_other ha.symm).trans h.ctrlMeas⟩

theorem storeConfig_inNormal (h : w.sen.InNormal firstBy m) : (w.storeConfig v).sen.InNormal firstBy m := by
  rcases storeConfig_cases v w with ⟨-, e⟩ | e <;> rw [e]
  · exact h
  · exact store_inNormal (by decide) (by decide) h

/-- Every micro-operation but a reset write and a mode write keeps the sensor in Normal (R200). -/
theorem transact_inNormal {op : MicroOp} (hr : op ≠ .wrReset) (hm : op ≠ .wrCtrlMeas) (h : w.sen.InNormal firstBy m) :
    (transact op v w).2.sen.InNormal firstBy m :=
  transact_keeps_of (P := Sensor.InNormal firstBy m) (fun _ => evolve_inNormal) (fun _ => advance_inNormal)
    (fun _ _ h => ⟨h.conforming, h.known, h.wf, h.activity, h.ctrlMeas⟩) (fun e => absurd e hr)
    (fun _ => store_inNormal (by decide) (by decide)) (fun e => absurd e hm) (fun _ => storeConfig_inNormal) h

end

/-- Once the bound of the first sample has elapsed, it has come (R200). -/
theorem advance_normal_due {w : World} {c : Bool} {deadline : Nat} (hw : w.sen.regs.wf = true)
    (h : w.sen.activity = .normal c (some deadline)) (hd : deadline ≤ w.sen.clock) :
    (∃ c', w.advance.sen.activity = .normal c' none) ∧ w.env.sampleIs 0 w.advance.sen.data := by
  have hdue : firstSampleDue (some deadline) w.sen.clock = true := decide_eq_true hd
  simp only [World.advance, h, World.advanceNormal, hdue, Bool.true_or, if_true]
  refine ⟨⟨_, rfl⟩, ?_⟩
  have hdata : w.draw.2.newSample.sen.data = w.draw.2.sample.1 := newSample_data (by rw [draw_sen]; exact hw)
  have hfirst := (sampleIs_congr (draw_samples w)).1 (sample_first w.draw.2)
  rwa [← hdata] at hfirst

/-- The second clause of O57. -/
theorem wait_first_sample {s : State} {converting : Bool} {deadline ms : Nat} (hc : s.world.sen.conforming = true)
    (hk : s.world.sen.wild = false) (hw : s.world.sen.regs.wf = true)
    (h : s.world.sen.activity = .normal converting (some deadline)) (hd : deadline ≤ s.world.sen.clock + 40 * ms) :
    ∃ t c, exec (.wait ms) s = .next t ∧ t.world.sen.activity = .normal c none ∧
      s.world.env.sampleIs 0 t.world.sen.data ∧
      ∀ a, a < 0xF7 ∨ 0xFF ≤ a → t.world.sen.reg a = s.world.sen.reg a := by
  have hwait : s.world.wait ms = (s.world.later ms).advance := by
    rw [wait_eq, evolve_advance (w := s.world.later ms) hc hk]
  obtain ⟨⟨c, hact⟩, hsample⟩ :=
    advance_normal_due (w := s.world.later ms) hw h (hd.trans (later_clock ms s.world))
  obtain ⟨-, hreg⟩ := advance_normal (w := s.world.later ms) h
  refine ⟨_, c, exec_microOp (.wait ms) s, ?_, ?_, fun a ha => ?_⟩ <;>
    rw [perform_world, show transact (.wait ms) s.port.wdata s.world = (.ok [], s.world.wait ms) from rfl, hwait]
  · exact hact
  · exact (sampleIs_congr (later_samples ms s.world)).1 hsample
  · exact (hreg a ha).trans (reg_congr rfl rfl)

/-- A mode write in Normal opens the contents (R198). -/
theorem storeCtrlMeas_normal {w : World} {v : Byte} {c : Bool} {f : Option Nat} (h : w.sen.activity = .normal c f)
    (hm : modeBits w.sen.ctrlMeas = 0b11) : (w.storeCtrlMeas v).sen.wild = true := by
  have ha : w.sen.asleep = false := by
    rw [Sensor.asleep, hm]
    rfl
  unfold World.storeCtrlMeas
  dsimp only
  rw [if_neg (by rw [ha]; exact nofun), h]

/-! ## A sensor whose contents are open -/

/-- A mode write never closes the contents again. -/
theorem storeCtrlMeas_wild {w : World} {v : Byte} (h : w.sen.wild = true) : (w.storeCtrlMeas v).sen.wild = true := by
  unfold World.storeCtrlMeas
  dsimp only
  split
  · exact h
  · split
    · split <;> exact (congrArg Sensor.wild (drawBool_sen _)).trans h
    · rfl
    · rfl

theorem storeConfig_wild {w : World} {v : Byte} (h : w.sen.wild = true) : (w.storeConfig v).sen.wild = true := by
  rcases storeConfig_cases v w with ⟨-, e⟩ | e <;> rw [e] <;> exact h

/-- Every micro-operation but a reset write leaves open contents open (R198). -/
theorem transact_wild {op : MicroOp} {v : Byte} {w : World} (hr : op ≠ .wrReset) (h : w.sen.wild = true) :
    (transact op v w).2.sen.wild = true :=
  transact_keeps_of (P := fun sen => sen.wild = true) (fun w h => (evolve_times w).2.2.trans h)
    (fun w h => (advance_times w).2.2.1.trans h) (fun _ _ h => h) (fun e => absurd e hr) (fun _ h => h)
    (fun _ _ => storeCtrlMeas_wild) (fun _ => storeConfig_wild) h

theorem evolve_scramble {w : World} (hc : w.sen.conforming = true) (hk : w.sen.wild = true) : w.evolve = w.scramble := by
  rw [World.evolve, if_pos hc, if_pos hk]

theorem drawRegister_draws {w : World} {a d : Nat} {ds : List Nat} (h : w.env.draws = d :: ds) :
    (w.drawRegister a).env.draws = ds := (draw_script h).2

theorem drawRegister_wf {w : World} {a : Nat} (ha : a < 256) (hw : w.sen.regs.wf = true) :
    (w.drawRegister a).sen.regs.wf = true := by
  refine Memory.write_wf ?_ ha
  rw [draw_sen]
  exact hw

section
variable {w : World} {v : Byte} {d1 d2 d3 n : Nat} {ds : List Nat}

theorem scramble_ctrlHum (hw : w.sen.regs.wf = true) (h : w.env.draws = v.toNat :: ds) : w.scramble.sen.ctrlHum = v :=
  (drawConversion_reg (by decide)).trans <| (drawRegister_reg_other (by decide)).trans <|
    (drawRegister_reg_other (by decide)).trans (drawRegister_script hw (by decide) h)

theorem scramble_ctrlMeas (hw : w.sen.regs.wf = true) (h : w.env.draws = d1 :: v.toNat :: ds) :
    w.scramble.sen.ctrlMeas = v :=
  (drawConversion_reg (by decide)).trans <| (drawRegister_reg_other (by decide)).trans <|
    drawRegister_script (drawRegister_wf (by decide) hw) (by decide) (drawRegister_draws h)

theorem scramble_config (hw : w.sen.regs.wf = true) (h : w.env.draws = d1 :: d2 :: v.toNat :: ds) :
    w.scramble.sen.config = v :=
  (drawConversion_reg (by decide)).trans <|
    drawRegister_script (drawRegister_wf (by decide) (drawRegister_wf (by decide) hw)) (by decide)
      (drawRegister_draws (drawRegister_draws h))

theorem scramble_data (hw : w.sen.regs.wf = true) (h : w.env.draws = d1 :: d2 :: d3 :: n :: ds) :
    w.scramble.sen.data = bytesOf 8 n := by
  have hd := drawRegister_draws (a := Config.regConfig) (drawRegister_draws (a := Config.regCtrlMeas)
    (drawRegister_draws (a := Config.regCtrlHum) h))
  rw [World.scramble, drawConversion_data
    (drawRegister_wf (by decide) (drawRegister_wf (by decide) (drawRegister_wf (by decide) hw))), (draw_script hd).1]

/-- A draw with nothing above the eight data bytes leaves no conversion running. -/
theorem scramble_idle (hn : n < 256 ^ 8) (h : w.env.draws = d1 :: d2 :: d3 :: n :: ds) :
    w.scramble.sen.activity = .idle := by
  have hd := drawRegister_draws (a := Config.regConfig) (drawRegister_draws (a := Config.regCtrlMeas)
    (drawRegister_draws (a := Config.regCtrlHum) h))
  have hz : n / 256 ^ 9 = 0 := Nat.div_eq_of_lt (hn.trans (by decide))
  simp only [World.scramble, World.drawConversion, (draw_script hd).1, hz]
  rfl

end

/-- One register read on a conforming, settled sensor with open contents. -/
theorem transact_read_open {op : MicroOp} {a : Nat} {s : State} {v : Byte}
    (hop : transact op s.port.wdata s.world = s.world.readBurst a 1) (hc : s.world.sen.conforming = true)
    (hk : s.world.sen.wild = true) (hs : s.world.sen.settled = true) (ho : s.world.env.okFor 1)
    (h : s.world.scramble.sen.reg a = v) :
    ∃ t, exec op.instr s = .next t ∧ t.port = ⟨none, s.port.wdata, some (.ok [v])⟩ := by
  obtain ⟨w', e, -, -⟩ := readBurst_settled_ok (k := 0) (a := a) (n := 1) hc hs ho
  rw [evolve_scramble hc hk] at e
  refine ⟨_, exec_microOp op s, ?_⟩
  rw [perform_port, hop, e, ← h]
  rfl

/-- Settles O57: what stays Normal, the first sample, the write that opens the contents, what leaves them open, and the
reads of them. -/
theorem normalModeOfSensor : Obligations.NormalModeOfSensor := by
  refine ⟨fun op s converting firstBy hc hk hw h hr hm => ?_, fun s converting deadline ms hc hk hw h hd =>
    wait_first_sample hc hk hw h hd, fun s converting firstBy hc hk hs h hm ho => ?_, fun op s hk hr =>
    ⟨_, exec_microOp op s, transact_wild hr hk⟩, fun s v n d1 d2 d3 ds hc hk hs hw ho hn =>
    ⟨fun hd => ?_, fun hd => ?_, fun hd => ?_, fun hd => ?_⟩⟩
  · have hstart : s.world.sen.InNormal firstBy s.world.sen.ctrlMeas := ⟨hc, hk, hw, ⟨_, _, h, .inl rfl⟩, rfl⟩
    have hafter := transact_inNormal (v := s.port.wdata) hr hm hstart
    obtain ⟨c, f, hact, hf⟩ := hafter.activity
    exact ⟨_, c, f, exec_microOp op s, hact, hf, hafter.ctrlMeas, hafter.known⟩
  · obtain ⟨x, hrep, hx, hsen⟩ := transact_write_settled (op := .wrCtrlMeas) (v := s.port.wdata) rfl hc hs ho
    obtain ⟨⟨c, f, hact, -⟩, hreg⟩ := advance_normal h
    rw [← evolve_advance hc hk, ← hsen] at hact hreg
    have hmx : modeBits x.sen.ctrlMeas = 0b11 := by
      rw [← hm]
      exact congrArg modeBits (hreg Config.regCtrlMeas (by decide))
    exact ⟨_, exec_microOp .wrCtrlMeas s, by rw [perform_port, hrep],
      by rw [perform_world, hx]; exact storeCtrlMeas_normal hact hmx, rfl, rfl, by rw [perform_trace, hrep]; rfl⟩
  · exact transact_read_open (op := .rdCtrlHum) rfl hc hk hs ho (scramble_ctrlHum hw hd)
  · exact transact_read_open (op := .rdCtrlMeas) rfl hc hk hs ho (scramble_ctrlMeas hw hd)
  · exact transact_read_open (op := .rdConfig) rfl hc hk hs ho (scramble_config hw hd)
  · obtain ⟨w2, hs2, -, hidle, -⟩ := readData_settled_ok hc hs ho
    rw [evolve_scramble hc hk] at hs2
    have hread := hidle (by rw [hs2]; exact scramble_idle hn hd)
    refine ⟨_, exec_microOp .rdData s, ?_⟩
    rw [perform_port, show transact .rdData s.port.wdata s.world = s.world.readData from rfl, hread, hs2,
      scramble_data hw hd]

end Sys2Proof.Machine
end

section
/-! PROOFS. Whole commands on a conforming sensor: with no bus error they end with OK, and what a command that has ended with
OK leaves, whatever came before (`42_mode_controller.md` R131, R136, R265; `41_settings_codec.md` R120). -/

namespace Sys2Proof.Machine

/-! ## Exchanges of the world -/

section
variable {w w' w1 w2 : World} {l l' : List Exchange}

theorem follow_trans (h : follow l w = some w1) (h' : follow l' w1 = some w2) : follow (l ++ l') w = some w2 :=
  follow_append.2 ⟨w1, h, h'⟩

theorem follow_parts (h : follow (l ++ l') w = some w2) : ∃ w1, follow l w = some w1 ∧ follow l' w1 = some w2 :=
  follow_append.1 h

theorem follow_keeps (h : follow l w = some w') : World.Keeps w w' := by
  induction l generalizing w with
  | nil =>
    obtain rfl := Option.some.inj h
    exact .refl w
  | cons e l ih => exact (transact_keeps _ _ _).trans (ih (follow_cons.1 h).2)

theorem follow_one {op : MicroOp} {v : Byte} {r : Reply} :
    follow [⟨op, v, r⟩] w = some w' ↔ (transact op v w).1 = r ∧ (transact op v w).2 = w' := by
  rw [follow_cons, follow, Option.some.injEq]

theorem follow_wait (ms : Nat) : follow [.wait ms] w = some (w.wait ms) := follow_one.2 ⟨rfl, rfl⟩

/-! ## With no bus error every exchange is answered Ok -/

variable {k : Nat}

theorem follow_bus_ok {op : MicroOp} (hop : op.onBus = true) (v : Byte) (ho : w.env.okFor (k + 1)) :
    ∃ b w', follow [⟨op, v, .ok b⟩] w = some w' ∧ b.length = op.answerLength ∧ w'.env.okFor k := by
  obtain ⟨⟨b, hb, hl⟩, hk⟩ := transact_ok hop v ho
  exact ⟨b, _, follow_one.2 ⟨hb, rfl⟩, hl, hk⟩

theorem follow_rd1_ok {op : MicroOp} (hop : op.onBus = true) (hl : op.answerLength = 1) (ho : w.env.okFor (k + 1)) :
    ∃ x w', follow [.rd op [x]] w = some w' ∧ w'.env.okFor k := by
  obtain ⟨b, w', h, hb, hk⟩ := follow_bus_ok hop 0 ho
  obtain ⟨x, rfl⟩ := List.length_eq_one_iff.1 (hb.trans hl)
  exact ⟨x, w', h, hk⟩

theorem follow_wr_ok {op : MicroOp} (hop : op.onBus = true) (hl : op.answerLength = 0) (v : Byte)
    (ho : w.env.okFor (k + 1)) : ∃ w', follow [.wr op v] w = some w' ∧ w'.env.okFor k := by
  obtain ⟨b, w', h, hb, hk⟩ := follow_bus_ok hop v ho
  obtain rfl := List.length_eq_zero_iff.1 (hb.trans hl)
  exact ⟨w', h, hk⟩

theorem follow_settingsRead_ok (ho : w.env.okFor (k + 3)) :
    ∃ xh xm xc w', follow (settingsRead xh xm xc) w = some w' ∧ w'.env.okFor k := by
  obtain ⟨xh, w1, h1, ho⟩ := follow_rd1_ok (op := .rdCtrlHum) rfl rfl ho
  obtain ⟨xm, w2, h2, ho⟩ := follow_rd1_ok (op := .rdCtrlMeas) rfl rfl ho
  obtain ⟨xc, w3, h3, ho⟩ := follow_rd1_ok (op := .rdConfig) rfl rfl ho
  exact ⟨xh, xm, xc, w3, follow_trans h1 (follow_trans h2 h3), ho⟩

theorem follow_rmw_ok {r o : MicroOp} (hr : r.onBus = true ∧ r.answerLength = 1)
    (hw : o.onBus = true ∧ o.answerLength = 0) (mask v : Byte) (ho : w.env.okFor (k + 2)) :
    ∃ x w', follow [.rd r [x], .wr o (rmwByte x mask v)] w = some w' ∧ w'.env.okFor k := by
  obtain ⟨x, w1, h1, ho⟩ := follow_rd1_ok hr.1 hr.2 ho
  obtain ⟨w2, h2, ho⟩ := follow_wr_ok hw.1 hw.2 (rmwByte x mask v) ho
  exact ⟨x, w2, follow_trans h1 h2, ho⟩

theorem follow_settingsWritten_ok (st : Settings) (ho : w.env.okFor (k + 6)) :
    ∃ xh xm xc w', follow (settingsWritten st xh xm xc) w = some w' ∧ w'.env.okFor k := by
  obtain ⟨xh, w1, h1, ho⟩ := follow_rmw_ok (r := .rdCtrlHum) (o := .wrCtrlHum) ⟨rfl, rfl⟩ ⟨rfl, rfl⟩ 0x07 (humBits st) ho
  obtain ⟨xm, w2, h2, ho⟩ :=
    follow_rmw_ok (r := .rdCtrlMeas) (o := .wrCtrlMeas) ⟨rfl, rfl⟩ ⟨rfl, rfl⟩ 0xFC (measBits st) ho
  obtain ⟨xc, w3, h3, ho⟩ :=
    follow_rmw_ok (r := .rdConfig) (o := .wrConfig) ⟨rfl, rfl⟩ ⟨rfl, rfl⟩ 0xFC (configBits st) ho
  exact ⟨xh, xm, xc, w3, follow_trans h1 (follow_trans h2 h3), ho⟩

theorem follow_softReset_ok (ho : w.env.okFor (k + 1)) :
    ∃ w', follow softResetDone w = some w' ∧ w'.env.okFor k := by
  obtain ⟨w1, h1, ho⟩ := follow_wr_ok (op := .wrReset) rfl rfl 0xB6 ho
  exact ⟨_, follow_trans h1 (follow_wait 2), (transact_wait 2 0 ho).2⟩

end

/-! ## A command that has ended with OK has made the exchanges of its pseudocode, each answered Ok -/

theorem outcome_length {w : World} {n : Nat} {b : List Byte} (h : (w.outcome n).1 = .ok b) : b.length = n := by
  unfold World.outcome at h
  cases hr : w.env.replies with
  | nil =>
    rw [hr] at h
    dsimp only at h
    split at h
    · cases h
    · obtain rfl := Reply.ok.inj h
      exact bytesOf_length _ _
  | cons r rs =>
    rw [hr] at h
    cases r with
    | error => cases h
    | ok b' =>
      obtain rfl := Reply.ok.inj h
      exact fitBytes_length _ _

/-- A READ is answered with the bytes of its length. -/
theorem readBurst_length {w : World} {a n : Nat} {b : List Byte} (h : (w.readBurst a n).1 = .ok b) : b.length = n := by
  unfold World.readBurst at h
  dsimp only at h
  split at h
  · cases h
  · rename_i heq
    dsimp only at h
    split at h <;> obtain rfl := Reply.ok.inj h
    · exact Sensor.burst_length _ _ _
    · exact outcome_length (congrArg Prod.fst heq)

/-- A WRITE answered Ok is answered with no byte. -/
theorem writeByte_length {w : World} {a : Nat} {effect : World → World} {b : List Byte}
    (h : (w.writeByte a effect).1 = .ok b) : b = [] := by
  unfold World.writeByte at h
  dsimp only at h
  split at h <;> exact List.length_eq_zero_iff.1 (outcome_length h)

section
variable {job : Job} {rs : List Reply} {s : State}

theorem ok_rd1 {op : MicroOp} {k : Byte → Prog} {a : Nat} (hop : ∀ w, transact op 0 w = w.readBurst a 1)
    (h : (Prog.run job (rd1 op k) rs s).okResult) :
    ∃ x rs' s', follow [.rd op [x]] s.world = some s'.world ∧ (Prog.run job (k x) rs' s').okResult := by
  obtain ⟨b, rs', s', hb, e, hw, -⟩ := ok_rd h
  obtain ⟨x, rfl⟩ := List.length_eq_one_iff.1 (readBurst_length (hop s.world ▸ hb))
  refine ⟨x, rs', s', follow_one.2 ⟨hb, hw.symm⟩, ?_⟩
  rw [rd1, e] at h
  exact h

theorem ok_wr_exchange {op : MicroOp} {v : Byte} {next : Prog} {a : Nat} {effect : World → World}
    (hop : ∀ w, transact op v w = w.writeByte a effect) (h : (Prog.run job (wr op v next) rs s).okResult) :
    ∃ rs' s', follow [.wr op v] s.world = some s'.world ∧ (Prog.run job next rs' s').okResult := by
  obtain ⟨b, rs', s', hb, e, hw, -⟩ := ok_wr h
  obtain rfl := writeByte_length (hop s.world ▸ hb)
  exact ⟨rs', s', follow_one.2 ⟨hb, hw.symm⟩, e ▸ h⟩

theorem ok_readSettings {k : Settings → Byte → Prog} (h : (Prog.run job (readSettings k) rs s).okResult) :
    ∃ xh xm xc rs' s', follow (settingsRead xh xm xc) s.world = some s'.world ∧
      (Prog.run job (k (decodeSettings xh xm xc) xh) rs' s').okResult := by
  obtain ⟨xh, _, _, h1, h⟩ := ok_rd1 (fun _ => rfl) h
  obtain ⟨xm, _, _, h2, h⟩ := ok_rd1 (fun _ => rfl) h
  obtain ⟨xc, rs', s', h3, h⟩ := ok_rd1 (fun _ => rfl) h
  exact ⟨xh, xm, xc, rs', s', follow_trans h1 (follow_trans h2 h3), h⟩

theorem ok_softReset_exchange {next : Prog} (h : (Prog.run job (softReset next) rs s).okResult) :
    ∃ rs' s', follow softResetDone s.world = some s'.world ∧ (Prog.run job next rs' s').okResult := by
  obtain ⟨_, _, h1, h⟩ := ok_wr_exchange (fun _ => rfl) h
  exact ⟨_, _, follow_trans h1 (follow_wait 2), h⟩

theorem ok_rmw {r o : MicroOp} {mask v : Byte} {next : Prog} {a : Nat} {effect : Byte → World → World}
    (hr : ∀ w, transact r 0 w = w.readBurst a 1) (hw : ∀ x w, transact o x w = w.writeByte a (effect x))
    (h : (Prog.run job (rmw r o mask v next) rs s).okResult) :
    ∃ x rs' s', follow [.rd r [x], .wr o (rmwByte x mask v)] s.world = some s'.world ∧
      (Prog.run job next rs' s').okResult := by
  obtain ⟨x, _, _, h1, h⟩ := ok_rd1 hr h
  obtain ⟨rs', s', h2, h⟩ := ok_wr_exchange (hw _) h
  exact ⟨x, rs', s', follow_trans h1 h2, h⟩

theorem ok_settingsWritten {st : Settings} {next : Prog}
    (h : (Prog.run job (writeHum st (writeMeasConfig st next)) rs s).okResult) :
    ∃ xh xm xc rs' s', follow (settingsWritten st xh xm xc) s.world = some s'.world ∧
      (Prog.run job next rs' s').okResult := by
  obtain ⟨xh, _, _, h1, h⟩ := ok_rmw (fun _ => rfl) (fun _ _ => rfl) h
  obtain ⟨xm, _, _, h2, h⟩ := ok_rmw (fun _ => rfl) (fun _ _ => rfl) h
  obtain ⟨xc, rs', s', h3, h⟩ := ok_rmw (fun _ => rfl) (fun _ _ => rfl) h
  exact ⟨xh, xm, xc, rs', s', follow_trans h1 (follow_trans h2 h3), h⟩

theorem ok_sleepBody {next : Prog} (h : (Prog.run job (sleepBody next) rs s).okResult) :
    ∃ xh xm xc yh ym yc w, follow (slept xh xm xc yh ym yc) s.world = some w := by
  obtain ⟨xh, xm, xc, _, _, h1, h⟩ := ok_readSettings h
  obtain ⟨_, _, h2, h⟩ := ok_softReset_exchange h
  obtain ⟨yh, ym, yc, _, _, h3, -⟩ := ok_settingsWritten h
  exact ⟨xh, xm, xc, yh, ym, yc, _, follow_trans (follow_trans h1 h2) h3⟩

/-- The identity poll of an INIT that ends with OK: some answers that do not match, and then one that does (R131). -/
theorem ok_pollId {n : Nat} {next : Prog} (h : (Prog.run job (pollId n next) rs s).okResult) :
    ∃ misses rs' s', misses.length < n ∧ (∀ r ∈ misses, r ≠ .ok [0x60]) ∧
      follow (polled misses ++ [.rd .rdId [0x60]]) s.world = some s'.world ∧ (Prog.run job next rs' s').okResult := by
  induction n generalizing rs s with
  | zero => exact (error_not_ok (by decide) h).elim
  | succ n ih =>
    obtain ⟨rs', s', e, hw, -⟩ := run_uop (job := job) .rdId 0 _ rs s
    unfold pollId at h
    rw [e] at h
    split at h <;> rename_i hit
    · exact ⟨[], rs', s', n.succ_pos, nofun, follow_one.2 ⟨hit, hw.symm⟩, h⟩
    · split at h
      · split at h <;> exact (error_not_ok (by decide) h).elim
      · obtain ⟨misses, rs2, s2, hl, hmiss, hf, h⟩ := ih h
        refine ⟨(transact .rdId 0 s.world).1 :: misses, rs2, s2, Nat.succ_lt_succ hl, ?_,
          follow_trans (l := [_]) (follow_one.2 ⟨rfl, hw.symm⟩) hf, h⟩
        rintro r (_ | ⟨_, hr⟩)
        · exact hit
        · exact hmiss r hr

theorem ok_init (h : (Prog.run job initProg rs s).okResult) :
    ∃ misses tp hb w, misses.length ≤ 4 ∧ (∀ r ∈ misses, r ≠ .ok [0x60]) ∧
      follow (polled misses ++ identified tp hb) s.world = some w := by
  have h : (Prog.run job (pollId Config.idAttempts _) rs (s.writeCtl (.initialized false))).okResult := h
  obtain ⟨misses, _, _, hl, hmiss, h1, h⟩ := ok_pollId h
  obtain ⟨_, _, h2, h⟩ := ok_softReset_exchange h
  obtain ⟨tp, _, s3, htp, e3, h3, -⟩ := ok_rd h
  rw [loadCalib, e3] at h
  obtain ⟨hb, _, s4, hhb, -, h4, -⟩ := ok_rd h
  have hcalib : follow [.rd .rdCalibTp tp, .rd .rdCalibH hb, .wait 1] _ = some _ :=
    follow_trans (l := [_]) (follow_one.2 ⟨htp, h3.symm⟩)
      (follow_trans (l := [_]) (follow_one.2 ⟨hhb, h4.symm⟩) (follow_wait 1))
  have hall := follow_trans h1 (follow_trans h2 hcalib)
  rw [writeCtl_world] at hall
  refine ⟨misses, tp, hb, _, Nat.le_of_lt_succ hl, hmiss, Eq.trans (congrArg (follow · s.world) ?_) hall⟩
  simp [identified]

end

end Sys2Proof.Machine
end

section
/-! PROOFS. What the exchanges of the commands do to a conforming sensor (R194, R197, R198, R201), and the statements about
whole commands on one (R120, R136, R265). -/

namespace Sys2Proof.Machine

/-! ## A sensor at rest with known registers -/

/-- At rest, with these control bytes and these data. -/
structure Sensor.Resting (sen : Sensor) (xh xm xc : Byte) (d : List Byte) : Prop where
  quiet    : sen.quiet = true
  wf       : sen.regs.wf = true
  ctrlHum  : sen.ctrlHum = xh
  ctrlMeas : sen.ctrlMeas = xm
  config   : sen.config = xc
  data     : sen.data = d

section
variable {w w' : World} {xh xm xc v : Byte} {d : List Byte}

theorem Sensor.Resting.asleep {sen : Sensor} (h : sen.Resting xh xm xc d) (hm : modeBits xm = 0b00) : sen.asleep = true :=
  asleep_of_idle (h.ctrlMeas ▸ hm) (quiet_iff.1 h.quiet).2.2.2

theorem Sensor.Resting.storeCtrlHum (h : w.sen.Resting xh xm xc d) (v : Byte) :
    (w.storeCtrlHum v).sen.Resting v xm xc d :=
  ⟨h.quiet, (storeCtrlHum_keeps v w).wf h.wf, storeCtrlHum_stores h.wf, storeCtrlHum_ctrlMeas.trans h.ctrlMeas,
    (storeCtrlHum_reg (by decide)).trans h.config, storeCtrlHum_data.trans h.data⟩

/-- A mode write that asks for Sleep starts nothing (R198). -/
theorem Sensor.Resting.storeCtrlMeas (h : w.sen.Resting xh xm xc d) (hm : modeBits xm = 0b00) (hv : modeBits v = 0b00) :
    (w.storeCtrlMeas v).sen.Resting xh v xc d ∧ (w.storeCtrlMeas v).sen.humEff = byteField xh 0 3 := by
  obtain ⟨hc, hk, hs, -⟩ := quiet_iff.1 h.quiet
  have hact := (storeCtrlMeas_asleep (v := v) (h.asleep hm)).trans (startedActivity_of_sleep (by rw [hv]; rfl))
  have hkeep := storeCtrlMeas_keeps v w
  have hsame : (w.storeCtrlMeas v).sen.wild = w.sen.wild ∧ (w.storeCtrlMeas v).sen.settled = w.sen.settled := by
    unfold World.storeCtrlMeas
    rw [if_pos (h.asleep hm)]
    exact ⟨rfl, rfl⟩
  refine ⟨⟨quiet_iff.2 ⟨hkeep.conforming.trans hc, hsame.1.trans hk, hsame.2.trans hs, hact⟩, hkeep.wf h.wf,
    (storeCtrlMeas_reg (by decide)).trans h.ctrlHum, storeCtrlMeas_ctrlMeas h.wf,
    (storeCtrlMeas_reg (by decide)).trans h.config, storeCtrlMeas_data.trans h.data⟩, ?_⟩
  rw [(storeCtrlMeas_stores v w).1, h.ctrlHum]

theorem Sensor.Resting.storeConfig (h : w.sen.Resting xh xm xc d) (hm : modeBits xm = 0b00) (v : Byte) :
    (w.storeConfig v).sen.Resting xh xm v d := by
  rw [storeConfig_asleep (h.asleep hm)]
  exact ⟨h.quiet, Memory.write_wf h.wf (by decide),
    (store_reg_other (by decide)).trans h.ctrlHum, (store_reg_other (by decide)).trans h.ctrlMeas,
    (store_reg h.wf (by decide)).trans (if_pos rfl), (store_data (by decide)).trans h.data⟩

/-! ## Exchanges with a sensor at rest -/

theorem follow_rd_quiet {op : MicroOp} {a n : Nat} {b : List Byte} (hop : ∀ w, transact op 0 w = w.readBurst a n)
    (hq : w.sen.quiet = true) (h : follow [.rd op b] w = some w') : b = w.sen.burst a n ∧ w'.sen = w.sen := by
  obtain ⟨hb, rfl⟩ := follow_one.1 h
  rw [hop] at hb ⊢
  exact readBurst_answered hq hb

theorem follow_wr_quiet {op : MicroOp} {a : Nat} {effect : World → World}
    (hop : ∀ w, transact op v w = w.writeByte a effect) (hq : w.sen.quiet = true)
    (h : follow [.wr op v] w = some w') : ∃ x : World, x.sen = w.sen ∧ w' = effect x := by
  obtain ⟨hb, rfl⟩ := follow_one.1 h
  rw [hop] at hb ⊢
  obtain ⟨x, e, hx⟩ := writeByte_answered hq hb
  exact ⟨x, hx, e⟩

theorem follow_rmw_quiet {r o : MicroOp} {mask x : Byte} {a : Nat} {effect : Byte → World → World}
    (hr : ∀ w, transact r 0 w = w.readBurst a 1) (hw : ∀ x w, transact o x w = w.writeByte a (effect x))
    (hq : w.sen.quiet = true) (h : follow [.rd r [x], .wr o (rmwByte x mask v)] w = some w') :
    ∃ y : World, y.sen = w.sen ∧ w' = effect (rmwByte (w.sen.reg a) mask v) y := by
  obtain ⟨w1, h1, h2⟩ := follow_parts (l := [_]) h
  obtain ⟨hx, hs⟩ := follow_rd_quiet hr hq h1
  obtain rfl : x = w.sen.reg a := List.head_eq_of_cons_eq hx
  obtain ⟨y, hy, e⟩ := follow_wr_quiet (hw _) (by rw [hs]; exact hq) h2
  exact ⟨y, hy.trans hs, e⟩

/-- READ_SETTINGS on a sensor at rest (R119). -/
theorem Sensor.Resting.settingsRead {yh ym yc : Byte} (h : w.sen.Resting xh xm xc d)
    (hf : follow (settingsRead yh ym yc) w = some w') : yh = xh ∧ ym = xm ∧ yc = xc := by
  obtain ⟨w1, h1, hf⟩ := follow_parts (l := [_]) hf
  obtain ⟨w2, h2, h3⟩ := follow_parts (l := [_]) hf
  obtain ⟨e1, s1⟩ := follow_rd_quiet (fun _ => rfl) h.quiet h1
  obtain ⟨e2, s2⟩ := follow_rd_quiet (fun _ => rfl) (by rw [s1]; exact h.quiet) h2
  obtain ⟨e3, -⟩ := follow_rd_quiet (fun _ => rfl) (by rw [s2, s1]; exact h.quiet) h3
  rw [s1] at e2
  rw [s2, s1] at e3
  exact ⟨(List.head_eq_of_cons_eq e1).trans h.ctrlHum, (List.head_eq_of_cons_eq e2).trans h.ctrlMeas,
    (List.head_eq_of_cons_eq e3).trans h.config⟩

theorem modeBits_rmw (x : Byte) (st : Settings) : modeBits (rmwByte x 0xFC (measBits st)) = modeBits x := by
  rw [measBits, rmwByte_upper]
  exact byteField_low _ _ _

/-- WRITE_HUM and WRITE_MEAS_CONFIG on a sensor at rest in Sleep (R116, R117): the fields are merged into the bytes it holds,
and `hum_eff` is the humidity code written. -/
theorem Sensor.Resting.settingsWritten {st : Settings} {yh ym yc : Byte} (h : w.sen.Resting xh xm xc d)
    (hm : modeBits xm = 0b00) (hf : follow (settingsWritten st yh ym yc) w = some w') :
    w'.sen.Resting (rmwByte xh 0x07 (humBits st)) (rmwByte xm 0xFC (measBits st)) (rmwByte xc 0xFC (configBits st)) d ∧
      w'.sen.humEff = st.osrsH := by
  obtain ⟨w1, h1, hf⟩ := follow_parts (l := [_, _]) hf
  obtain ⟨w2, h2, h3⟩ := follow_parts (l := [_, _]) hf
  have hm' := (modeBits_rmw xm st).trans hm
  obtain ⟨x1, s1, rfl⟩ := follow_rmw_quiet (effect := World.storeCtrlHum) (fun _ => rfl) (fun _ _ => rfl) h.quiet h1
  rw [show w.sen.reg Config.regCtrlHum = xh from h.ctrlHum] at h2
  have r1 := Sensor.Resting.storeCtrlHum (w := x1) (s1 ▸ h) (rmwByte xh 0x07 (humBits st))
  obtain ⟨x2, s2, rfl⟩ := follow_rmw_quiet (effect := World.storeCtrlMeas) (fun _ => rfl) (fun _ _ => rfl) r1.quiet h2
  rw [show Sensor.reg _ Config.regCtrlMeas = xm from r1.ctrlMeas] at h3
  obtain ⟨r2, hhum⟩ := Sensor.Resting.storeCtrlMeas (w := x2) (s2 ▸ r1) hm hm'
  obtain ⟨x3, s3, rfl⟩ := follow_rmw_quiet (effect := World.storeConfig) (fun _ => rfl) (fun _ _ => rfl) r2.quiet h3
  rw [show Sensor.reg _ Config.regConfig = xc from r2.config]
  refine ⟨Sensor.Resting.storeConfig (w := x3) (s3 ▸ r2) hm' _, ?_⟩
  rw [storeConfig_humEff, s3, hhum, humBits, rmwByte_hum, byteField_hum]

end

/-- Settles O59: the bytes SET_SETTINGS writes are those GET_SETTINGS reads. -/
theorem settingsRoundTrip : Obligations.SettingsRoundTrip := by
  intro s st hi hq hw hm ho
  obtain ⟨x, w1, h1, ho⟩ := follow_rd1_ok (op := .rdCtrlMeas) rfl rfl ho
  obtain ⟨hx, hs1⟩ := follow_rd_quiet (a := Config.regCtrlMeas) (fun _ => rfl) hq h1
  obtain rfl : x = s.world.sen.ctrlMeas := List.head_eq_of_cons_eq hx
  obtain ⟨yh, ym, yc, w2, h2, ho⟩ := follow_settingsWritten_ok st ho
  have hrest1 : w1.sen.Resting s.world.sen.ctrlHum s.world.sen.ctrlMeas s.world.sen.config s.world.sen.data := by
    rw [hs1]
    exact ⟨hq, hw, rfl, rfl, rfl, rfl⟩
  obtain ⟨hrest2, -⟩ := hrest1.settingsWritten hm h2
  obtain ⟨zh, zm, zc, w3, h3, -⟩ := follow_settingsRead_ok (k := 0) ho
  obtain ⟨rfl, rfl, rfl⟩ := hrest2.settingsRead h3
  have hset := setSettingsWritesRegisters.1 s st _ yh ym yc w2 hi (by rw [hm]; rfl) (follow_trans h1 h2)
  refine ⟨_, _, hset, getSettingsReturnsDecoded.2.1 _ _ _ _ w3 rfl h3, rfl, ?_, ?_⟩
  · show { s.ctl with seq := .idle } = s.ctl
    rw [← hi]
  · rw [finish_result, decodeSettings_rmw]

/-! ## SLEEP -/

section
variable {w w' : World}

/-- SOFT_RESET on every conforming sensor (R130, R194, R265). -/
theorem follow_softReset_fresh (hc : w.sen.conforming = true) (hw : w.sen.regs.wf = true)
    (h : follow softResetDone w = some w') : w'.sen.Fresh := by
  obtain ⟨w1, h1, h2⟩ := follow_parts (l := [_]) h
  obtain ⟨hb, rfl⟩ := follow_one.1 h1
  obtain ⟨-, rfl⟩ := follow_one.1 h2
  obtain ⟨x, hx, hs⟩ := reset_answered hc hb
  have hk := evolve_keeps w
  rw [hx]
  exact softReset_wait_fresh (by rw [hs]; exact hk.conforming.trans hc) (by rw [hs]; exact hk.wf hw)

theorem Sensor.Fresh.resting {sen : Sensor} (h : sen.Fresh) (hw : sen.regs.wf = true) :
    sen.Resting 0 0 0 [0x80, 0, 0, 0x80, 0, 0, 0x80, 0] := ⟨h.quiet, hw, h.ctrlHum, h.ctrlMeas, h.config, h.data⟩

theorem rmw_fresh (st : Settings) :
    rmwByte 0 0x07 (humBits st) = humBits st ∧ rmwByte 0 0xFC (measBits st) = measBits st ∧
      rmwByte 0 0xFC (configBits st) = configBits st := by
  rw [humBits, measBits, configBits, rmwByte_hum, rmwByte_upper, rmwByte_upper]
  exact ⟨rfl, rfl, rfl⟩

/-- SLEEP_BODY on every conforming sensor (R136, R265): at rest with its reset data, and with the decoded Settings of the
bytes its first reads were answered with. -/
theorem follow_slept {xh xm xc yh ym yc : Byte} (hc : w.sen.conforming = true) (hw : w.sen.regs.wf = true)
    (h : follow (slept xh xm xc yh ym yc) w = some w') :
    (let st := decodeSettings xh xm xc
     w'.sen.Resting (humBits st) (measBits st) (configBits st) [0x80, 0, 0, 0x80, 0, 0, 0x80, 0] ∧
       w'.sen.humEff = st.osrsH) := by
  obtain ⟨w2, h12, h3⟩ := follow_parts h
  obtain ⟨w1, h1, h2⟩ := follow_parts h12
  have hk1 := follow_keeps h1
  have hfresh := follow_softReset_fresh (hk1.conforming.trans hc) (hk1.wf hw) h2
  obtain ⟨hrest, hhum⟩ := (hfresh.resting ((follow_keeps h12).wf hw)).settingsWritten rfl h3
  obtain ⟨eh, em, ec⟩ := rmw_fresh (decodeSettings xh xm xc)
  rw [eh, em, ec] at hrest
  exact ⟨hrest, hhum⟩

theorem modeBits_measBits (st : Settings) : modeBits (measBits st) = 0b00 := byteField_low _ _ _

/-! A settled sensor whose contents are known, with whatever conversion running. -/

/-- The registers of a conforming, settled sensor whose contents are known, the mode bits apart. -/
structure Sensor.Holds (sen : Sensor) (xh xm xc : Byte) : Prop where
  conforming : sen.conforming = true
  known      : sen.wild = false
  settled    : sen.settled = true
  wf         : sen.regs.wf = true
  ctrlHum    : sen.ctrlHum = xh
  ctrlMeas   : sen.ctrlMeas &&& 0xFC = xm &&& 0xFC
  config     : sen.config = xc

variable {xh xm xc : Byte}

/-- The sensor's own conversions leave all that (R199, R200). -/
theorem Sensor.Holds.evolve (h : w.sen.Holds xh xm xc) : w.evolve.sen.Holds xh xm xc := by
  have hk := evolve_keeps w
  obtain ⟨hhum, hconfig, hmeas⟩ := advance_controls h.wf
  rw [← evolve_advance h.conforming h.known] at hhum hconfig hmeas
  exact ⟨hk.conforming.trans h.conforming, (evolve_times w).2.2.trans h.known, evolve_settled h.settled, hk.wf h.wf,
    hhum.trans h.ctrlHum, hmeas.trans h.ctrlMeas, hconfig.trans h.config⟩

/-- A read of one register that the oracle does not fail. -/
theorem Sensor.Holds.rd1 {op : MicroOp} {a k : Nat} (hop : ∀ w, transact op 0 w = w.readBurst a 1)
    (h : w.sen.Holds xh xm xc) (ho : w.env.okFor (k + 1)) :
    ∃ w', follow [.rd op [w.evolve.sen.reg a]] w = some w' ∧ w'.sen = w.evolve.sen ∧ w'.env.okFor k := by
  obtain ⟨w', e, hs, ho⟩ := readBurst_settled_ok (a := a) (n := 1) h.conforming h.settled ho
  exact ⟨w', follow_one.2 (by rw [hop, e]; exact ⟨rfl, rfl⟩), hs, ho⟩

/-- READ_SETTINGS on such a sensor is answered with its control bytes, the mode bits apart (R119). -/
theorem Sensor.Holds.settingsRead {k : Nat} (h : w.sen.Holds xh xm xc) (ho : w.env.okFor (k + 3)) :
    ∃ ym w', follow (settingsRead xh ym xc) w = some w' ∧ ym &&& 0xFC = xm &&& 0xFC ∧ w'.env.okFor k := by
  have he1 := h.evolve
  obtain ⟨w1, h1, s1, ho⟩ := Sensor.Holds.rd1 (op := .rdCtrlHum) (fun _ => rfl) h ho
  rw [← s1] at he1
  have he2 := he1.evolve
  obtain ⟨w2, h2, s2, ho⟩ := Sensor.Holds.rd1 (op := .rdCtrlMeas) (fun _ => rfl) he1 ho
  rw [← s2] at he2
  have he3 := he2.evolve
  obtain ⟨w3, h3, -, ho⟩ := Sensor.Holds.rd1 (op := .rdConfig) (fun _ => rfl) he2 ho
  rw [show Sensor.reg _ _ = xh from s1 ▸ he1.ctrlHum] at h1
  rw [show Sensor.reg _ _ = xc from he3.config] at h3
  exact ⟨_, w3, follow_trans h1 (follow_trans h2 h3), s2 ▸ he2.ctrlMeas, ho⟩

end

/-- An OK of SLEEP comes after its exchanges (R136, R226). -/
theorem exec_sleep_ok {s t : State} (hi : s.ctl.seq = .idle) (h : exec .sleep s = .next t) (hok : t.okResult) :
    ∃ xh xm xc yh ym yc w, follow (slept xh xm xc yh ym yc) s.world = some w := by
  have e : exec .sleep s = _ := runCommand_idle hi
  obtain rfl := Host.Outcome.next.inj (h.symm.trans e)
  exact ok_sleepBody hok

/-- Settles O60: where no bus error comes the exchanges of SLEEP_BODY follow, and where the command ended with OK they have. -/
theorem sleepReachesSleep : Obligations.SleepReachesSleep := by
  refine ⟨fun s hi hc hk hs hw ho => ?_, fun s t hi hc hw h hok => ?_⟩
  · have hholds : s.world.sen.Holds _ _ _ := ⟨hc, hk, hs, hw, rfl, rfl, rfl⟩
    obtain ⟨xm, w1, h1, hxm, ho⟩ := hholds.settingsRead ho
    obtain ⟨w2, h2, ho⟩ := follow_softReset_ok ho
    obtain ⟨yh, ym, yc, w3, h3, -⟩ := follow_settingsWritten_ok (k := 0)
      (decodeSettings s.world.sen.ctrlHum xm s.world.sen.config) ho
    have hf := follow_trans (follow_trans h1 h2) h3
    obtain ⟨hrest, -⟩ := follow_slept hc hw hf
    refine ⟨_, sleepRestoresSettings s _ _ _ _ _ _ w3 hi hf, ?_, rfl, hrest.asleep (modeBits_measBits _), ?_,
      fun a ha => (follow_keeps hf).reg hc ha⟩
    · show { s.ctl with mode := .sleep, seq := .idle } = { s.ctl with mode := .sleep }
      rw [← hi]
    · rw [← decodeSettings_ignores_mode hxm]
      exact ⟨hrest.ctrlHum, hrest.ctrlMeas, hrest.config⟩
  · obtain ⟨xh, xm, xc, yh, ym, yc, w, hf⟩ := exec_sleep_ok hi h hok
    obtain ⟨hrest, hhum⟩ := follow_slept hc hw hf
    obtain rfl := Host.Outcome.next.inj (h.symm.trans (sleepRestoresSettings s _ _ _ _ _ _ w hi hf))
    refine ⟨?_, hrest.quiet, hrest.asleep (modeBits_measBits _), hrest.data, fun a ha => (follow_keeps hf).reg hc ha,
      xh, xm, xc, (softResetDone ++ settingsWritten (decodeSettings xh xm xc) yh ym yc).map Exchange.entry, ?_,
      hrest.ctrlHum, hrest.ctrlMeas, hrest.config, hhum⟩
    · show { s.ctl with mode := .sleep, seq := .idle } = { s.ctl with mode := .sleep }
      rw [← hi]
    · show s.trace ++ _ = _
      simp [slept]

/-! ## INIT -/

/-- Registers below the control registers, in a burst (R32, R34). -/
theorem World.Keeps.burst {w w' : World} {a n : Nat} (h : World.Keeps w w') (hc : w.sen.conforming = true)
    (ha : a + n ≤ Config.regCtrlHum) : w'.sen.burst a n = w.sen.burst a n := by
  refine burst_congr fun j _ hj => h.reg hc (changeable_false.2 ?_)
  have h2 : j < 0xF2 := hj.trans_le ha
  exact ⟨h2.ne, (h2.trans (by decide)).ne, (h2.trans (by decide)).ne, .inl (h2.trans (by decide))⟩

/-- INIT from its match on, on every conforming sensor (R131, R265): the bytes read are its calibration bytes, and it is
left as the soft reset left it. -/
theorem follow_identified {tp hb : List Byte} {w w' : World} (hc : w.sen.conforming = true) (hw : w.sen.regs.wf = true)
    (h : follow (identified tp hb) w = some w') :
    tp = w.sen.burst 0x88 26 ∧ hb = w.sen.burst 0xE1 7 ∧ w'.sen.Fresh := by
  obtain ⟨w2, h12, h3⟩ := follow_parts h
  obtain ⟨w1, h1, h2⟩ := follow_parts h12
  have hk1 := follow_keeps h1
  have hfresh := follow_softReset_fresh (hk1.conforming.trans hc) (hk1.wf hw) h2
  have hk2 := follow_keeps h12
  obtain ⟨w3, h3, h4⟩ := follow_parts (l := [_]) h3
  obtain ⟨w4, h4, h5⟩ := follow_parts (l := [_]) h4
  obtain ⟨rfl, s3⟩ := follow_rd_quiet (fun _ => rfl) hfresh.quiet h3
  obtain ⟨rfl, s4⟩ := follow_rd_quiet (fun _ => rfl) (by rw [s3]; exact hfresh.quiet) h4
  obtain ⟨-, rfl⟩ := follow_one.1 h5
  rw [s3] at s4 ⊢
  refine ⟨hk2.burst hc (by decide), hk2.burst hc (by decide), ?_⟩
  have hwait := (wait_quiet 1 (w := w4) (by rw [s4]; exact hfresh.quiet)).1
  show (w4.wait 1).sen.Fresh
  rw [hwait, s4]
  exact hfresh.later _

/-- A scripted 0x60 is the answer of the identity read, whether the sensor or the oracle gives it (R190, R193). -/
theorem readId_scripted {w : World} {rs : List Reply} (hc : w.sen.conforming = true)
    (h : w.env.replies = .ok [0x60] :: rs) : (w.readBurst Config.regId 1).1 = .ok [0x60] := by
  have hout : (w.evolve.outcome 1).1 = .ok [0x60] := evolve_outcome_script 1 h
  have hc' : (w.evolve.outcome 1).2.sen.conforming = true := by
    rw [outcome_sen]
    exact (evolve_keeps w).conforming.trans hc
  unfold World.readBurst
  dsimp only
  split <;> rename_i heq <;> rw [heq] at hout hc'
  · cases hout
  · dsimp only
    split
    · exact congrArg Reply.ok (burst_id hc')
    · exact hout

/-- The first identity read of a settled sensor, and of any for which it is scripted so, is answered 0x60. -/
theorem follow_id_ok {w : World} {k : Nat} (hc : w.sen.conforming = true)
    (h : w.sen.settled = true ∨ ∃ rs, w.env.replies = .ok [0x60] :: rs) (ho : w.env.okFor (k + 1)) :
    ∃ w', follow [.rd .rdId [0x60]] w = some w' ∧ w'.env.okFor k := by
  have hid : w.evolve.sen.burst 0xD0 1 = [0x60] := burst_id ((evolve_keeps w).conforming.trans hc)
  rcases h with hs | ⟨rs, hr⟩
  · obtain ⟨w', e, -, ho⟩ := readBurst_settled_ok (a := 0xD0) (n := 1) hc hs ho
    rw [hid] at e
    exact ⟨w', follow_one.2 ⟨congrArg Prod.fst e, congrArg Prod.snd e⟩, ho⟩
  · exact ⟨_, follow_one.2 ⟨readId_scripted hc hr, rfl⟩, (transact_ok (op := .rdId) rfl 0 ho).2⟩

theorem exec_init_ok {s t : State} (hi : s.ctl.seq = .idle) (h : exec .init s = .next t) (hok : t.okResult) :
    ∃ misses tp hb w, misses.length ≤ 4 ∧ (∀ r ∈ misses, r ≠ .ok [0x60]) ∧
      follow (polled misses ++ identified tp hb) s.world = some w := by
  have e : exec .init s = _ := runCommand_idle hi
  obtain rfl := Host.Outcome.next.inj (h.symm.trans e)
  exact ok_init hok

/-- Settles O58: the same, with the identity poll before. -/
theorem initRecoversAnySensor : Obligations.InitRecoversAnySensor := by
  refine ⟨fun s hi hc hid ho => ?_, fun s t hi hc hw h hok => ?_⟩
  · obtain ⟨w1, h1, ho⟩ := follow_id_ok hc hid ho
    obtain ⟨w2, h2, ho⟩ := follow_softReset_ok ho
    obtain ⟨tp, w3, h3, -, ho⟩ := follow_bus_ok (op := .rdCalibTp) rfl 0 ho
    obtain ⟨hb, w4, h4, -, ho⟩ := follow_bus_ok (op := .rdCalibH) rfl 0 ho
    have hf := follow_trans (follow_trans h1 h2) (follow_trans h3 (follow_trans h4 (follow_wait 1)))
    exact ⟨_, initLoadsCalibration s [] tp hb _ hi (by decide) nofun hf, rfl⟩
  · obtain ⟨misses, tp, hb, w, hl, hmiss, hf⟩ := exec_init_ok hi h hok
    obtain ⟨w1, h1, h2⟩ := follow_parts hf
    have hk1 := follow_keeps h1
    obtain ⟨htp, hhb, hfresh⟩ := follow_identified (hk1.conforming.trans hc) (hk1.wf hw) h2
    obtain rfl := Host.Outcome.next.inj (h.symm.trans (initLoadsCalibration s misses tp hb w hi hl hmiss hf))
    refine ⟨?_, hfresh.ctrlHum, hfresh.ctrlMeas, hfresh.config, hfresh.data, hfresh.humEff, hfresh.quiet,
      fun a ha => (follow_keeps hf).reg hc ha⟩
    rw [htp, hhb, hk1.burst hc (by decide), hk1.burst hc (by decide)]
    rfl

end Sys2Proof.Machine
end
